-- ==== Sys2Proof/Word.lean ====
section
/-! DEFINITION. The word and byte types of OTPDT (spec/00_scope.md R6, R8). -/

namespace Sys2Proof

/-- A 32-bit register or command word (R6: "register width | 32 bits"). -/
abbrev Word := BitVec 32

/-- A byte of DIGEST, CAND or CODE (R8). -/
abbrev Byte := BitVec 8

/-- A moving factor, Unix time or probe base (R6, R26, R28, R30). -/
abbrev Word64 := BitVec 64

end Sys2Proof
end

