-- ==== Sys2Proof/Syntax.lean ====
section
/-! DEFINITION. The commands of OTPDT (spec/30_encoding.md R59, spec/opcode_table.json) and the names of
its registers (spec/10_state.md R14). -/

namespace Sys2Proof

/-- The ten commands, in the order of R59. Every operand is implicit (R61), so no constructor has a field. -/
inductive Instr where
  /-- TRUNC, OP 0x01 (R80). -/
  | trunc
  /-- MODFMT, OP 0x02 (R81). -/
  | modfmt
  /-- GEN, OP 0x03 (R82). -/
  | gen
  /-- CMP, OP 0x04 (R87). -/
  | cmp
  /-- VALIDATE, OP 0x05 (R88). -/
  | validate
  /-- TDIV, OP 0x06 (R91). -/
  | tdiv
  /-- PROBE_START, OP 0x07 (R93). -/
  | probeStart
  /-- PROBE_STEP, OP 0x08 (R94). -/
  | probeStep
  /-- PROBE_CLEAR, OP 0x09 (R97). -/
  | probeClear
  /-- SRST, OP 0x0A (R76). -/
  | srst
  deriving DecidableEq, Repr

/-- The registers of the map of R14, by name. -/
inductive Reg where
  | id | ctrl | status | cmd | intStatus | intEnable
  | timeLo | timeHi | period | counterLo | counterHi | ctrBe0 | ctrBe1
  | probeBaseLo | probeBaseHi | probeIdx
  | truncOff | truncVal | result | codeLen
  | code (k : Fin 4)
  | candLen
  | cand (k : Fin 4)
  | digest (k : Fin 16)
  deriving DecidableEq, Repr

end Sys2Proof
end

