-- ==== Sys2Proof/Config.lean ====
section
/-! DEFINITION. What spec/ leaves open: the free value draw() (spec/00_scope.md R10) and the parameters of R7.
None of them has a body, so no proof can see a value of one. -/

namespace Sys2Proof.Config

/-- The free values of `draw()` (R10: "an unconstrained value the model takes as a free input"), one for each
use, numbered by `State.draws` (log 3). -/
opaque draw : Nat → Word

/-- The platform address of register offset 0x000 (R7 `BASE`, R43). The block sees offsets only; nothing below
depends on it (log 18). -/
opaque base : Nat

/-- The platform address of a register offset (R43). -/
def platformAddr (off : Nat) : Nat := base + off

/-- One less than `LAT(op)` (R7, R126): a function of the command alone, with one value (`none`) shared by
every illegal word. -/
opaque latLessOne : Option Instr → Nat

/-- `LAT(op)`, the number of cycles BUSY stays 1: "a positive integer that depends only on OP" (R126). No rule of
the model depends on it (R127; log 13). -/
def lat (op : Option Instr) : Nat := latLessOne op + 1

/-- The level of the reset pin that asserts reset (R7 `RESET_POLARITY`). -/
opaque resetLevel : Bool

end Sys2Proof.Config
end

