-- ==== Sys2Proof/WellFormed.lean ====
section
/-! DEFINITION. The checks a command word must pass to be legal (spec/30_encoding.md R58). A command has no
operand field (R61), so every term of `Instr` is well formed; what can be ill formed is the word. -/

namespace Sys2Proof

/-- `w[31:8] = 0` (R57: RSV "reserved, must be 0"). -/
def rsvZero (w : Word) : Bool := w.toNat / 256 == 0

/-- `w[7:0]` is one of the opcodes of R59, 0x01 to 0x0A. -/
def opAssigned (w : Word) : Bool := 1 ≤ w.toNat % 256 && w.toNat % 256 ≤ 10

/-- R58: "A command word w is legal if and only if w[31:8] = 0 and w[7:0] is one of the opcodes of rule R59". -/
def legalWord (w : Word) : Bool := rsvZero w && opAssigned w

end Sys2Proof
end

