-- ==== Sys2Proof/Decode.lean ====
section
/-! DEFINITION. The decoder of command words, total and rejecting by name, and the encoder
(spec/30_encoding.md R57 to R60, spec/opcode_table.json). -/

namespace Sys2Proof

/-- Why a word is no command (R60). Such a word is accepted all the same and completes with ILLEGAL_CMD (R75). -/
inductive DecodeError where
  /-- RSV, `w[31:8]`, is not 0. -/
  | reservedBits
  /-- OP is 0x00 or 0x0B to 0xFF. -/
  | reservedOpcode
  deriving DecidableEq, Repr

/-- The field OP, bits 7:0 (R57). -/
def opField (w : Word) : BitVec 8 := w.extractLsb' 0 8

/-- The field RSV, bits 31:8 (R57). -/
def rsvField (w : Word) : BitVec 24 := w.extractLsb' 8 24

/-- The opcode map of R59. -/
def decodeOp (op : BitVec 8) : Except DecodeError Instr :=
  match op.toNat with
  | 0x01 => .ok .trunc
  | 0x02 => .ok .modfmt
  | 0x03 => .ok .gen
  | 0x04 => .ok .cmp
  | 0x05 => .ok .validate
  | 0x06 => .ok .tdiv
  | 0x07 => .ok .probeStart
  | 0x08 => .ok .probeStep
  | 0x09 => .ok .probeClear
  | 0x0A => .ok .srst
  | _ => .error .reservedOpcode

/-- The command a word stands for (R58): the whole word is decoded, RSV included. -/
def decode (w : Word) : Except DecodeError Instr :=
  if rsvField w = 0 then decodeOp (opField w) else .error .reservedBits

/-- `OP(m)`, the opcode of R59. -/
def opcode (i : Instr) : BitVec 8 :=
  match i with
  | .trunc => 0x01
  | .modfmt => 0x02
  | .gen => 0x03
  | .cmp => 0x04
  | .validate => 0x05
  | .tdiv => 0x06
  | .probeStart => 0x07
  | .probeStep => 0x08
  | .probeClear => 0x09
  | .srst => 0x0A

/-- The command word: RSV = 0 above OP (R57; R59: "every opcode's match is 0x000000OP"). -/
def encode (i : Instr) : Word := 0#24 ++ opcode i

/-- The 32-bit word whose low `nbits` bits are those of `w` and whose other bits are 0. -/
def tableWord (nbits w : Nat) : Word := BitVec.ofNat 32 (w % 2 ^ nbits)

/-- The command the decoder reads from an opcode-table word (`none`: the word is illegal). -/
def decodeTableWord (nbits w : Nat) : Option Instr :=
  match decode (tableWord nbits w) with
  | .ok i => some i
  | .error _ => none

end Sys2Proof
end

