-- ==== Sys2Proof/Machine/State.lean ====
section
/-! DEFINITION. The state of OTPDT (spec/10_state.md, spec/40_command_cycle.md R65), its reset value
(spec/70_reset_and_hazards.md R116), and the reasons a step can stop. -/

namespace Sys2Proof.Machine

/-- CTRL.ALG (R18): the algorithm that made the digest, which sets the digest length. -/
inductive Alg where
  | sha1 | sha256 | sha512 | md5
  deriving DecidableEq, Repr

/-- STATUS.PSTATE (R22). The values 5 to 7 are never produced, so they have no constructor. -/
inductive PState where
  | idle | active | hit | miss | aborted
  deriving DecidableEq, Repr

/-- STATUS.ERR (R100). The codes 7 to 15 are never produced, so they have no constructor. -/
inductive ErrCode where
  /-- 0: the command completed without error. -/
  | none
  /-- 1: a CMD word with RSV not 0 or an unassigned OP. -/
  | illegalCmd
  /-- 2: DIGITS is 0 or 10 to 15 when the command needs it. -/
  | invalidDigits
  /-- 3: the truncation reads past an MD5 digest. -/
  | truncRange
  /-- 4: CAND_LEN is not DIGITS. -/
  | invalidInputLength
  /-- 5: CMP with CODE_LEN not DIGITS. -/
  | codeStale
  /-- 6: PROBE_STEP with PSTATE not ACTIVE. -/
  | probeState
  deriving DecidableEq, Repr

/-- One thing that can happen to the block (R65, R115). A host access carries its byte offset from BASE and its
byte-enable pattern (R48). -/
inductive Event where
  /-- `MemRead(off, 4)` when all four lanes are enabled. -/
  | read (off : Nat) (lanes : BitVec 4)
  /-- `MemWrite(off, 4, v)` when all four lanes are enabled. -/
  | write (off : Nat) (lanes : BitVec 4) (v : Word)
  /-- The completion step of the block sequencer. -/
  | completion
  /-- The reset pin takes a level. -/
  | resetPin (level : Bool)
  deriving DecidableEq, Repr

/-- What the bus answered to the last host access (R7, R48, R103; log 9). -/
inductive BusOut where
  /-- No access has been answered yet. -/
  | none
  /-- The access came while reset was asserted and was ignored (R115; log 7). -/
  | ignored
  | readOkay (data : Word)
  /-- A refused read; the host must not use the data (R48). -/
  | readError (data : Word)
  | writeOkay
  | writeError
  deriving DecidableEq, Repr

/-- The state of the block. Reserved bits of a register have no field: they read 0 and cannot be written (R15,
R49; log 10). A 64-bit value is stored once, and its two registers are its halves (R47). -/
structure State where
  /-- CTRL.ALG (R18). -/
  alg : Alg
  /-- CTRL.DIGITS, write-any (R19). -/
  digits : BitVec 4
  /-- CTRL.SKEW (R20). -/
  skew : BitVec 8
  /-- STATUS.MATCH (R21). -/
  matched : Bool
  /-- STATUS.ERR (R21, R100). -/
  err : ErrCode
  /-- STATUS.PSTATE (R22). -/
  pstate : PState
  /-- INT_STATUS.DONE (R24). -/
  done : Bool
  /-- INT_STATUS.OVR (R24). -/
  ovr : Bool
  /-- INT_ENABLE.DONE_EN (R25). -/
  doneEn : Bool
  /-- INT_ENABLE.OVR_EN (R25). -/
  ovrEn : Bool
  /-- TIME (R26). -/
  time : Word64
  /-- PERIOD (R27). -/
  period : Word
  /-- COUNTER (R28); CTR_BE0 and CTR_BE1 are views of it (R29). -/
  counter : Word64
  /-- PROBE_BASE (R30). -/
  probeBase : Word64
  /-- PROBE_IDX.PIDX (R31). -/
  pidx : BitVec 10
  /-- PROBE_IDX.PSKEW (R31). -/
  pskew : BitVec 8
  /-- TRUNC_OFF bits 3:0 (R32). -/
  truncOff : BitVec 4
  /-- TRUNC_VAL bits 30:0 (R33). -/
  truncVal : BitVec 31
  /-- RESULT bits 29:0 (R34). -/
  result : BitVec 30
  /-- CODE_LEN bits 3:0 (R35). -/
  codeLen : BitVec 4
  /-- CODE[0..15] (R36). -/
  code : Vector Byte 16
  /-- CAND_LEN (R37). -/
  candLen : Word
  /-- CAND[0..15] (R38). -/
  cand : Vector Byte 16
  /-- DIGEST[0..63] (R39). -/
  digest : Vector Byte 64
  /-- STATUS.BUSY, the command-cycle state `busy` (R21, R40). -/
  busy : Bool
  /-- The command word latched at acceptance (R40); read only while `busy` (log 5). -/
  pendOp : Word
  /-- The reset input `rst` is asserted (R115; log 7). -/
  rst : Bool
  /-- The model's own: what happens next, oldest first (R65; log 1). -/
  inbox : List Event
  /-- The model's own: the answer to the last host access (log 9). -/
  busOut : BusOut
  /-- The model's own: how many free values have been drawn (R10; log 3). -/
  draws : Nat
  deriving DecidableEq, Repr

/-- Reasons the machine stops. -/
inductive Fault where
  /-- Raised by a host access at offset 0x200 or above, which is outside the block's window: "The platform
  decides what they do" (R49). Safe: the model stops where the platform might go on (log 8). -/
  | outsideWindow
  deriving DecidableEq, Repr

/-- Reasons an instruction has no meaning in the model. -/
inductive Refusal where
  /-- Raised by an arm of `exec` whose instruction is not modelled; no arm does so. Safe. -/
  | notModelled (mnemonic : String)
  deriving DecidableEq, Repr

/-- The block right after power-on reset (R116). `pendOp` is unspecified there and takes 0 (log 5); `inbox`,
`busOut` and `draws` are the model's own (log 1, 9, 3). -/
def State.reset : State where
  alg := .sha1
  digits := 6
  skew := 0
  matched := false
  err := .none
  pstate := .idle
  done := false
  ovr := false
  doneEn := false
  ovrEn := false
  time := 0
  period := 0
  counter := 0
  probeBase := 0
  pidx := 0
  pskew := 0
  truncOff := 0
  truncVal := 0
  result := 0
  codeLen := 0
  code := Vector.replicate 16 0
  candLen := 0
  cand := Vector.replicate 16 0
  digest := Vector.replicate 64 0
  busy := false
  pendOp := 0
  rst := false
  inbox := []
  busOut := .none
  draws := 0

end Sys2Proof.Machine
end

