-- ==== Sys2Proof/Machine/Flags.lean ====
section
/-! DEFINITION. STATUS and its field codes, the interrupt output, and the write sets W(op)
(spec/10_state.md R21 to R25, spec/40_command_cycle.md R71, spec/60_exceptions.md R100). -/

namespace Sys2Proof.Machine

/-- The PSTATE codes of R22. -/
def PState.bits (p : PState) : BitVec 3 :=
  match p with
  | .idle => 0
  | .active => 1
  | .hit => 2
  | .miss => 3
  | .aborted => 4

/-- The ERR codes of R100. -/
def ErrCode.bits (e : ErrCode) : BitVec 4 :=
  match e with
  | .none => 0
  | .illegalCmd => 1
  | .invalidDigits => 2
  | .truncRange => 3
  | .invalidInputLength => 4
  | .codeStale => 5
  | .probeState => 6

/-- One bit of a register word. -/
def bit (b : Bool) : BitVec 1 := BitVec.ofBool b

/-- The STATUS word of R21: BUSY 0, MATCH 1, ERR 7:4, PSTATE 10:8, the rest reads 0. -/
def packStatus (busy matched : Bool) (err : BitVec 4) (pstate : BitVec 3) : Word :=
  0#21 ++ pstate ++ err ++ 0#2 ++ bit matched ++ bit busy

/-- STATUS, exact. -/
def statusWord (s : State) : Word := packStatus s.busy s.matched s.err.bits s.pstate.bits

/-- The level output `irq` (R25, R105). -/
def irq (s : State) : Bool := (s.done && s.doneEn) || (s.ovr && s.ovrEn)

/-- The command a CMD word stands for; `none` for an illegal word (R58). -/
def commandOf (w : Word) : Option Instr :=
  match decode w with
  | .ok i => some i
  | .error _ => none

/-- TRUNC_OFF and TRUNC_VAL. -/
def isTruncReg (r : Reg) : Bool :=
  match r with
  | .truncOff | .truncVal => true
  | _ => false

/-- RESULT, CODE_LEN and CODE0..3. -/
def isCodeReg (r : Reg) : Bool :=
  match r with
  | .result | .codeLen | .code _ => true
  | _ => false

/-- COUNTER_LO, COUNTER_HI, CTR_BE0 and CTR_BE1. -/
def isCounterReg (r : Reg) : Bool :=
  match r with
  | .counterLo | .counterHi | .ctrBe0 | .ctrBe1 => true
  | _ => false

/-- PROBE_BASE_LO and PROBE_BASE_HI. -/
def isProbeBaseReg (r : Reg) : Bool :=
  match r with
  | .probeBaseLo | .probeBaseHi => true
  | _ => false

/-- W(op) of R71 without STATUS, whose fields are `writesMatch`, `writesPState` and, for every op, ERR. SRST's row is
every register of R14 but three, so CMD is in it, though CMD holds no value (R23; log 6). -/
def writesReg (op : Option Instr) (r : Reg) : Bool :=
  match op with
  | none => false
  | some .trunc => isTruncReg r
  | some .modfmt => isCodeReg r
  | some .gen => isTruncReg r || isCodeReg r
  | some .cmp => false
  | some .validate => isTruncReg r || isCodeReg r
  | some .tdiv => isCounterReg r
  | some .probeStart => isProbeBaseReg r || r == .probeIdx || isCounterReg r
  | some .probeStep => isTruncReg r || isCodeReg r || r == .probeIdx || isCounterReg r
  | some .probeClear => isProbeBaseReg r || r == .probeIdx
  | some .srst => !(r == .id || r == .intStatus || r == .intEnable || r == .status)

/-- STATUS.MATCH is in W(op) (R71). -/
def writesMatch (op : Option Instr) : Bool :=
  match op with
  | none => false
  | some .trunc => false
  | some .modfmt => false
  | some .gen => false
  | some .cmp => true
  | some .validate => true
  | some .tdiv => false
  | some .probeStart => true
  | some .probeStep => true
  | some .probeClear => false
  | some .srst => true

/-- STATUS.PSTATE is in W(op) (R71). -/
def writesPState (op : Option Instr) : Bool :=
  match op with
  | none => false
  | some .trunc => false
  | some .modfmt => false
  | some .gen => false
  | some .cmp => false
  | some .validate => false
  | some .tdiv => false
  | some .probeStart => true
  | some .probeStep => true
  | some .probeClear => true
  | some .srst => true

/-- STATUS as a read returns it while the command `op` is pending (R71): "BUSY = 1 exactly, with each STATUS field
in W(pend_op) drawn and every other field exact". The drawn fields are taken from the free word `w` (log 4). -/
def busyStatusWord (s : State) (op : Option Instr) (w : Word) : Word :=
  packStatus true
    (if writesMatch op then w.getLsbD 1 else s.matched)
    (w.extractLsb' 4 4)
    (if writesPState op then w.extractLsb' 8 3 else s.pstate.bits)

end Sys2Proof.Machine
end

