-- ==== Sys2Proof/Machine/Operands.lean ====
section
/-! DEFINITION. The registers as words: the map of offsets, field packing, byte lanes, and what a command reads
(spec/10_state.md R14 to R39, spec/20_memory.md R43 to R49). -/

namespace Sys2Proof.Machine

/-- ID reads this constant at all times (R16). -/
def idValue : Word := 0x4F545031#32

/-- The register window is 0x200 bytes (R14, R43). -/
def windowSize : Nat := 0x200

/-- The ALG codes of R18. -/
def Alg.bits (a : Alg) : BitVec 2 :=
  match a with
  | .sha1 => 0
  | .sha256 => 1
  | .sha512 => 2
  | .md5 => 3

/-- The algorithm a code of R18 stands for; every code is legal (R17). -/
def Alg.ofBits (b : BitVec 2) : Alg :=
  match b.toNat with
  | 0 => .sha1
  | 1 => .sha256
  | 2 => .sha512
  | _ => .md5

/-- `digest_len(alg)` (R18). -/
def digestLen (a : Alg) : Nat :=
  match a with
  | .sha1 => 20
  | .sha256 => 32
  | .sha512 => 64
  | .md5 => 16

/-- `digits_ok(d)` (R19). -/
def digitsOk (d : BitVec 4) : Bool := 1 ≤ d.toNat && d.toNat ≤ 9

/-- `eff_period()` (R90): 0 stands for 30 seconds. -/
def effPeriod (period : Word) : Word := if period = 0 then 30 else period

/-- Byte `i` of a buffer. No rule reads a byte past a buffer's end. -/
def byteAt {n : Nat} (b : Vector Byte n) (i : Nat) : Byte := b[i]?.getD 0

/-- Word `k` of a buffer in bus byte-lane order (R46): `B[4k+3] ++ B[4k+2] ++ B[4k+1] ++ B[4k]`. -/
def bufWord {n : Nat} (b : Vector Byte n) (k : Nat) : Word :=
  byteAt b (4 * k + 3) ++ byteAt b (4 * k + 2) ++ byteAt b (4 * k + 1) ++ byteAt b (4 * k)

/-- The buffer after word `k` is written (R46): `B[4k+j] = v[8j+7 : 8j]`, and no other byte changes. -/
def setBufWord {n : Nat} (b : Vector Byte n) (k : Nat) (v : Word) : Vector Byte n :=
  Vector.ofFn fun i => if i.val / 4 = k then v.extractLsb' (8 * (i.val % 4)) 8 else b[i]

/-- The halves of a 64-bit register (R26, R28, R30). -/
def loHalf (x : Word64) : Word := x.extractLsb' 0 32
def hiHalf (x : Word64) : Word := x.extractLsb' 32 32

/-- A 64-bit register after its low or its high half is written (R47). -/
def setLo (x : Word64) (v : Word) : Word64 := hiHalf x ++ v
def setHi (x : Word64) (v : Word) : Word64 := v ++ loHalf x

/-- Byte `k` of the counter's big-endian serialisation (R29): `m[k] = COUNTER[63-8k : 56-8k]`. -/
def counterByte (c : Word64) (k : Nat) : Byte := c.extractLsb' (56 - 8 * k) 8

/-- CTR_BE0 and CTR_BE1 (R29). -/
def ctrBe0 (c : Word64) : Word := counterByte c 3 ++ counterByte c 2 ++ counterByte c 1 ++ counterByte c 0
def ctrBe1 (c : Word64) : Word := counterByte c 7 ++ counterByte c 6 ++ counterByte c 5 ++ counterByte c 4

/-- CTRL as a word (R17): ALG 1:0, DIGITS 7:4, SKEW 15:8, the rest reads 0. -/
def ctrlWord (s : State) : Word := 0#16 ++ s.skew ++ s.digits ++ 0#2 ++ s.alg.bits

/-- PROBE_IDX as a word (R31): PIDX 9:0, PSKEW 23:16, the rest reads 0. -/
def probeIdxWord (s : State) : Word := 0#8 ++ s.pskew ++ 0#6 ++ s.pidx

/-- The exact value of a register as a word (R14 to R39). A read of CMD returns 0 (R23). -/
def readReg (s : State) (r : Reg) : Word :=
  match r with
  | .id => idValue
  | .ctrl => ctrlWord s
  | .status => statusWord s
  | .cmd => 0
  | .intStatus => 0#30 ++ bit s.ovr ++ bit s.done
  | .intEnable => 0#30 ++ bit s.ovrEn ++ bit s.doneEn
  | .timeLo => loHalf s.time
  | .timeHi => hiHalf s.time
  | .period => s.period
  | .counterLo => loHalf s.counter
  | .counterHi => hiHalf s.counter
  | .ctrBe0 => ctrBe0 s.counter
  | .ctrBe1 => ctrBe1 s.counter
  | .probeBaseLo => loHalf s.probeBase
  | .probeBaseHi => hiHalf s.probeBase
  | .probeIdx => probeIdxWord s
  | .truncOff => s.truncOff.setWidth 32
  | .truncVal => s.truncVal.setWidth 32
  | .result => s.result.setWidth 32
  | .codeLen => s.codeLen.setWidth 32
  | .code k => bufWord s.code k
  | .candLen => s.candLen
  | .cand k => bufWord s.cand k
  | .digest k => bufWord s.digest k

/-- The offset of a register (R14). -/
def regOffset (r : Reg) : Nat :=
  match r with
  | .id => 0x000
  | .ctrl => 0x004
  | .status => 0x008
  | .cmd => 0x00C
  | .intStatus => 0x010
  | .intEnable => 0x014
  | .timeLo => 0x020
  | .timeHi => 0x024
  | .period => 0x028
  | .counterLo => 0x030
  | .counterHi => 0x034
  | .ctrBe0 => 0x038
  | .ctrBe1 => 0x03C
  | .probeBaseLo => 0x040
  | .probeBaseHi => 0x044
  | .probeIdx => 0x048
  | .truncOff => 0x050
  | .truncVal => 0x054
  | .result => 0x058
  | .codeLen => 0x05C
  | .code k => 0x060 + 4 * k.val
  | .candLen => 0x070
  | .cand k => 0x080 + 4 * k.val
  | .digest k => 0x100 + 4 * k.val

/-- The register at an aligned offset of the window; `none` where the offset is reserved (R14, R49). -/
def regAt (off : Nat) : Option Reg :=
  match off with
  | 0x000 => some .id
  | 0x004 => some .ctrl
  | 0x008 => some .status
  | 0x00C => some .cmd
  | 0x010 => some .intStatus
  | 0x014 => some .intEnable
  | 0x020 => some .timeLo
  | 0x024 => some .timeHi
  | 0x028 => some .period
  | 0x030 => some .counterLo
  | 0x034 => some .counterHi
  | 0x038 => some .ctrBe0
  | 0x03C => some .ctrBe1
  | 0x040 => some .probeBaseLo
  | 0x044 => some .probeBaseHi
  | 0x048 => some .probeIdx
  | 0x050 => some .truncOff
  | 0x054 => some .truncVal
  | 0x058 => some .result
  | 0x05C => some .codeLen
  | 0x060 => some (.code 0)
  | 0x064 => some (.code 1)
  | 0x068 => some (.code 2)
  | 0x06C => some (.code 3)
  | 0x070 => some .candLen
  | 0x080 => some (.cand 0)
  | 0x084 => some (.cand 1)
  | 0x088 => some (.cand 2)
  | 0x08C => some (.cand 3)
  | 0x100 => some (.digest 0)
  | 0x104 => some (.digest 1)
  | 0x108 => some (.digest 2)
  | 0x10C => some (.digest 3)
  | 0x110 => some (.digest 4)
  | 0x114 => some (.digest 5)
  | 0x118 => some (.digest 6)
  | 0x11C => some (.digest 7)
  | 0x120 => some (.digest 8)
  | 0x124 => some (.digest 9)
  | 0x128 => some (.digest 10)
  | 0x12C => some (.digest 11)
  | 0x130 => some (.digest 12)
  | 0x134 => some (.digest 13)
  | 0x138 => some (.digest 14)
  | 0x13C => some (.digest 15)
  | _ => none

/-- The operand registers of R68: writable while idle, write dropped while BUSY. -/
def isOperandReg (r : Reg) : Bool :=
  match r with
  | .ctrl | .timeLo | .timeHi | .period | .counterLo | .counterHi | .candLen => true
  | .cand _ | .digest _ => true
  | _ => false

/-- An access the bus accepts (R48): all four lanes, at a multiple of 4. -/
def accessOk (off : Nat) (lanes : BitVec 4) : Bool := lanes == 0xF#4 && off % 4 == 0

end Sys2Proof.Machine
end

