-- ==== Sys2Proof/Machine/Ops.lean ====
section
/-! DEFINITION. The operations commands share: completion and errors (spec/40_command_cycle.md R66 to R72,
spec/60_exceptions.md R99), resets, dynamic truncation and formatting (spec/41_truncation.md R77, R78), comparison
(spec/42_validation.md R85) and the probe order (spec/43_totp.md R92). -/

namespace Sys2Proof.Machine

/-! ## Named updates of State -/

/-- TRUNC_OFF and TRUNC_VAL are written. -/
def State.withTrunc (s : State) (off : BitVec 4) (v : BitVec 31) : State :=
  { s with truncOff := off, truncVal := v }

/-- RESULT, CODE_LEN and CODE[0..15] are written. -/
def State.withCode (s : State) (r : BitVec 30) (len : BitVec 4) (c : Vector Byte 16) : State :=
  { s with result := r, codeLen := len, code := c }

/-- STATUS.MATCH is written. -/
def State.withMatch (s : State) (b : Bool) : State := { s with matched := b }

/-- STATUS.PSTATE is written. -/
def State.withPState (s : State) (p : PState) : State := { s with pstate := p }

/-- COUNTER is written, and so its views CTR_BE0 and CTR_BE1. -/
def State.withCounter (s : State) (c : Word64) : State := { s with counter := c }

/-- PROBE_BASE and both fields of PROBE_IDX are written. -/
def State.withProbe (s : State) (base : Word64) (idx : BitVec 10) (skew : BitVec 8) : State :=
  { s with probeBase := base, pidx := idx, pskew := skew }

/-- PROBE_IDX.PIDX is written. -/
def State.withPidx (s : State) (idx : BitVec 10) : State := { s with pidx := idx }

/-- The three fields of CTRL are written (R17). -/
def State.withCtrl (s : State) (a : Alg) (d : BitVec 4) (k : BitVec 8) : State :=
  { s with alg := a, digits := d, skew := k }

/-- TIME is written (R26). -/
def State.withTime (s : State) (t : Word64) : State := { s with time := t }

/-- PERIOD is written (R27). -/
def State.withPeriod (s : State) (p : Word) : State := { s with period := p }

/-- CAND_LEN is written (R37). -/
def State.withCandLen (s : State) (n : Word) : State := { s with candLen := n }

/-- CAND is written (R38). -/
def State.withCand (s : State) (c : Vector Byte 16) : State := { s with cand := c }

/-- DIGEST is written (R39). -/
def State.withDigest (s : State) (g : Vector Byte 64) : State := { s with digest := g }

/-- The bits of INT_STATUS are written (R24). -/
def State.withIntStatus (s : State) (done ovr : Bool) : State := { s with done := done, ovr := ovr }

/-- The bits of INT_ENABLE are written (R25). -/
def State.withIntEnable (s : State) (doneEn ovrEn : Bool) : State := { s with doneEn := doneEn, ovrEn := ovrEn }

/-- INT_STATUS.OVR is set (R67, R68). -/
def State.withOvr (s : State) : State := { s with ovr := true }

/-- Acceptance of a command word (R66): "Nothing else changes at acceptance". -/
def State.accept (s : State) (w : Word) : State := { s with pendOp := w, busy := true }

/-- The writes every completion makes (R70): ERR, BUSY and DONE. -/
def State.completed (s : State) (e : ErrCode) : State := { s with err := e, busy := false, done := true }

/-- The bus answers an access (log 9). -/
def State.answer (s : State) (b : BusOut) : State := { s with busOut := b }

/-- One free value has been used (R10; log 3). -/
def State.drew (s : State) : State := { s with draws := s.draws + 1 }

/-- The oldest event is taken off the inbox (log 1). -/
def State.withInbox (s : State) (l : List Event) : State := { s with inbox := l }

/-- Soft reset (R76, R117): every register takes its reset value but INT_STATUS and INT_ENABLE, "which it keeps". -/
def State.softReset (s : State) : State :=
  { State.reset with
    done := s.done, ovr := s.ovr, doneEn := s.doneEn, ovrEn := s.ovrEn,
    busy := s.busy, pendOp := s.pendOp, rst := s.rst,
    inbox := s.inbox, busOut := s.busOut, draws := s.draws }

/-- Release of power-on reset (R115): every register takes its value of R116, `busy = 0`, "and any pending command
is discarded without completing". Only what is outside the block stays (log 7). -/
def State.powerOnReset (s : State) : State :=
  { State.reset with inbox := s.inbox, busOut := s.busOut, draws := s.draws }

/-! ## Completion and errors -/

/-- A command ends without error (R70). -/
def complete (s : State) : Host.Outcome State Fault Refusal := .next (s.completed .none)

/-- `raise Error(code)` (R99): the command ends, and its completion writes the code. This is the block's only form
of exception: "Trap entry and return do not exist" (R107). `s` holds the writes the rule lists for the error. -/
def raise (s : State) (e : ErrCode) : Host.Outcome State Fault Refusal := .next (s.completed e)

/-- An error of CMP or VALIDATE (R72, R87, R88): MATCH <- 0, then the error. -/
def raiseNoMatch (s : State) (e : ErrCode) : Host.Outcome State Fault Refusal := raise (s.withMatch false) e

/-- An error that ends a probe scan (R72, R94): MATCH <- 0, PSTATE <- ABORTED, then the error. -/
def raiseAbort (s : State) (e : ErrCode) : Host.Outcome State Fault Refusal :=
  raise ((s.withMatch false).withPState .aborted) e

/-! ## Dynamic truncation and formatting -/

/-- The offset, the low 4 bits of the digest's last byte (R77). -/
def truncOffset (a : Alg) (digest : Vector Byte 64) : BitVec 4 :=
  (byteAt digest (digestLen a - 1)).extractLsb' 0 4

/-- The four bytes at an offset, most significant first, with the top bit masked (R77). -/
def extract31 (digest : Vector Byte 64) (off : Nat) : Word :=
  ((byteAt digest off &&& 0x7F#8).setWidth 32 <<< 24)
    ||| ((byteAt digest (off + 1)).setWidth 32 <<< 16)
    ||| ((byteAt digest (off + 2)).setWidth 32 <<< 8)
    ||| (byteAt digest (off + 3)).setWidth 32

/-- `dt()` (R77): the offset and the 31-bit value, or TRUNC_RANGE. -/
def dt (s : State) : Except ErrCode (BitVec 4 × BitVec 31) :=
  let off := truncOffset s.alg s.digest
  if digestLen s.alg - 1 < off.toNat + 3 then .error .truncRange
  else .ok (off, (extract31 s.digest off.toNat).setWidth 31)

/-- The code bytes of R78: `d` ASCII digits, most significant first, then 0x00. -/
def codeBytes (r d : Nat) : Vector Byte 16 :=
  Vector.ofFn fun i => if i.val < d then BitVec.ofNat 8 (0x30 + (r / 10 ^ (d - 1 - i.val)) % 10) else 0

/-- `fmt(v, d)` (R78): the code value and the code bytes, or INVALID_DIGITS. -/
def fmt (v : BitVec 31) (d : BitVec 4) : Except ErrCode (BitVec 30 × Vector Byte 16) :=
  if digitsOk d then
    let r := v.toNat % 10 ^ d.toNat
    .ok (BitVec.ofNat 30 r, codeBytes r d.toNat)
  else .error .invalidDigits

/-- `dt`, then `fmt`, then the writes of TRUNC_OFF, TRUNC_VAL, RESULT, CODE_LEN and CODE: what GEN, VALIDATE and
PROBE_STEP have in common (R82, R88, R94). Nothing is written on an error. -/
def recompute (s : State) : Except ErrCode State :=
  match dt s with
  | .error e => .error e
  | .ok (off, v) =>
    match fmt v s.digits with
    | .error e => .error e
    | .ok (r, c) => .ok ((s.withTrunc off v).withCode r s.digits c)

/-- CAND_LEN is DIGITS, compared "as a full 32-bit value" (R87). -/
def candLenOk (s : State) : Bool := s.candLen == s.digits.setWidth 32

/-! ## Comparison -/

/-- The accumulator of `ct_eq` after the first `n` positions (R85): every position is read, in order. -/
def ctAcc (a b : Vector Byte 16) (n : Nat) : Byte :=
  match n with
  | 0 => 0
  | n + 1 => ctAcc a b n ||| (byteAt a n ^^^ byteAt b n)

/-- `ct_eq(a, b, n)` (R85). -/
def ctEq (a b : Vector Byte 16) (n : Nat) : Bool := ctAcc a b n == 0

/-! ## The probe order -/

/-- `probe_off(i)` (R92): 0, +1, -1, +2, -2, ... -/
def probeOff (i : Nat) : Int :=
  if i % 2 = 1 then ((i + 1) / 2 : Nat) else -((i / 2 : Nat) : Int)

/-- `probe_ctr(i) = (PROBE_BASE + probe_off(i)) mod 2^64` (R92). -/
def probeCtr (base : Word64) (i : Nat) : Word64 := base + BitVec.ofInt 64 (probeOff i)

end Sys2Proof.Machine
end

