-- ==== Sys2Proof/Machine/Bus.lean ====
section
/-! DEFINITION. Host reads and writes of the register window (spec/10_state.md R15, R23 to R25, spec/20_memory.md R46 to
R50, spec/40_command_cycle.md R66 to R71, spec/60_exceptions.md R103). -/

namespace Sys2Proof.Machine

/-! ## Reads -/

/-- A read of a register while no command is pending, or of one the pending command does not write: the exact
value. A read of a register in W(pend_op) while BUSY: a fresh free value (R71; log 12). -/
def busRead (s : State) (r : Reg) : State :=
  if s.busy then
    if r = .status then
      (s.answer (.readOkay (busyStatusWord s (commandOf s.pendOp) (Config.draw s.draws)))).drew
    else if writesReg (commandOf s.pendOp) r then (s.answer (.readOkay (Config.draw s.draws))).drew
    else s.answer (.readOkay (readReg s r))
  else s.answer (.readOkay (readReg s r))

/-- A host read that reaches the block (R48, R49, R65): refused with an ERROR response and a free value, 0 at a
reserved offset, else `busRead`. -/
def readWindow (s : State) (off : Nat) (lanes : BitVec 4) : State :=
  if accessOk off lanes then
    match regAt off with
    | none => s.answer (.readOkay 0)
    | some r => busRead s r
  else (s.answer (.readError (Config.draw s.draws))).drew

/-! ## Writes -/

/-- An operand register stores the written bits, except reserved bits (R15, R17, R46, R47). Other registers are not
operands (R68). -/
def storeOperand (s : State) (r : Reg) (v : Word) : State :=
  match r with
  | .ctrl => s.withCtrl (Alg.ofBits (v.extractLsb' 0 2)) (v.extractLsb' 4 4) (v.extractLsb' 8 8)
  | .timeLo => s.withTime (setLo s.time v)
  | .timeHi => s.withTime (setHi s.time v)
  | .period => s.withPeriod v
  | .counterLo => s.withCounter (setLo s.counter v)
  | .counterHi => s.withCounter (setHi s.counter v)
  | .candLen => s.withCandLen v
  | .cand k => s.withCand (setBufWord s.cand k v)
  | .digest k => s.withDigest (setBufWord s.digest k v)
  | .id | .status | .cmd | .intStatus | .intEnable | .ctrBe0 | .ctrBe1 | .probeBaseLo | .probeBaseHi => s
  | .probeIdx | .truncOff | .truncVal | .result | .codeLen | .code _ => s

/-- INT_STATUS is W1C (R15, R24): "a write of 1 to a bit clears that bit, and a write of 0 leaves it". -/
def clearIntStatus (s : State) (v : Word) : State :=
  s.withIntStatus (s.done && !v.getLsbD 0) (s.ovr && !v.getLsbD 1)

/-- INT_ENABLE stores bits 1:0 (R25). -/
def storeIntEnable (s : State) (v : Word) : State :=
  s.withIntEnable (v.getLsbD 0) (v.getLsbD 1)

/-- A write of a register (R15): CMD starts a command or is dropped (R66, R67); INT_STATUS and INT_ENABLE take the
write, busy or not (R69); an operand register stores it or drops it (R68); a write to an RO register is ignored. -/
def busWrite (s : State) (r : Reg) (v : Word) : State :=
  match r with
  | .cmd => if s.busy then s.withOvr else s.accept v
  | .intStatus => clearIntStatus s v
  | .intEnable => storeIntEnable s v
  | r => if isOperandReg r then (if s.busy then s.withOvr else storeOperand s r v) else s

/-- A host write that reaches the block (R48, R49, R103): a refused write has no effect and an ERROR response; a
dropped or ignored write is answered OKAY. -/
def writeWindow (s : State) (off : Nat) (lanes : BitVec 4) (v : Word) : State :=
  if accessOk off lanes then
    match regAt off with
    | none => s.answer .writeOkay
    | some r => (busWrite s r v).answer .writeOkay
  else s.answer .writeError

/-! ## Accesses -/

/-- A host read as the bus delivers it. Outside the window the platform decides (R49; log 8); while reset is
asserted "the block ignores bus accesses" (R115). The order of the checks is log 17. -/
def hostRead (s : State) (off : Nat) (lanes : BitVec 4) : Host.Outcome State Fault Refusal :=
  if windowSize ≤ off then .fault .outsideWindow
  else if s.rst then .next (s.answer .ignored)
  else .next (readWindow s off lanes)

/-- A host write as the bus delivers it. -/
def hostWrite (s : State) (off : Nat) (lanes : BitVec 4) (v : Word) : Host.Outcome State Fault Refusal :=
  if windowSize ≤ off then .fault .outsideWindow
  else if s.rst then .next (s.answer .ignored)
  else .next (writeWindow s off lanes v)

/-- The reset pin takes a level (R115): asserted, the block holds; released after having been asserted, every
register takes its reset value (log 7). -/
def setResetPin (s : State) (level : Bool) : State :=
  if level = Config.resetLevel then { s with rst := true }
  else if s.rst then s.powerOnReset
  else s

end Sys2Proof.Machine
end

