-- ==== Sys2Proof/Machine/System.lean ====
section
/-! DEFINITION. SRST and the completion of an illegal word (spec/40_command_cycle.md R75, R76). -/

namespace Sys2Proof.Machine

/-- SRST (R76, R117): the reset values, then a completion like any other, which sets DONE. -/
def execSrst (s : State) : Host.Outcome State Fault Refusal := complete s.softReset

/-- The completion of an illegal command word (R75): "raise Error(ILLEGAL_CMD)" and no other effect. -/
def completeIllegal (s : State) : Host.Outcome State Fault Refusal := raise s .illegalCmd

end Sys2Proof.Machine
end

