-- ==== Sys2Proof/Machine/Totp.lean ====
section
/-! DEFINITION. TDIV, PROBE_START, PROBE_STEP and PROBE_CLEAR (spec/43_totp.md R91, R93, R94, R97). -/

namespace Sys2Proof.Machine

/-- TDIV (R91): exact unsigned floor division on 64 bits. -/
def execTdiv (s : State) : Host.Outcome State Fault Refusal :=
  complete (s.withCounter (s.time / (effPeriod s.period).setWidth 64))

/-- PROBE_START (R93). -/
def execProbeStart (s : State) : Host.Outcome State Fault Refusal :=
  complete ((((s.withProbe s.counter 0 s.skew).withCounter (probeCtr s.counter 0)).withPState .active).withMatch false)

/-- The end of a PROBE_STEP whose code has been recomputed and written (R94): HIT on a match, MISS after the last
counter, else the next counter (log 16). -/
def probeDecide (s : State) : State :=
  if ctEq s.cand s.code s.digits.toNat then (s.withMatch true).withPState .hit
  else if s.pidx.toNat = 2 * s.pskew.toNat then (s.withMatch false).withPState .miss
  else ((s.withMatch false).withPidx (s.pidx + 1)).withCounter (probeCtr s.probeBase (s.pidx.toNat + 1))

/-- PROBE_STEP (R94): PROBE_STATE writes ERR alone; every other error aborts the scan. -/
def execProbeStep (s : State) : Host.Outcome State Fault Refusal :=
  if s.pstate ≠ .active then raise s .probeState
  else if !digitsOk s.digits then raiseAbort s .invalidDigits
  else if !candLenOk s then raiseAbort s .invalidInputLength
  else
    match recompute s with
    | .error e => raiseAbort s e
    | .ok t => complete (probeDecide t)

/-- PROBE_CLEAR (R97): MATCH and COUNTER are unchanged. -/
def execProbeClear (s : State) : Host.Outcome State Fault Refusal :=
  complete ((s.withProbe 0 0 0).withPState .idle)

end Sys2Proof.Machine
end

