-- ==== Sys2Proof/Machine/Truncation.lean ====
section
/-! DEFINITION. TRUNC, MODFMT and GEN (spec/41_truncation.md R80 to R82). -/

namespace Sys2Proof.Machine

/-- TRUNC (R80). -/
def execTrunc (s : State) : Host.Outcome State Fault Refusal :=
  match dt s with
  | .error e => raise s e
  | .ok (off, v) => complete (s.withTrunc off v)

/-- MODFMT (R81): formats TRUNC_VAL as it stands. -/
def execModfmt (s : State) : Host.Outcome State Fault Refusal :=
  match fmt s.truncVal s.digits with
  | .error e => raise s e
  | .ok (r, c) => complete (s.withCode r s.digits c)

/-- GEN (R82): DIGITS is checked before the truncation, and nothing but ERR is written on an error. -/
def execGen (s : State) : Host.Outcome State Fault Refusal :=
  if digitsOk s.digits then
    match recompute s with
    | .error e => raise s e
    | .ok t => complete t
  else raise s .invalidDigits

end Sys2Proof.Machine
end

