-- ==== Sys2Proof/Machine/Validation.lean ====
section
/-! DEFINITION. CMP and VALIDATE (spec/42_validation.md R87, R88). -/

namespace Sys2Proof.Machine

/-- CMP (R87): INVALID_DIGITS, then INVALID_INPUT_LENGTH, then CODE_STALE, then the comparison. -/
def execCmp (s : State) : Host.Outcome State Fault Refusal :=
  if !digitsOk s.digits then raiseNoMatch s .invalidDigits
  else if !candLenOk s then raiseNoMatch s .invalidInputLength
  else if s.codeLen ≠ s.digits then raiseNoMatch s .codeStale
  else complete (s.withMatch (ctEq s.cand s.code s.digits.toNat))

/-- VALIDATE (R88): INVALID_DIGITS, then INVALID_INPUT_LENGTH, then TRUNC_RANGE, then the recomputed code is written
and compared. -/
def execValidate (s : State) : Host.Outcome State Fault Refusal :=
  if !digitsOk s.digits then raiseNoMatch s .invalidDigits
  else if !candLenOk s then raiseNoMatch s .invalidInputLength
  else
    match recompute s with
    | .error e => raiseNoMatch s e
    | .ok t => complete (t.withMatch (ctEq t.cand t.code t.digits.toNat))

end Sys2Proof.Machine
end

