-- ==== Sys2Proof/Machine/Dispatch.lean ====
section
/-! DEFINITION. One arm per command: the completion of the command in a state (R70). -/

namespace Sys2Proof.Machine

def exec (i : Instr) (s : State) : Host.Outcome State Fault Refusal :=
  match i with
  | .trunc => Sys2Proof.Machine.execTrunc s
  | .modfmt => Sys2Proof.Machine.execModfmt s
  | .gen => Sys2Proof.Machine.execGen s
  | .cmp => Sys2Proof.Machine.execCmp s
  | .validate => Sys2Proof.Machine.execValidate s
  | .tdiv => Sys2Proof.Machine.execTdiv s
  | .probeStart => Sys2Proof.Machine.execProbeStart s
  | .probeStep => Sys2Proof.Machine.execProbeStep s
  | .probeClear => Sys2Proof.Machine.execProbeClear s
  | .srst => Sys2Proof.Machine.execSrst s

end Sys2Proof.Machine
end

