-- ==== Sys2Proof/Machine/Sequencer.lean ====
section
/-! DEFINITION. The block sequencer: the completion step, and what each event does (spec/40_command_cycle.md R65, R70,
R74). -/

namespace Sys2Proof.Machine

/-- The completion step is enabled only when `busy = 1` (R65), and not while reset is asserted, when a pending
command is discarded (R115). -/
def completionEnabled (s : State) : Bool := s.busy && !s.rst

/-- The completion step (R70): the pending command is applied; an illegal word completes with ILLEGAL_CMD (R75). -/
def runPending (s : State) : Host.Outcome State Fault Refusal :=
  match decode s.pendOp with
  | .ok i => exec i s
  | .error _ => completeIllegal s

/-- The completion step if it is enabled; otherwise nothing happens (R65, R114; log 15). -/
def completionStep (s : State) : Host.Outcome State Fault Refusal :=
  if completionEnabled s then runPending s else .next s

/-- What an event does to the block (R65, R115). -/
def handle (e : Event) (s : State) : Host.Outcome State Fault Refusal :=
  match e with
  | .read off lanes => hostRead s off lanes
  | .write off lanes v => hostWrite s off lanes v
  | .completion => completionStep s
  | .resetPin level => .next (setResetPin s level)

end Sys2Proof.Machine
end

