-- ==== Sys2Proof/Machine/Step.lean ====
section
/-! DEFINITION. One step of the block (spec/40_command_cycle.md R65), and the placing of a command so that the next
step runs it. -/

namespace Sys2Proof.Machine

/-- One step: the oldest event of the inbox happens. With no event left, a pending command completes (R74: "once
busy = 1, completion happens after finitely many other steps"), and an idle block keeps its state (R114). -/
def step (s : State) : Host.Outcome State Fault Refusal :=
  match s.inbox with
  | [] => completionStep s
  | e :: rest => handle e (s.withInbox rest)

/-- The state in which the command word `w` has been accepted (R66) and the completion step comes next: the block has
no fetch, and its pending command is what it runs next (log 2). -/
def State.withFetchWord (s : State) (nbits w : Nat) : State :=
  { s with pendOp := tableWord nbits w, busy := true, rst := false, inbox := .completion :: s.inbox }

end Sys2Proof.Machine
end

