-- ==== Sys2Proof/Machine/HostProgram.lean ====
section
/-! DEFINITION. The notation of host programs and its pseudo-instructions, each a list of events
(spec/30_encoding.md R62 to R64). -/

namespace Sys2Proof.Machine

/-- `WR off, val` and `RD off` (R62): aligned 32-bit accesses. -/
def wr (off : Nat) (v : Word) : Event := .write off 0xF#4 v
def rd (off : Nat) : Event := .read off 0xF#4

/-- `CMD m` (R63): `WR 0x00C, OP(m)`. `cmdWord` writes any word. -/
def cmdWord (w : Word) : List Event := [wr 0x00C w]
def cmd (i : Instr) : List Event := cmdWord (encode i)

/-- `POLL` (R62) of `n` reads of STATUS. -/
def poll (n : Nat) : List Event := List.replicate n (rd 0x008)

/-- `RUN m` (R63): `CMD m`, then `POLL`, whose first `n` reads find BUSY = 1 and whose last finds it 0. The completion
step falls between them; its place is open (R65), so `n` is an argument. -/
def runWord (w : Word) (n : Nat) : List Event := cmdWord w ++ poll n ++ [.completion] ++ poll 1
def run (i : Instr) (n : Nat) : List Event := runWord (encode i) n

/-- Word `k` of a byte string in bus byte-lane order, missing bytes 0x00 (R63). -/
def packBytes (b : List Byte) (k : Nat) : Word :=
  b.getD (4 * k + 3) 0 ++ b.getD (4 * k + 2) 0 ++ b.getD (4 * k + 1) 0 ++ b.getD (4 * k) 0

/-- `LDDIG hexstring` (R63): ceil(n/4) words from DIGEST0 on. -/
def lddig (b : List Byte) : List Event :=
  (List.range ((b.length + 3) / 4)).map fun k => wr (0x100 + 4 * k) (packBytes b k)

/-- `LDCAND "text"` (R63): four words of CAND, then CAND_LEN. -/
def ldcand (text : List Byte) : List Event :=
  ((List.range 4).map fun k => wr (0x080 + 4 * k) (packBytes text k)) ++ [wr 0x070 (BitVec.ofNat 32 text.length)]

/-- `LDCTR v` and `LDTIME v` (R63). -/
def ldctr (v : Word64) : List Event := [wr 0x030 (loHalf v), wr 0x034 (hiHalf v)]
def ldtime (v : Word64) : List Event := [wr 0x020 (loHalf v), wr 0x024 (hiHalf v)]

/-- `CFG alg, d, s` (R63): `WR 0x004, (s << 8) | (d << 4) | alg`. -/
def cfg (alg d s : Word) : List Event := [wr 0x004 ((s <<< 8) ||| (d <<< 4) ||| alg)]

end Sys2Proof.Machine
end

