-- ==== Sys2Proof/Safety.lean ====
section
/-! DEFINITION. The terms claims about OTPDT are stated in: safe inputs, frames, completion, the invariant, the
arithmetic of the rules on natural numbers, and what each command reads. None of them is used by the machine. -/

namespace Sys2Proof.Machine

/-! ## Safe inputs -/

/-- The event is no host access outside the window (R49). -/
def Event.inWindow (e : Event) : Prop :=
  match e with
  | .read off _ => off < 0x200
  | .write off _ _ => off < 0x200
  | .completion => True
  | .resetPin _ => True

/-- The event is a host access (R65: a host read or a host write). -/
def Event.isAccess (e : Event) : Prop :=
  match e with
  | .read _ _ => True
  | .write _ _ _ => True
  | .completion => False
  | .resetPin _ => False

/-- The event is no change of the reset pin. -/
def Event.isNoReset (e : Event) : Prop :=
  match e with
  | .resetPin _ => False
  | .read _ _ => True
  | .write _ _ _ => True
  | .completion => True

/-- Every access still to come is inside the window. -/
def SafeInputs (s : State) : Prop := ∀ e ∈ s.inbox, e.inWindow

/-- `n` steps, one after another, up to the first stop. -/
def steps (n : Nat) (s : State) : Host.Outcome State Fault Refusal :=
  match n with
  | 0 => .next s
  | n + 1 =>
    match step s with
    | .next t => steps n t
    | .fault r => .fault r
    | .refused r => .refused r

/-! ## Frames and completion -/

/-- Outside the registers `w`, STATUS and INT_STATUS, no register changes from `s` to `t`, and neither does OVR, the
reset input or anything of the model's own. STATUS and INT_STATUS.DONE are stated field by field beside it; the latched
word, which R40 leaves unspecified once BUSY is 0, is no part of it. -/
structure Keeps (w : Reg → Bool) (s t : State) : Prop where
  regs : ∀ r, w r = false → r ≠ .status → r ≠ .intStatus → readReg t r = readReg s r
  ovr : t.ovr = s.ovr
  rst : t.rst = s.rst
  inbox : t.inbox = s.inbox
  busOut : t.busOut = s.busOut
  draws : t.draws = s.draws

/-- What every completion leaves (R70): the error code, `busy = 0`, DONE = 1. -/
structure Ends (t : State) (e : ErrCode) : Prop where
  err : t.err = e
  busy : t.busy = false
  done : t.done = true

/-- W(op) of R71, its registers, as the rule's table lists them; `none` is an illegal word. The STATUS fields are the two
functions after it and ERR, which is in every row. CMD is in SRST's row (log 6). -/
def writeSet (op : Option Instr) (r : Reg) : Bool :=
  match op with
  | none => false
  | some .trunc => r == .truncOff || r == .truncVal
  | some .modfmt => isCodeReg r
  | some .gen => r == .truncOff || r == .truncVal || isCodeReg r
  | some .cmp => false
  | some .validate => r == .truncOff || r == .truncVal || isCodeReg r
  | some .tdiv => r == .counterLo || r == .counterHi || r == .ctrBe0 || r == .ctrBe1
  | some .probeStart => r == .probeBaseLo || r == .probeBaseHi || r == .probeIdx || r == .counterLo || r == .counterHi
      || r == .ctrBe0 || r == .ctrBe1
  | some .probeStep => r == .truncOff || r == .truncVal || isCodeReg r || r == .probeIdx
      || r == .counterLo || r == .counterHi || r == .ctrBe0 || r == .ctrBe1
  | some .probeClear => r == .probeBaseLo || r == .probeBaseHi || r == .probeIdx
  | some .srst => r != .id && r != .intStatus && r != .intEnable && r != .status

/-- STATUS.MATCH is in W(op) (R71). -/
def matchInWriteSet (op : Option Instr) : Bool :=
  op == some .cmp || op == some .validate || op == some .probeStart || op == some .probeStep || op == some .srst

/-- STATUS.PSTATE is in W(op) (R71). -/
def pstateInWriteSet (op : Option Instr) : Bool :=
  op == some .probeStart || op == some .probeStep || op == some .probeClear || op == some .srst

/-- MATCH and PSTATE are unchanged. -/
def KeepsMatchPState (s t : State) : Prop := t.matched = s.matched ∧ t.pstate = s.pstate

/-- Every register reads the same, the STATUS and INT_STATUS words among them, a pending command stays the pending
one (R40 leaves the latched word unspecified while idle), and the reset state is the same. -/
def SameBlock (s t : State) : Prop :=
  (∀ r, readReg t r = readReg s r) ∧ (s.busy = true → t.pendOp = s.pendOp) ∧ t.rst = s.rst

/-! ## What comes next -/

/-- No command is pending and reset is not asserted. -/
def Idle (s : State) : Prop := s.busy = false ∧ s.rst = false

/-- The completion step of a pending command comes next (R70, R74), and `rest` is what comes after it. -/
structure CompletionNext (s : State) (rest : List Event) : Prop where
  busy : s.busy = true
  rst : s.rst = false
  next : s.inbox = .completion :: rest ∨ s.inbox = [] ∧ rest = []

/-- `MemRead(off, 4)` comes next and reaches the block. -/
def ReadNext (s : State) (off : Nat) (rest : List Event) : Prop :=
  s.inbox = .read off 0xF#4 :: rest ∧ s.rst = false

/-- `MemWrite(off, 4, v)` comes next and reaches the block. -/
def WriteNext (s : State) (off : Nat) (v : Word) (rest : List Event) : Prop :=
  s.inbox = .write off 0xF#4 v :: rest ∧ s.rst = false

/-- Every register outside `w` reads the same, the STATUS and INT_STATUS words among them. -/
def SameRegsBut (w : Reg → Prop) (s t : State) : Prop := ∀ r, ¬ w r → readReg t r = readReg s r

/-- The operand registers of R68. -/
def OperandRegister (r : Reg) : Prop :=
  r = .ctrl ∨ r = .timeLo ∨ r = .timeHi ∨ r = .period ∨ r = .counterLo ∨ r = .counterHi ∨ r = .candLen
    ∨ (∃ k, r = .cand k) ∨ ∃ k, r = .digest k

/-- The RO registers of R14. -/
def ReadOnlyRegister (r : Reg) : Prop :=
  r = .id ∨ r = .status ∨ r = .ctrBe0 ∨ r = .ctrBe1 ∨ r = .probeBaseLo ∨ r = .probeBaseHi ∨ r = .probeIdx
    ∨ r = .truncOff ∨ r = .truncVal ∨ r = .result ∨ r = .codeLen ∨ ∃ k, r = .code k

/-! ## The arithmetic of the rules, on natural numbers -/

/-- `d`, the digit count (R19). -/
def digitsNat (s : State) : Nat := s.digits.toNat

/-- `digits_ok(d)` (R19): `(1 <= d) and (d <= 9)`. -/
def DigitsLegal (s : State) : Prop := 1 ≤ digitsNat s ∧ digitsNat s ≤ 9

/-- `DIGEST[L-1] & 0x0F` (R77). -/
def offsetNat (s : State) : Nat := (byteAt s.digest (digestLen s.alg - 1)).toNat % 16

/-- The truncation reads past the digest (R77): "It fires for MD5 (L = 16) exactly when off is 13, 14 or 15". -/
def PastDigest (s : State) : Prop := s.alg = .md5 ∧ 13 ≤ offsetNat s

/-- The 31-bit value of R77: four bytes, big-endian, the first masked to 7 bits. -/
def valueNat (s : State) : Nat :=
  ((byteAt s.digest (offsetNat s)).toNat % 128) * 2 ^ 24 + (byteAt s.digest (offsetNat s + 1)).toNat * 2 ^ 16
    + (byteAt s.digest (offsetNat s + 2)).toNat * 2 ^ 8 + (byteAt s.digest (offsetNat s + 3)).toNat

/-- RESULT, CODE_LEN and CODE hold the `d`-digit code of the value `v` (R78): `r = v % 10^d`, and character `i` is
`0x30 + ((r // 10^(d-1-i)) % 10)` for `i < d`, else 0x00. -/
structure CodeIs (t : State) (v d : Nat) : Prop where
  result : (readReg t .result).toNat = v % 10 ^ d
  codeLen : (readReg t .codeLen).toNat = d
  chars : ∀ i < 16, (byteAt t.code i).toNat = if i < d then 0x30 + (v % 10 ^ d) / 10 ^ (d - 1 - i) % 10 else 0

/-- TRUNC_OFF and TRUNC_VAL hold an offset and a value. -/
def TruncIs (t : State) (off v : Nat) : Prop :=
  (readReg t .truncOff).toNat = off ∧ (readReg t .truncVal).toNat = v

/-- CAND_LEN is `d`, as a full 32-bit value (R37, R87). -/
def CandLenIsDigits (s : State) : Prop := s.candLen.toNat = digitsNat s

/-- The first `d` bytes of CAND are those of a code buffer (R85). -/
def CandEquals (s : State) (c : Vector Byte 16) (d : Nat) : Prop := ∀ i < d, byteAt s.cand i = byteAt c i

/-- The error a command ends in: the first, in the order of R102, of those that apply to it (R101). -/
def firstError (i : Instr) (s : State) : ErrCode :=
  let usesDigits : Bool := match i with
    | .modfmt | .gen | .cmp | .validate | .probeStep => true
    | .trunc | .tdiv | .probeStart | .probeClear | .srst => false
  let usesCand : Bool := match i with
    | .cmp | .validate | .probeStep => true
    | .trunc | .modfmt | .gen | .tdiv | .probeStart | .probeClear | .srst => false
  let truncates : Bool := match i with
    | .trunc | .gen | .validate | .probeStep => true
    | .modfmt | .cmp | .tdiv | .probeStart | .probeClear | .srst => false
  if i = .probeStep ∧ s.pstate ≠ .active then .probeState
  else if usesDigits ∧ (digitsNat s = 0 ∨ 10 ≤ digitsNat s) then .invalidDigits
  else if usesCand ∧ s.candLen.toNat ≠ digitsNat s then .invalidInputLength
  else if i = .cmp ∧ s.codeLen ≠ s.digits then .codeStale
  else if truncates ∧ s.alg = .md5 ∧ 13 ≤ offsetNat s then .truncRange
  else .none

/-! ## What each command reads (R61) -/

/-- ALG and the digest bytes below L agree. -/
def SameDigest (s t : State) : Prop :=
  s.alg = t.alg ∧ ∀ k < digestLen s.alg, byteAt s.digest k = byteAt t.digest k

/-- DIGITS, CAND_LEN and the candidate bytes below d agree. -/
def SameCand (s t : State) : Prop :=
  s.digits = t.digits ∧ s.candLen = t.candLen ∧ ∀ k < digitsNat s, byteAt s.cand k = byteAt t.cand k

/-- Two states agree on everything R61 says the command reads. -/
def AgreeOnReads (i : Instr) (s t : State) : Prop :=
  match i with
  | .trunc => SameDigest s t
  | .modfmt => s.digits = t.digits ∧ s.truncVal = t.truncVal
  | .gen => SameDigest s t ∧ s.digits = t.digits
  | .cmp => SameCand s t ∧ s.codeLen = t.codeLen ∧ ∀ k < digitsNat s, byteAt s.code k = byteAt t.code k
  | .validate => SameDigest s t ∧ SameCand s t
  | .tdiv => s.time = t.time ∧ s.period = t.period
  | .probeStart => s.counter = t.counter ∧ s.skew = t.skew
  | .probeStep =>
    s.pstate = t.pstate ∧ s.probeBase = t.probeBase ∧ s.pidx = t.pidx ∧ s.pskew = t.pskew
      ∧ SameDigest s t ∧ SameCand s t
  | .probeClear => True
  | .srst => True

/-! ## The invariant -/

/-- What every reachable state satisfies: CODE is the CODE_LEN-digit decimal form of RESULT (R34 to R36, R78), the
probe index stays in its scan (R31, R95), a MISS has tried the last counter (R22, R94), and an IDLE block holds no scan
(R93, R97). -/
structure Inv (s : State) : Prop where
  codeLen_le : s.codeLen.toNat ≤ 9
  result_lt : s.result.toNat < 10 ^ s.codeLen.toNat
  code_text : ∀ i < 16, (byteAt s.code i).toNat =
    if i < s.codeLen.toNat then 0x30 + s.result.toNat / 10 ^ (s.codeLen.toNat - 1 - i) % 10 else 0
  pidx_le : s.pidx.toNat ≤ 2 * s.pskew.toNat
  miss_last : s.pstate = .miss → s.pidx.toNat = 2 * s.pskew.toNat
  idle_clear : s.pstate = .idle → s.probeBase = 0 ∧ s.pidx = 0 ∧ s.pskew = 0

/-! ## A probe scan -/

/-- `n` PROBE_STEPs of one scan (R94 to R96): `σ k` is the state in which step `k` completes and `τ k` the state it
leaves. Between two steps the host may do anything (hash, write DIGEST, even rewrite COUNTER or CAND) that leaves
PSTATE, PROBE_BASE, PIDX and PSKEW alone. -/
structure ScanSteps (n : Nat) (σ τ : Nat → State) : Prop where
  steps : ∀ k < n, (σ k).pstate = .active ∧ exec .probeStep (σ k) = .next (τ k)
  between : ∀ k, k + 1 < n → (σ (k + 1)).pstate = (τ k).pstate ∧ (σ (k + 1)).probeBase = (τ k).probeBase
    ∧ (σ (k + 1)).pidx = (τ k).pidx ∧ (σ (k + 1)).pskew = (τ k).pskew

/-! ## Reserved bits -/

/-- The reserved bits of a register (R15, R17, R21, R24, R25, R31 to R35), 1 where the bit is reserved. -/
def reservedBits (r : Reg) : Word :=
  match r with
  | .ctrl => 0xFFFF000C#32
  | .status => 0xFFFFF80C#32
  | .intStatus => 0xFFFFFFFC#32
  | .intEnable => 0xFFFFFFFC#32
  | .probeIdx => 0xFF00FC00#32
  | .truncOff => 0xFFFFFFF0#32
  | .truncVal => 0x80000000#32
  | .result => 0xC0000000#32
  | .codeLen => 0xFFFFFFF0#32
  | .id | .cmd | .timeLo | .timeHi | .period | .counterLo | .counterHi | .ctrBe0 | .ctrBe1 | .probeBaseLo => 0
  | .probeBaseHi | .candLen | .code _ | .cand _ | .digest _ => 0

/-- The reserved offsets listed in R49. -/
def ReservedOffset (off : Nat) : Prop :=
  off % 4 = 0 ∧ (off = 0x018 ∨ off = 0x01C ∨ off = 0x02C ∨ off = 0x04C ∨ (0x074 ≤ off ∧ off ≤ 0x07C)
    ∨ (0x090 ≤ off ∧ off ≤ 0x0FC) ∨ (0x140 ≤ off ∧ off ≤ 0x1FC))

end Sys2Proof.Machine
end

