-- ==== Sys2Proof/Certificates/Slice0/Obligations.lean ====
section
/-! DEFINITION. The statements about OTPDT for the provers, each from the numbered rules of spec/. -/

open Sys2Proof Sys2Proof.Machine

/-! ## Encoding -/

/-- R59: the ten words of the opcode map, written out, and two that are illegal though near it (R60, R75). -/
def Obligations.OpcodeMapWords : Prop :=
  decode 0b00000000000000000000000000000001#32 = .ok .trunc
    ∧ decode 0b00000000000000000000000000000010#32 = .ok .modfmt
    ∧ decode 0b00000000000000000000000000000011#32 = .ok .gen
    ∧ decode 0b00000000000000000000000000000100#32 = .ok .cmp
    ∧ decode 0b00000000000000000000000000000101#32 = .ok .validate
    ∧ decode 0b00000000000000000000000000000110#32 = .ok .tdiv
    ∧ decode 0b00000000000000000000000000000111#32 = .ok .probeStart
    ∧ decode 0b00000000000000000000000000001000#32 = .ok .probeStep
    ∧ decode 0b00000000000000000000000000001001#32 = .ok .probeClear
    ∧ decode 0b00000000000000000000000000001010#32 = .ok .srst
    ∧ decode 0x00000103#32 = .error .reservedBits
    ∧ decode 0x00000000#32 = .error .reservedOpcode

/-- Over every 32-bit word: a word decodes to a command exactly when it is the command's encoding, so that each command
has one word and each legal word one command (R57, R59). -/
def Obligations.DecodeAndEncodeAgree : Prop :=
  ∀ (w : Word) (i : Instr), decode w = .ok i ↔ w = encode i

/-- R58, R75: which words are legal; an illegal word completes with ILLEGAL_CMD and no other effect; and a write to
CMD while idle is accepted whether its word is legal or not. -/
def Obligations.IllegalWordsCompleteWithIllegalCmd : Prop :=
  (∀ w : Word, (∃ i, decode w = .ok i) ↔
      w.toNat / 256 = 0 ∧ 1 ≤ w.toNat % 256 ∧ w.toNat % 256 ≤ 0x0A)
    ∧ (∀ (s : State) (rest : List Event), CompletionNext s rest →
        (s.pendOp.toNat / 256 ≠ 0 ∨ s.pendOp.toNat % 256 = 0 ∨ 0x0B ≤ s.pendOp.toNat % 256) →
        ∃ t, step s = .next t ∧ Ends t .illegalCmd ∧ KeepsMatchPState s t
          ∧ Keeps (fun _ => false) (s.withInbox rest) t)
    ∧ ∀ (s : State) (w : Word) (rest : List Event), WriteNext s 0x00C w rest → s.busy = false →
        ∃ t, step s = .next t ∧ t.busy = true ∧ t.pendOp = w

/-! ## The command cycle -/

/-- When the completion step comes next and the pending word decodes to a command, the step is `exec` of that command
in the state with the event taken off the inbox (R70). -/
def Obligations.StepRunsTheDecodedCommand : Prop :=
  ∀ (s : State) (rest : List Event) (i : Instr), CompletionNext s rest → decode s.pendOp = .ok i →
    step s = exec i (s.withInbox rest)

/-- A command's word placed by `withFetchWord` is run by the very next step, from every state. -/
def Obligations.FetchWordRunsNext : Prop :=
  ∀ (s : State) (i : Instr), step (s.withFetchWord 32 (encode i).toNat) =
    exec i { s with pendOp := encode i, busy := true, rst := false }

/-- R66: acceptance latches the word and sets BUSY; nothing else changes. -/
def Obligations.AcceptanceLatchesTheWord : Prop :=
  ∀ (s : State) (w : Word) (rest : List Event), WriteNext s 0x00C w rest → s.busy = false →
    ∃ t, step s = .next t ∧ t.pendOp = w ∧ t.busy = true ∧ KeepsMatchPState s t ∧ t.err = s.err
      ∧ SameRegsBut (· = .status) s t ∧ t.rst = false ∧ t.inbox = rest ∧ t.busOut = .writeOkay

/-- R67: a write to CMD while BUSY is dropped, and the only effect on the block is OVR. -/
def Obligations.BusyCommandWriteIsDropped : Prop :=
  ∀ (s : State) (w : Word) (rest : List Event), WriteNext s 0x00C w rest → s.busy = true →
    ∃ t, step s = .next t ∧ t.pendOp = s.pendOp ∧ t.busy = true ∧ t.ovr = true ∧ t.done = s.done
      ∧ SameRegsBut (· = .intStatus) s t ∧ t.rst = false ∧ t.inbox = rest ∧ t.busOut = .writeOkay

/-- R68: a write to an operand register while BUSY is dropped: the register keeps its value, and the only effect on the
block is OVR. -/
def Obligations.BusyOperandWriteIsDropped : Prop :=
  ∀ (s : State) (r : Reg) (v : Word) (rest : List Event), OperandRegister r →
    WriteNext s (regOffset r) v rest → s.busy = true →
    ∃ t, step s = .next t ∧ t.ovr = true ∧ t.done = s.done ∧ t.pendOp = s.pendOp
      ∧ SameRegsBut (· = .intStatus) s t ∧ t.rst = false ∧ t.inbox = rest ∧ t.busOut = .writeOkay

/-- R69, R15, R24: while BUSY as while idle, INT_STATUS is W1C and INT_ENABLE stores; a write to an RO register or a
reserved offset is ignored, "as at any time", and does not set OVR. A pending command stays the pending one. -/
def Obligations.BusyWritesThatAreNotDropped : Prop :=
  ∀ (s : State) (v : Word) (rest : List Event),
    (WriteNext s 0x010 v rest → ∃ t, step s = .next t ∧ t.done = (s.done && !v.getLsbD 0)
        ∧ t.ovr = (s.ovr && !v.getLsbD 1) ∧ SameRegsBut (· = .intStatus) s t
        ∧ (s.busy = true → t.pendOp = s.pendOp))
      ∧ (WriteNext s 0x014 v rest → ∃ t, step s = .next t ∧ t.doneEn = v.getLsbD 0 ∧ t.ovrEn = v.getLsbD 1
        ∧ SameRegsBut (· = .intEnable) s t ∧ (s.busy = true → t.pendOp = s.pendOp))
      ∧ (∀ r, ReadOnlyRegister r → WriteNext s (regOffset r) v rest → ∃ t, step s = .next t ∧ SameBlock s t)
      ∧ (∀ off, ReservedOffset off → WriteNext s off v rest → ∃ t, step s = .next t ∧ SameBlock s t)

/-- R71, the table of W(op), which `writeSet` writes out: every command completes, and writes only the registers and
STATUS fields of its row; OVR, INT_ENABLE and the reset input are left. BUSY and DONE are the completion's (R70), and the
latched word is not spoken of (log 5). -/
def Obligations.CommandsWriteOnlyTheirWriteSet : Prop :=
  ∀ (i : Instr) (s : State), ∃ t, exec i s = .next t ∧ Keeps (writeSet (some i)) s t
    ∧ (t.matched = s.matched ∨ matchInWriteSet (some i) = true)
    ∧ (t.pstate = s.pstate ∨ pstateInWriteSet (some i) = true)

/-- A completion, of a command or of an illegal word, leaves the latched word as it was. R40 and R116 leave pend_op
unspecified while `busy = 0`: that it stays is the model's choice (DESIGN CHOICE, log 5), through SRST too. -/
def Obligations.LatchedWordStaysAfterCompletion : Prop :=
  (∀ (i : Instr) (s t : State), exec i s = .next t → t.pendOp = s.pendOp)
    ∧ ∀ (s : State) (rest : List Event), CompletionNext s rest →
        ∃ t, step s = .next t ∧ t.pendOp = s.pendOp ∧ t.busy = false

/-- R71, reads while BUSY: a register outside W(pend_op) reads its exact value; one in it reads a fresh free value; STATUS
reads BUSY = 1 exactly, its reserved bits 0, ERR drawn, and MATCH and PSTATE exactly where W(pend_op) does not hold
them. The read changes nothing of the block. Three things here are the model's: one read draws once, so that the drawn
STATUS fields are bits of one word (DESIGN CHOICE, log 4); a drawn register is drawn in all 32 bits, reserved ones too
(DEDUCED, log 12); and CMD, which is in W(SRST) by R71's letter, is drawn while SRST is pending (DEDUCED, log 6). -/
def Obligations.BusyReadsAreExactOutsideTheWriteSet : Prop :=
  ∀ (s : State) (r : Reg) (rest : List Event), ReadNext s (regOffset r) rest → s.busy = true →
    ∃ t d, step s = .next t ∧ SameBlock s t ∧ t.inbox = rest ∧ t.busOut = .readOkay d
      ∧ (r ≠ .status → writeSet (commandOf s.pendOp) r = false → d = readReg s r ∧ t.draws = s.draws)
      ∧ (r ≠ .status → writeSet (commandOf s.pendOp) r = true → d = Config.draw s.draws ∧ t.draws = s.draws + 1)
      ∧ (r = .status → t.draws = s.draws + 1 ∧ d.getLsbD 0 = true ∧ d &&& 0xFFFFF80C#32 = 0
          ∧ d.extractLsb' 4 4 = (Config.draw s.draws).extractLsb' 4 4
          ∧ (matchInWriteSet (commandOf s.pendOp) = false → d.getLsbD 1 = s.matched)
          ∧ (matchInWriteSet (commandOf s.pendOp) = true → d.getLsbD 1 = (Config.draw s.draws).getLsbD 1)
          ∧ (pstateInWriteSet (commandOf s.pendOp) = false → d.extractLsb' 8 3 = s.pstate.bits)
          ∧ (pstateInWriteSet (commandOf s.pendOp) = true →
              d.extractLsb' 8 3 = (Config.draw s.draws).extractLsb' 8 3))

/-- R72: what a command that raises an error writes. -/
def Obligations.ErrorsWriteNoDataRegister : Prop :=
  ∀ (i : Instr) (s t : State), exec i s = .next t → t.err ≠ .none →
    Keeps (fun _ => false) s t
      ∧ t.matched = (if (i = .cmp ∨ i = .validate ∨ i = .probeStep) ∧ t.err ≠ .probeState then false else s.matched)
      ∧ t.pstate = (if i = .probeStep ∧ t.err ≠ .probeState then .aborted else s.pstate)

/-- R102, R101: every command completes, and with the first error, in the order of R102, of those that apply to it; an
illegal word completes with ILLEGAL_CMD in every state. -/
def Obligations.ErrorPriority : Prop :=
  (∀ (i : Instr) (s : State), ∃ t, exec i s = .next t ∧ Ends t (firstError i s))
    ∧ ∀ (s : State) (rest : List Event) (e : DecodeError), CompletionNext s rest → decode s.pendOp = .error e →
        ∃ t, step s = .next t ∧ Ends t .illegalCmd

/-- R73: host accesses that land between acceptance and completion do not change what the command does. -/
def Obligations.OperandsAreStableWhileBusy : Prop :=
  ∀ (s : State) (es rest : List Event), s.busy = true → s.rst = false → s.inbox = es ++ .completion :: rest →
    (∀ e ∈ es, e.isAccess ∧ e.inWindow) →
    ∃ t u v, steps es.length s = .next t ∧ t.busy = true ∧ t.pendOp = s.pendOp
      ∧ t.inbox = .completion :: rest ∧ SameRegsBut (fun r => r = .intStatus ∨ r = .intEnable) s t
      ∧ step t = .next u ∧ runPending s = .next v
      ∧ SameRegsBut (fun r => r = .intStatus ∨ r = .intEnable) v u

/-- R74: once BUSY, the completion step happens after finitely many other steps, and the pending command is the one it
applies, whatever the host does meanwhile inside the window and as long as reset is not asserted. -/
def Obligations.PendingCommandCompletes : Prop :=
  ∀ s : State, s.busy = true → s.rst = false → SafeInputs s → (∀ e ∈ s.inbox, e.isNoReset) →
    ∃ k t rest u, k ≤ s.inbox.length ∧ steps k s = .next t ∧ CompletionNext t rest
      ∧ t.pendOp = s.pendOp ∧ step t = .next u ∧ u.busy = false ∧ u.done = true

/-- R114: idle and with no event to come, the block keeps its state. -/
def Obligations.IdleBlockKeepsItsState : Prop :=
  ∀ s : State, s.busy = false → s.inbox = [] → step s = .next s

/-- The machine stops only on an access outside the window (R49: "The platform decides what they do"; the stop is the
model's choice, log 8): from safe inputs every step answers a next state with safe inputs. -/
def Obligations.SafeInputsNeverStop : Prop :=
  ∀ s : State, SafeInputs s → ∃ t, step s = .next t ∧ SafeInputs t

/-- An access at offset 0x200 or above stops the machine (R49: "outside the block's window"; log 8). -/
def Obligations.OutsideWindowStops : Prop :=
  ∀ (s : State) (off : Nat) (lanes : BitVec 4) (v : Word) (rest : List Event), 0x200 ≤ off →
    (s.inbox = .read off lanes :: rest ∨ s.inbox = .write off lanes v :: rest) →
    step s = .fault .outsideWindow

/-! ## Truncation and formatting -/

/-- R77, R80: TRUNC writes the offset and the 31-bit value; on TRUNC_RANGE it writes ERR alone. -/
def Obligations.TruncWritesOffsetAndValue : Prop :=
  encode .trunc = 0x00000001#32 ∧ ∀ s : State,
    (¬ PastDigest s → ∃ t, exec .trunc s = .next t ∧ Ends t .none ∧ TruncIs t (offsetNat s) (valueNat s)
      ∧ KeepsMatchPState s t ∧ Keeps (fun r => r == .truncOff || r == .truncVal) s t)
    ∧ (PastDigest s → ∃ t, exec .trunc s = .next t ∧ Ends t .truncRange ∧ KeepsMatchPState s t
      ∧ Keeps (fun _ => false) s t)

/-- R77: the range check fires exactly for MD5 with offset 13, 14 or 15, that is when `off + 3 > L - 1`; otherwise `dt`
answers the offset and the 31-bit value, whose bit 31 is 0; and no byte but those four and the last affects it. -/
def Obligations.TruncRangeOnlyForMd5 : Prop :=
  ∀ s : State, (offsetNat s + 3 > digestLen s.alg - 1 ↔ s.alg = .md5 ∧
      (offsetNat s = 13 ∨ offsetNat s = 14 ∨ offsetNat s = 15))
    ∧ (offsetNat s + 3 > digestLen s.alg - 1 → dt s = .error .truncRange)
    ∧ (offsetNat s + 3 ≤ digestLen s.alg - 1 → ∃ off v, dt s = .ok (off, v) ∧ off.toNat = offsetNat s
        ∧ v.toNat = valueNat s ∧ valueNat s ≤ 0x7FFFFFFF)
    ∧ ∀ s' : State, s'.alg = s.alg → byteAt s'.digest (digestLen s.alg - 1) = byteAt s.digest (digestLen s.alg - 1) →
        (∀ k < 4, byteAt s'.digest (offsetNat s + k) = byteAt s.digest (offsetNat s + k)) → dt s' = dt s

/-- R78, R81: MODFMT writes RESULT, CODE_LEN and CODE from TRUNC_VAL; on INVALID_DIGITS it writes ERR alone. -/
def Obligations.ModfmtFormatsTruncVal : Prop :=
  encode .modfmt = 0x00000002#32 ∧ ∀ s : State,
    (DigitsLegal s → ∃ t, exec .modfmt s = .next t ∧ Ends t .none ∧ CodeIs t s.truncVal.toNat (digitsNat s)
      ∧ KeepsMatchPState s t ∧ Keeps (fun r => isCodeReg r) s t)
    ∧ (¬ DigitsLegal s → ∃ t, exec .modfmt s = .next t ∧ Ends t .invalidDigits ∧ KeepsMatchPState s t
      ∧ Keeps (fun _ => false) s t)

/-- R78, R79: read as a decimal number, the code bytes MODFMT leaves are RESULT, so no digit is dropped. -/
def Obligations.CodeReadsBackAsResult : Prop :=
  ∀ s t : State, DigitsLegal s → exec .modfmt s = .next t →
    (List.range (digitsNat s)).foldl (fun acc i => acc * 10 + ((byteAt t.code i).toNat - 0x30)) 0
      = (readReg t .result).toNat

/-- R82: GEN checks DIGITS, then the range, and writes TRUNC_OFF, TRUNC_VAL, RESULT, CODE_LEN and CODE together; on
either error nothing but ERR is written. -/
def Obligations.GenWritesTheCode : Prop :=
  encode .gen = 0x00000003#32 ∧ ∀ s : State,
    (DigitsLegal s → ¬ PastDigest s → ∃ t, exec .gen s = .next t ∧ Ends t .none
      ∧ TruncIs t (offsetNat s) (valueNat s) ∧ CodeIs t (valueNat s) (digitsNat s) ∧ KeepsMatchPState s t
      ∧ Keeps (fun r => r == .truncOff || r == .truncVal || isCodeReg r) s t)
    ∧ (¬ DigitsLegal s → ∃ t, exec .gen s = .next t ∧ Ends t .invalidDigits ∧ KeepsMatchPState s t
      ∧ Keeps (fun _ => false) s t)
    ∧ (DigitsLegal s → PastDigest s → ∃ t, exec .gen s = .next t ∧ Ends t .truncRange ∧ KeepsMatchPState s t
      ∧ Keeps (fun _ => false) s t)

/-- R83: GEN equals TRUNC followed by MODFMT whenever both succeed; with an illegal DIGITS, GEN writes nothing, but TRUNC
then MODFMT updates TRUNC_* and then fails. MODFMT's acceptance lies between the two completions. -/
def Obligations.GenEqualsTruncThenModfmt : Prop :=
  ∀ s : State, ¬ PastDigest s →
    (DigitsLegal s → ∃ g t u, exec .gen s = .next g ∧ exec .trunc s = .next t
      ∧ exec .modfmt (t.accept (encode .modfmt)) = .next u ∧ ∀ r, readReg u r = readReg g r)
    ∧ (¬ DigitsLegal s → ∃ g t u, exec .gen s = .next g ∧ Keeps (fun _ => false) s g ∧ g.err = .invalidDigits
      ∧ exec .trunc s = .next t ∧ exec .modfmt (t.accept (encode .modfmt)) = .next u
      ∧ TruncIs u (offsetNat s) (valueNat s) ∧ u.err = .invalidDigits
      ∧ ∀ r, r ≠ .truncOff → r ≠ .truncVal → readReg u r = readReg g r)

/-! ## Validation -/

/-- R85: `ct_eq` is 1 exactly when the first n bytes agree, its accumulator being the OR over every position. -/
def Obligations.CtEqComparesEveryPosition : Prop :=
  ∀ (a b : Vector Byte 16) (n : Nat),
    ctAcc a b n = (List.range n).foldl (fun acc i => acc ||| (byteAt a i ^^^ byteAt b i)) 0
      ∧ (ctEq a b n = true ↔ ∀ i < n, byteAt a i = byteAt b i)

/-- R87: CMP, its three errors in order, and the comparison with the stored code. -/
def Obligations.CmpComparesWithTheStoredCode : Prop :=
  encode .cmp = 0x00000004#32 ∧ ∀ s : State, ∃ t, exec .cmp s = .next t ∧ t.pstate = s.pstate
    ∧ Keeps (fun _ => false) s t
    ∧ (¬ DigitsLegal s → Ends t .invalidDigits ∧ t.matched = false)
    ∧ (DigitsLegal s → ¬ CandLenIsDigits s → Ends t .invalidInputLength ∧ t.matched = false)
    ∧ (DigitsLegal s → CandLenIsDigits s → s.codeLen.toNat ≠ digitsNat s → Ends t .codeStale ∧ t.matched = false)
    ∧ (DigitsLegal s → CandLenIsDigits s → s.codeLen.toNat = digitsNat s →
        Ends t .none ∧ (t.matched = true ↔ CandEquals s s.code (digitsNat s)))

/-- R88: VALIDATE on success writes the recomputed code and MATCH. -/
def Obligations.ValidateRecomputesAndCompares : Prop :=
  encode .validate = 0x00000005#32 ∧ ∀ s : State,
    (DigitsLegal s → CandLenIsDigits s → ¬ PastDigest s → ∃ t, exec .validate s = .next t ∧ Ends t .none
      ∧ TruncIs t (offsetNat s) (valueNat s) ∧ CodeIs t (valueNat s) (digitsNat s)
      ∧ (t.matched = true ↔ CandEquals s t.code (digitsNat s)) ∧ t.pstate = s.pstate
      ∧ Keeps (fun r => r == .truncOff || r == .truncVal || isCodeReg r) s t)
    ∧ (¬ DigitsLegal s → ∃ t, exec .validate s = .next t ∧ Ends t .invalidDigits ∧ t.matched = false
      ∧ t.pstate = s.pstate ∧ Keeps (fun _ => false) s t)
    ∧ (DigitsLegal s → ¬ CandLenIsDigits s → ∃ t, exec .validate s = .next t ∧ Ends t .invalidInputLength
      ∧ t.matched = false ∧ t.pstate = s.pstate ∧ Keeps (fun _ => false) s t)
    ∧ (DigitsLegal s → CandLenIsDigits s → PastDigest s → ∃ t, exec .validate s = .next t ∧ Ends t .truncRange
      ∧ t.matched = false ∧ t.pstate = s.pstate ∧ Keeps (fun _ => false) s t)

/-- R89 item 1: after GEN leaves CODE, copying CODE[0..d-1] into CAND with CAND_LEN = d makes VALIDATE on the same digest
match without error. The host's writes of CAND, CAND_LEN and CMD lie between. -/
def Obligations.GeneratedCodeValidates : Prop :=
  ∀ (s g : State) (c : Vector Byte 16) (n : Word), exec .gen s = .next g → g.err = .none →
    (∀ i < digitsNat g, byteAt c i = byteAt g.code i) → n.toNat = digitsNat g →
    ∃ t, exec .validate { g with cand := c, candLen := n, busy := true, pendOp := encode .validate } = .next t
      ∧ t.matched = true ∧ t.err = .none

/-- R89 items 2 and 3: with DIGITS legal, a candidate of another length gives MATCH = 0 and INVALID_INPUT_LENGTH from
CMP and VALIDATE, in every PSTATE, and from PROBE_STEP of an ACTIVE scan (R94 gives it PROBE_STATE elsewhere); a wrong
but well-formed code gives MATCH = 0 and no error. -/
def Obligations.WrongLengthIsNeverAMatch : Prop :=
  ∀ (i : Instr) (s : State), i = .cmp ∨ i = .validate ∨ i = .probeStep → DigitsLegal s →
    (i = .probeStep → s.pstate = .active) →
    (¬ CandLenIsDigits s → ∃ t, exec i s = .next t ∧ t.matched = false ∧ t.err = .invalidInputLength)
    ∧ (∀ t, exec i s = .next t → t.err = .none → ¬ CandEquals s t.code (digitsNat s) → t.matched = false)

/-! ## TOTP -/

/-- R90, R91: TDIV writes into COUNTER the floor of TIME over the effective period. -/
def Obligations.TdivDividesTimeByPeriod : Prop :=
  encode .tdiv = 0x00000006#32 ∧ ∀ s : State, ∃ t, exec .tdiv s = .next t ∧ Ends t .none
    ∧ t.counter.toNat = s.time.toNat / (if s.period.toNat = 0 then 30 else s.period.toNat)
    ∧ KeepsMatchPState s t ∧ Keeps isCounterReg s t

/-- R92: the order of the probes, and that indices 0..2s give each offset from -s to s exactly once. -/
def Obligations.ProbeOrderCoversTheWindow : Prop :=
  (probeOff 0 = 0 ∧ ∀ k : Nat, 1 ≤ k → probeOff (2 * k - 1) = k ∧ probeOff (2 * k) = -(k : Int))
    ∧ (∀ (s : Nat) (x : Int), -(s : Int) ≤ x ∧ x ≤ s ↔ ∃ i ≤ 2 * s, probeOff i = x)
    ∧ (∀ i j : Nat, probeOff i = probeOff j → i = j)
    ∧ ∀ (base : Word64) (i : Nat), ((probeCtr base i).toNat : Int) = (base.toNat + probeOff i) % 2 ^ 64

/-- R93: PROBE_START latches COUNTER and SKEW, in every PSTATE; COUNTER is unchanged. -/
def Obligations.ProbeStartLatchesTheWindow : Prop :=
  encode .probeStart = 0x00000007#32 ∧ ∀ s : State, ∃ t, exec .probeStart s = .next t ∧ Ends t .none
    ∧ t.probeBase = s.counter ∧ t.pidx = 0 ∧ t.pskew = s.skew ∧ t.counter = s.counter
    ∧ t.pstate = .active ∧ t.matched = false
    ∧ Keeps (fun r => isProbeBaseReg r || r == .probeIdx) s t

/-- R94: PROBE_STEP. PROBE_STATE writes ERR alone; the other three errors, in order, abort the scan; without an error the
recomputed code is written, and the scan hits, misses or goes on to the next counter. The index of a scan is at most
2*PSKEW in every state a run reaches (`Inv`). -/
def Obligations.ProbeStepDecidesOneCounter : Prop :=
  encode .probeStep = 0x00000008#32 ∧ ∀ s : State,
    (s.pstate ≠ .active → ∃ t, exec .probeStep s = .next t ∧ Ends t .probeState ∧ KeepsMatchPState s t
      ∧ Keeps (fun _ => false) s t)
    ∧ (s.pstate = .active → ¬ DigitsLegal s → ∃ t, exec .probeStep s = .next t ∧ Ends t .invalidDigits
      ∧ t.matched = false ∧ t.pstate = .aborted ∧ Keeps (fun _ => false) s t)
    ∧ (s.pstate = .active → DigitsLegal s → ¬ CandLenIsDigits s → ∃ t, exec .probeStep s = .next t
      ∧ Ends t .invalidInputLength ∧ t.matched = false ∧ t.pstate = .aborted ∧ Keeps (fun _ => false) s t)
    ∧ (s.pstate = .active → DigitsLegal s → CandLenIsDigits s → PastDigest s → ∃ t, exec .probeStep s = .next t
      ∧ Ends t .truncRange ∧ t.matched = false ∧ t.pstate = .aborted ∧ Keeps (fun _ => false) s t)
    ∧ (s.pstate = .active → DigitsLegal s → CandLenIsDigits s → ¬ PastDigest s →
      s.pidx.toNat ≤ 2 * s.pskew.toNat → ∃ t, exec .probeStep s = .next t ∧ Ends t .none
      ∧ TruncIs t (offsetNat s) (valueNat s) ∧ CodeIs t (valueNat s) (digitsNat s)
      ∧ t.probeBase = s.probeBase ∧ t.pskew = s.pskew
      ∧ Keeps (fun r => r == .truncOff || r == .truncVal || isCodeReg r || r == .probeIdx || isCounterReg r) s t
      ∧ (CandEquals s t.code (digitsNat s) →
          t.matched = true ∧ t.pstate = .hit ∧ t.pidx = s.pidx ∧ t.counter = s.counter)
      ∧ (¬ CandEquals s t.code (digitsNat s) → s.pidx.toNat = 2 * s.pskew.toNat →
          t.matched = false ∧ t.pstate = .miss ∧ t.pidx = s.pidx ∧ t.counter = s.counter)
      ∧ (¬ CandEquals s t.code (digitsNat s) → s.pidx.toNat ≠ 2 * s.pskew.toNat →
          t.matched = false ∧ t.pstate = .active ∧ t.pidx.toNat = s.pidx.toNat + 1
            ∧ ((t.counter.toNat : Int) = (s.probeBase.toNat + probeOff (s.pidx.toNat + 1)) % 2 ^ 64)))

/-- R95: after PROBE_START, at most 2*PSKEW + 1 PROBE_STEPs complete while the scan is ACTIVE; each ends the scan or
increments PIDX by exactly 1, and PIDX never passes 2*PSKEW. -/
def Obligations.ScanIsBounded : Prop :=
  ∀ (n : Nat) (a s : State) (σ τ : Nat → State), exec .probeStart a = .next s → ScanSteps n σ τ →
    (0 < n → (σ 0).pstate = s.pstate ∧ (σ 0).probeBase = s.probeBase ∧ (σ 0).pidx = s.pidx ∧ (σ 0).pskew = s.pskew) →
    n ≤ 2 * s.pskew.toNat + 1
      ∧ ∀ k < n, (τ k).pidx.toNat ≤ 2 * s.pskew.toNat
        ∧ ((τ k).pstate = .hit ∨ (τ k).pstate = .miss ∨ (τ k).pstate = .aborted
          ∨ (τ k).pstate = .active ∧ (τ k).pidx.toNat = (σ k).pidx.toNat + 1)

/-- R94, R96: in a scan of n steps without error, every step but the last mismatched, step k was made at index k, and
step k left in COUNTER the counter of index k+1 of R92's order; the last step ends in HIT exactly when its code equals
the candidate, in MISS when it mismatches at index 2*PSKEW, and goes on otherwise. -/
def Obligations.ScanFindsTheFirstMatch : Prop :=
  ∀ (n : Nat) (a s : State) (σ τ : Nat → State), exec .probeStart a = .next s → ScanSteps (n + 1) σ τ →
    (σ 0).pstate = s.pstate ∧ (σ 0).probeBase = s.probeBase ∧ (σ 0).pidx = s.pidx ∧ (σ 0).pskew = s.pskew →
    (∀ k ≤ n, (τ k).err = .none) →
    (∀ k < n, ¬ CandEquals (σ k) (τ k).code (digitsNat (σ k)) ∧ (τ k).counter = probeCtr a.counter (k + 1))
      ∧ (σ n).pidx.toNat = n
      ∧ (CandEquals (σ n) (τ n).code (digitsNat (σ n)) ↔ (τ n).pstate = .hit)
      ∧ (¬ CandEquals (σ n) (τ n).code (digitsNat (σ n)) →
          (τ n).pstate = if n = 2 * a.skew.toNat then .miss else .active)

/-- R97: PROBE_CLEAR returns the scan to IDLE in every PSTATE; MATCH and COUNTER are unchanged. -/
def Obligations.ProbeClearReturnsToIdle : Prop :=
  encode .probeClear = 0x00000009#32 ∧ ∀ s : State, ∃ t, exec .probeClear s = .next t ∧ Ends t .none
    ∧ t.probeBase = 0 ∧ t.pidx = 0 ∧ t.pskew = 0 ∧ t.pstate = .idle ∧ t.matched = s.matched
    ∧ Keeps (fun r => isProbeBaseReg r || r == .probeIdx) s t

/-- R98, the counters: with period 30 and skew 1, the counter of time t is among those a scan at t' probes when t' is
within 29 seconds of t, and is none of them when t' is t + 61 or t - 61. -/
def Obligations.SkewOneToleratesOneWindow : Prop :=
  ∀ s s' a a' : State, (s.period = 0 ∨ s.period = 30) → (s'.period = 0 ∨ s'.period = 30) →
    exec .tdiv s = .next a → exec .tdiv s' = .next a' →
    (s'.time.toNat ≤ s.time.toNat + 29 → s.time.toNat ≤ s'.time.toNat + 29 →
        ∃ i ≤ 2, probeCtr a'.counter i = a.counter)
    ∧ (s'.time.toNat = s.time.toNat + 61 ∨ s.time.toNat = s'.time.toNat + 61 →
        ∀ i ≤ 2, probeCtr a'.counter i ≠ a.counter)

/-! ## Reset -/

/-- R116: the value every register reads after power-on reset, and that no command is pending. -/
def Obligations.ResetValues : Prop :=
  (∀ r, readReg State.reset r = match r with
      | .id => 0x4F545031#32
      | .ctrl => 0x00000060#32
      | _ => 0)
    ∧ State.reset.busy = false ∧ State.reset.alg = .sha1 ∧ State.reset.digits = 6 ∧ State.reset.pstate = .idle

/-- R76, R117: SRST gives every register but INT_STATUS and INT_ENABLE its reset value and completes with DONE = 1 and
ERR = 0; OVR and INT_ENABLE are kept. -/
def Obligations.SoftResetKeepsInterruptRegisters : Prop :=
  encode .srst = 0x0000000A#32 ∧ ∀ s : State, ∃ t, exec .srst s = .next t ∧ Ends t .none
    ∧ (∀ r, r ≠ .intStatus → r ≠ .intEnable → readReg t r = readReg State.reset r)
    ∧ readReg t .intEnable = readReg s .intEnable ∧ t.ovr = s.ovr
    ∧ t.rst = s.rst ∧ t.inbox = s.inbox ∧ t.busOut = s.busOut ∧ t.draws = s.draws

/-- R115: while reset is asserted accesses are ignored and no completion happens; when it is released every register has
its reset value, and a pending command is discarded with no DONE and no ERR. It can be asserted at any time. That
registers keep their values until the release is the model's choice (log 7) and is not stated. -/
def Obligations.PowerOnResetDiscardsThePendingCommand : Prop :=
  (∀ (s : State) (rest : List Event), s.inbox = .resetPin Config.resetLevel :: rest →
      ∃ t, step s = .next t ∧ t.rst = true ∧ t.inbox = rest)
    ∧ (∀ (s : State) (e : Event) (rest : List Event), s.rst = true → s.inbox = e :: rest → e.isNoReset → e.inWindow →
        ∃ t, step s = .next t ∧ SameBlock s t ∧ t.inbox = rest)
    ∧ (∀ (s : State) (rest : List Event), s.rst = true → s.inbox = .resetPin (!Config.resetLevel) :: rest →
        ∃ t, step s = .next t ∧ t.rst = false ∧ t.busy = false ∧ t.done = false ∧ t.err = .none ∧ t.inbox = rest
          ∧ ∀ r, readReg t r = readReg State.reset r)

/-! ## The bus -/

/-- R16: ID reads its constant at all times, BUSY or not, and a write to it is ignored. -/
def Obligations.IdReadsItsConstant : Prop :=
  (∀ (s : State) (rest : List Event), ReadNext s 0x000 rest →
      ∃ t, step s = .next t ∧ t.busOut = .readOkay 0x4F545031#32 ∧ SameBlock s t)
    ∧ ∀ (s : State) (v : Word) (rest : List Event), WriteNext s 0x000 v rest → ∃ t, step s = .next t ∧ SameBlock s t

/-- R29: CTR_BE0 and CTR_BE1 show the counter's eight bytes, most significant first, in bus byte-lane order; so each is the
byte swap of a half of COUNTER. They follow COUNTER in every state. -/
def Obligations.CounterViewsAreBigEndian : Prop :=
  ∀ s : State,
    (∀ k < 4, ((readReg s .ctrBe0).extractLsb' (8 * k) 8).toNat = s.counter.toNat / 2 ^ (56 - 8 * k) % 256)
      ∧ (∀ k < 4, ((readReg s .ctrBe1).extractLsb' (8 * k) 8).toNat = s.counter.toNat / 2 ^ (24 - 8 * k) % 256)
      ∧ (∀ j < 4, (readReg s .ctrBe0).extractLsb' (8 * j) 8 = (readReg s .counterHi).extractLsb' (24 - 8 * j) 8)
      ∧ ∀ j < 4, (readReg s .ctrBe1).extractLsb' (8 * j) 8 = (readReg s .counterLo).extractLsb' (24 - 8 * j) 8

/-- R46: the buffer words carry their bytes in little-endian lanes, CTR_BE0 and CTR_BE1 those of the serialised counter; a
write of a CAND or DIGEST word while idle stores all four and no other byte. -/
def Obligations.BufferWordsAreLittleEndian : Prop :=
  (∀ (s : State) (j : Nat), j < 4 →
      (∀ k : Fin 16, (readReg s (.digest k)).extractLsb' (8 * j) 8 = byteAt s.digest (4 * k.val + j))
      ∧ (∀ k : Fin 4, (readReg s (.cand k)).extractLsb' (8 * j) 8 = byteAt s.cand (4 * k.val + j))
      ∧ (∀ k : Fin 4, (readReg s (.code k)).extractLsb' (8 * j) 8 = byteAt s.code (4 * k.val + j))
      ∧ (readReg s .ctrBe0).extractLsb' (8 * j) 8 = counterByte s.counter j
      ∧ (readReg s .ctrBe1).extractLsb' (8 * j) 8 = counterByte s.counter (4 + j))
    ∧ (∀ (s : State) (k : Fin 16) (v : Word) (rest : List Event), WriteNext s (0x100 + 4 * k.val) v rest →
        s.busy = false → ∃ t, step s = .next t ∧ SameRegsBut (· = .digest k) s t
          ∧ ∀ i < 64, byteAt t.digest i = if i / 4 = k.val then v.extractLsb' (8 * (i % 4)) 8 else byteAt s.digest i)
    ∧ ∀ (s : State) (k : Fin 4) (v : Word) (rest : List Event), WriteNext s (0x080 + 4 * k.val) v rest →
        s.busy = false → ∃ t, step s = .next t ∧ SameRegsBut (· = .cand k) s t
          ∧ ∀ i < 16, byteAt t.cand i = if i / 4 = k.val then v.extractLsb' (8 * (i % 4)) 8 else byteAt s.cand i

/-- R48, R103: an access that is narrower than 32 bits or misaligned is refused: an ERROR response, a free value for a
read, and no effect on any state. -/
def Obligations.RefusedAccessHasNoEffect : Prop :=
  ∀ (s : State) (off : Nat) (lanes : BitVec 4) (v : Word) (rest : List Event), s.rst = false → off < 0x200 →
    (lanes ≠ 0xF#4 ∨ off % 4 ≠ 0) →
    (s.inbox = .read off lanes :: rest → ∃ t, step s = .next t ∧ SameBlock s t ∧ t.inbox = rest
        ∧ t.busOut = .readError (Config.draw s.draws) ∧ t.draws = s.draws + 1)
      ∧ (s.inbox = .write off lanes v :: rest → ∃ t, step s = .next t ∧ SameBlock s t ∧ t.inbox = rest
        ∧ t.busOut = .writeError)

/-- R49: an aligned access to a reserved offset is answered OKAY; a read returns 0 and a write has no effect. -/
def Obligations.ReservedOffsetsReadZero : Prop :=
  ∀ (s : State) (off : Nat) (v : Word) (rest : List Event), ReservedOffset off →
    (ReadNext s off rest → ∃ t, step s = .next t ∧ SameBlock s t ∧ t.busOut = .readOkay 0)
      ∧ (WriteNext s off v rest → ∃ t, step s = .next t ∧ SameBlock s t ∧ t.busOut = .writeOkay)

/-- R14, R49: every aligned offset of the window holds exactly one register of the map or is reserved. -/
def Obligations.RegisterMapIsComplete : Prop :=
  (∀ r, regAt (regOffset r) = some r ∧ regOffset r % 4 = 0 ∧ regOffset r < 0x200)
    ∧ (∀ off r, regAt off = some r → off = regOffset r)
    ∧ ∀ off, off < 0x200 → off % 4 = 0 → (regAt off = none ↔ ReservedOffset off)

/-- R15, R49: a reserved field of a register reads 0 in every state. -/
def Obligations.ReservedFieldsReadZero : Prop :=
  ∀ (s : State) (r : Reg), readReg s r &&& reservedBits r = 0

/-- R15, R17, R47: a write to an operand register while idle stores the written bits, except reserved bits, and changes
no other register but the views of COUNTER. That the latched word stays while idle is the model's choice (log 5). -/
def Obligations.OperandWriteReadsBack : Prop :=
  ∀ (s : State) (r : Reg) (v : Word) (rest : List Event), OperandRegister r →
    WriteNext s (regOffset r) v rest → s.busy = false →
    ∃ t, step s = .next t ∧ readReg t r = v &&& ~~~(reservedBits r)
      ∧ SameRegsBut (fun q => q = r ∨ (r = .counterLo ∧ q = .ctrBe1) ∨ (r = .counterHi ∧ q = .ctrBe0)) s t
      ∧ t.pendOp = s.pendOp ∧ t.rst = false ∧ t.inbox = rest ∧ t.busOut = .writeOkay ∧ t.draws = s.draws

/-- R50: reads have no side effects on the block, BUSY or not, whatever the offset and lanes; while idle, a read of a
register returns its exact value; and a read of CMD returns 0, idle or BUSY, but while SRST is pending, where the model
follows R71's letter and draws (DEDUCED, log 6). -/
def Obligations.ReadsHaveNoSideEffects : Prop :=
  (∀ (s : State) (off : Nat) (lanes : BitVec 4) (rest : List Event), s.inbox = .read off lanes :: rest → off < 0x200 →
      ∃ t, step s = .next t ∧ SameBlock s t ∧ t.inbox = rest)
    ∧ (∀ (s : State) (r : Reg) (rest : List Event), ReadNext s (regOffset r) rest → s.busy = false →
        ∃ t, step s = .next t ∧ t.busOut = .readOkay (readReg s r) ∧ t.draws = s.draws)
    ∧ ∀ (s : State) (rest : List Event), ReadNext s 0x00C rest → s.busy = false ∨ commandOf s.pendOp ≠ some .srst →
        ∃ t, step s = .next t ∧ t.busOut = .readOkay 0

/-- R63: run from an idle block, LDCTR, LDTIME and LDCAND leave the value in COUNTER, in TIME, and in CAND and
CAND_LEN; LDDIG of at most the 64 bytes DIGEST holds leaves them there, the last word padded with 0x00 and the words
after it as they were; CFG leaves its three arguments in CTRL. -/
def Obligations.PseudoInstructionsLoadTheirRegisters : Prop :=
  ∀ (s : State) (v : Word64) (text : List Byte) (rest : List Event), Idle s →
    (s.inbox = ldctr v ++ rest → ∃ t, steps 2 s = .next t ∧ t.counter = v ∧ t.inbox = rest)
      ∧ (s.inbox = ldtime v ++ rest → ∃ t, steps 2 s = .next t ∧ t.time = v ∧ t.inbox = rest)
      ∧ (s.inbox = ldcand text ++ rest → ∃ t, steps 5 s = .next t ∧ t.inbox = rest
          ∧ (∀ i < 16, byteAt t.cand i = text.getD i 0) ∧ t.candLen = BitVec.ofNat 32 text.length)
      ∧ (∀ b : List Byte, b.length ≤ 64 → s.inbox = lddig b ++ rest →
          ∃ t, steps ((b.length + 3) / 4) s = .next t ∧ t.inbox = rest
            ∧ ∀ i < 64, byteAt t.digest i = if i < 4 * ((b.length + 3) / 4) then b.getD i 0 else byteAt s.digest i)
      ∧ ∀ (a : Alg) (d : BitVec 4) (k : BitVec 8),
          s.inbox = cfg (a.bits.setWidth 32) (d.setWidth 32) (k.setWidth 32) ++ rest →
          ∃ t, steps 1 s = .next t ∧ t.inbox = rest ∧ t.alg = a ∧ t.digits = d ∧ t.skew = k

/-- R62, R63: `RUN m` on an idle block, with any number of STATUS reads before the completion: each step answers, and the
end state is the command's, with STATUS as the last answer. -/
def Obligations.RunAppliesTheCommandOnce : Prop :=
  ∀ (s : State) (i : Instr) (n : Nat) (rest : List Event), Idle s → s.inbox = run i n ++ rest →
    ∃ t u, exec i (s.accept (encode i)) = .next t ∧ steps (n + 3) s = .next u
      ∧ (∀ r, readReg u r = readReg t r) ∧ u.busy = false ∧ u.busOut = .readOkay (readReg t .status) ∧ u.inbox = rest

/-! ## Interrupts -/

/-- R24, R104: DONE and OVR are sticky: a step that clears one is the host's write of 1 to it, or power-on reset; and a
step that sets DONE is a completion, one that sets OVR a host write while BUSY. That power-on reset clears them in the
step of its release, and that they are kept from its assertion to there, is the model's choice (DESIGN CHOICE, log 7). -/
def Obligations.InterruptBitsAreSticky : Prop :=
  ∀ s t : State, step s = .next t →
    (s.done = true → t.done = false → (∃ v rest, s.inbox = .write 0x010 0xF#4 v :: rest ∧ v.getLsbD 0 = true)
        ∨ (s.rst = true ∧ t.rst = false))
      ∧ (s.ovr = true → t.ovr = false → (∃ v rest, s.inbox = .write 0x010 0xF#4 v :: rest ∧ v.getLsbD 1 = true)
        ∨ (s.rst = true ∧ t.rst = false))
      ∧ (s.done = false → t.done = true → s.busy = true ∧ t.busy = false)
      ∧ (s.ovr = false → t.ovr = true → s.busy = true ∧ ∃ off v rest, s.inbox = .write off 0xF#4 v :: rest)

/-- R25: the irq output, in terms of the INT_STATUS and INT_ENABLE words; INT_ENABLE is 0 at reset, and a write to it stores
bits 1:0, BUSY or not. -/
def Obligations.IrqIsTheMaskedPendingLevel : Prop :=
  (∀ s : State, irq s = ((readReg s .intStatus &&& readReg s .intEnable) != 0)) ∧ readReg State.reset .intEnable = 0
    ∧ ∀ (s : State) (v : Word) (rest : List Event), WriteNext s 0x014 v rest →
        ∃ t, step s = .next t ∧ readReg t .intEnable = v &&& 3#32 ∧ SameRegsBut (· = .intEnable) s t

/-! ## Whole-machine statements -/

/-- Every step from a state that meets the invariant leaves a state that meets it, whatever event comes: a command, a host
access, a refused one, a reset. -/
def Obligations.StepKeepsTheInvariant : Prop :=
  ∀ s t : State, Inv s → step s = .next t → Inv t

/-- The invariant holds at reset. -/
def Obligations.ResetMeetsTheInvariant : Prop := Inv State.reset

/-- R61, R11: what a command leaves in each register depends only on the operands R61 lists for it. In two states that
agree on those, it ends in the same error and each register, MATCH and PSTATE end equal, or keep their own old
values in both. Digest bytes from L on and candidate bytes from d on are among what does not matter (R38, R39). -/
def Obligations.CommandsDependOnTheirOperandsOnly : Prop :=
  ∀ (i : Instr) (s s' : State), AgreeOnReads i s s' →
    ∃ t t', exec i s = .next t ∧ exec i s' = .next t' ∧ t.err = t'.err
      ∧ (∀ r, r ≠ .status → r ≠ .intStatus →
          readReg t r = readReg t' r ∨ (readReg t r = readReg s r ∧ readReg t' r = readReg s' r))
      ∧ (t.matched = t'.matched ∨ (t.matched = s.matched ∧ t'.matched = s'.matched))
      ∧ (t.pstate = t'.pstate ∨ (t.pstate = s.pstate ∧ t'.pstate = s'.pstate))

/-- R21, R42: MATCH is 1 after a command only on an exact match of the first DIGITS bytes of CAND and CODE, for the commands
that compare. -/
def Obligations.MatchMeansExactMatch : Prop :=
  ∀ (i : Instr) (s t : State), i = .cmp ∨ i = .validate ∨ (i = .probeStep ∧ s.pstate = .active) →
    exec i s = .next t → t.matched = true →
    t.err = .none ∧ CandLenIsDigits s ∧ t.codeLen = s.digits ∧ CandEquals s t.code (digitsNat s)
end

