-- ==== Sys2Proof/Laws/Bytes.lean ====
section
/-! SUPPORT. Byte buffers: one lemma for each operation that builds or writes one (R46, R78). -/

namespace Sys2Proof.Machine

/-- A byte of a buffer built position by position. -/
@[simp] theorem byteAt_ofFn {n : Nat} (f : Fin n → Byte) (i : Nat) :
    byteAt (Vector.ofFn f) i = if h : i < n then f ⟨i, h⟩ else 0 := by
  by_cases h : i < n <;> simp [byteAt, h]

theorem byteAt_eq_getElem {n : Nat} (b : Vector Byte n) (i : Nat) (h : i < n) : byteAt b i = b[i] := by
  simp [byteAt, h]

/-- Two buffers with the same bytes are the same buffer. -/
theorem vector_ext_byteAt {n : Nat} {a b : Vector Byte n} (h : ∀ i < n, byteAt a i = byteAt b i) : a = b := by
  apply Vector.ext
  intro i hi
  simpa [byteAt, hi] using h i hi

/-- R46: a word write stores its four bytes and no other. -/
theorem byteAt_setBufWord {n : Nat} (b : Vector Byte n) (k : Nat) (v : Word) (i : Nat) (h : i < n) :
    byteAt (setBufWord b k v) i = if i / 4 = k then v.extractLsb' (8 * (i % 4)) 8 else byteAt b i := by
  simp [setBufWord, h, byteAt]

/-- R78: the characters of a code. -/
theorem byteAt_codeBytes (r d i : Nat) (h : i < 16) :
    byteAt (codeBytes r d) i = if i < d then BitVec.ofNat 8 (0x30 + (r / 10 ^ (d - 1 - i)) % 10) else 0 := by
  simp [codeBytes, h]

/-- A digit's character is 0x30 plus the digit: the byte does not wrap. -/
theorem codeBytes_toNat (r d i : Nat) (h : i < 16) :
    (byteAt (codeBytes r d) i).toNat = if i < d then 0x30 + (r / 10 ^ (d - 1 - i)) % 10 else 0 := by
  rw [byteAt_codeBytes r d i h]
  split
  · have := Nat.mod_lt (r / 10 ^ (d - 1 - i)) (show 0 < 10 by decide)
    rw [BitVec.toNat_ofNat]
    omega
  · rfl

/-! ## Halves of 64-bit registers (R47) -/

theorem getLsbD_join (a b : Word) (i : Nat) :
    ((a ++ b : BitVec (32 + 32)) : Word64).getLsbD i = if i < 32 then b.getLsbD i else a.getLsbD (i - 32) :=
  BitVec.getLsbD_append

@[simp] theorem hiHalf_join (a b : Word) : hiHalf (a ++ b) = a := by
  ext i hi
  rw [← BitVec.getLsbD_eq_getElem, hiHalf, BitVec.getLsbD_extractLsb', getLsbD_join]
  simp [hi]

@[simp] theorem loHalf_join (a b : Word) : loHalf (a ++ b) = b := by
  ext i hi
  rw [← BitVec.getLsbD_eq_getElem, loHalf, BitVec.getLsbD_extractLsb', getLsbD_join]
  simp [hi]

/-- The two halves make the register. -/
@[simp] theorem join_halves (x : Word64) : hiHalf x ++ loHalf x = x := by
  refine BitVec.eq_of_getLsbD_eq fun i hi => ?_
  rw [getLsbD_join]
  split
  · simp [loHalf, *]
  · rw [hiHalf, BitVec.getLsbD_extractLsb', decide_eq_true (by omega), Bool.true_and]
    congr 1
    omega

/-- A byte of the counter's serialisation comes from one half (R29): 0 to 3 from the high one. -/
theorem counterByte_join_hi (a b : Word) (k : Nat) (h : k < 4) :
    counterByte (a ++ b) k = a.extractLsb' (24 - 8 * k) 8 := by
  ext i hi
  rw [← BitVec.getLsbD_eq_getElem, ← BitVec.getLsbD_eq_getElem, counterByte, BitVec.getLsbD_extractLsb',
    BitVec.getLsbD_extractLsb', getLsbD_join, if_neg (by omega)]
  congr 2
  omega

/-- Bytes 4 to 7 come from the low half (R29). -/
theorem counterByte_join_lo (a b : Word) (k : Nat) (h : 4 ≤ k) :
    counterByte (a ++ b) k = b.extractLsb' (56 - 8 * k) 8 := by
  ext i hi
  rw [← BitVec.getLsbD_eq_getElem, ← BitVec.getLsbD_eq_getElem, counterByte, BitVec.getLsbD_extractLsb',
    BitVec.getLsbD_extractLsb', getLsbD_join, if_pos (by omega)]

end Sys2Proof.Machine
end

