-- ==== Sys2Proof/Laws/State.lean ====
section
/-! SUPPORT. One lemma per field and named update of State, each true by rfl, so that no later proof unfolds a record
update. -/

namespace Sys2Proof.Machine.State

variable (s : State)

@[simp] theorem withTrunc_alg (off : BitVec 4) (v : BitVec 31) : (s.withTrunc off v).alg = s.alg := rfl
@[simp] theorem withTrunc_digits (off : BitVec 4) (v : BitVec 31) : (s.withTrunc off v).digits = s.digits := rfl
@[simp] theorem withTrunc_skew (off : BitVec 4) (v : BitVec 31) : (s.withTrunc off v).skew = s.skew := rfl
@[simp] theorem withTrunc_matched (off : BitVec 4) (v : BitVec 31) : (s.withTrunc off v).matched = s.matched := rfl
@[simp] theorem withTrunc_err (off : BitVec 4) (v : BitVec 31) : (s.withTrunc off v).err = s.err := rfl
@[simp] theorem withTrunc_pstate (off : BitVec 4) (v : BitVec 31) : (s.withTrunc off v).pstate = s.pstate := rfl
@[simp] theorem withTrunc_done (off : BitVec 4) (v : BitVec 31) : (s.withTrunc off v).done = s.done := rfl
@[simp] theorem withTrunc_ovr (off : BitVec 4) (v : BitVec 31) : (s.withTrunc off v).ovr = s.ovr := rfl
@[simp] theorem withTrunc_doneEn (off : BitVec 4) (v : BitVec 31) : (s.withTrunc off v).doneEn = s.doneEn := rfl
@[simp] theorem withTrunc_ovrEn (off : BitVec 4) (v : BitVec 31) : (s.withTrunc off v).ovrEn = s.ovrEn := rfl
@[simp] theorem withTrunc_time (off : BitVec 4) (v : BitVec 31) : (s.withTrunc off v).time = s.time := rfl
@[simp] theorem withTrunc_period (off : BitVec 4) (v : BitVec 31) : (s.withTrunc off v).period = s.period := rfl
@[simp] theorem withTrunc_counter (off : BitVec 4) (v : BitVec 31) : (s.withTrunc off v).counter = s.counter := rfl
@[simp] theorem withTrunc_probeBase (off : BitVec 4) (v : BitVec 31) : (s.withTrunc off v).probeBase = s.probeBase := rfl
@[simp] theorem withTrunc_pidx (off : BitVec 4) (v : BitVec 31) : (s.withTrunc off v).pidx = s.pidx := rfl
@[simp] theorem withTrunc_pskew (off : BitVec 4) (v : BitVec 31) : (s.withTrunc off v).pskew = s.pskew := rfl
@[simp] theorem withTrunc_truncOff (off : BitVec 4) (v : BitVec 31) : (s.withTrunc off v).truncOff = off := rfl
@[simp] theorem withTrunc_truncVal (off : BitVec 4) (v : BitVec 31) : (s.withTrunc off v).truncVal = v := rfl
@[simp] theorem withTrunc_result (off : BitVec 4) (v : BitVec 31) : (s.withTrunc off v).result = s.result := rfl
@[simp] theorem withTrunc_codeLen (off : BitVec 4) (v : BitVec 31) : (s.withTrunc off v).codeLen = s.codeLen := rfl
@[simp] theorem withTrunc_code (off : BitVec 4) (v : BitVec 31) : (s.withTrunc off v).code = s.code := rfl
@[simp] theorem withTrunc_candLen (off : BitVec 4) (v : BitVec 31) : (s.withTrunc off v).candLen = s.candLen := rfl
@[simp] theorem withTrunc_cand (off : BitVec 4) (v : BitVec 31) : (s.withTrunc off v).cand = s.cand := rfl
@[simp] theorem withTrunc_digest (off : BitVec 4) (v : BitVec 31) : (s.withTrunc off v).digest = s.digest := rfl
@[simp] theorem withTrunc_busy (off : BitVec 4) (v : BitVec 31) : (s.withTrunc off v).busy = s.busy := rfl
@[simp] theorem withTrunc_pendOp (off : BitVec 4) (v : BitVec 31) : (s.withTrunc off v).pendOp = s.pendOp := rfl
@[simp] theorem withTrunc_rst (off : BitVec 4) (v : BitVec 31) : (s.withTrunc off v).rst = s.rst := rfl
@[simp] theorem withTrunc_inbox (off : BitVec 4) (v : BitVec 31) : (s.withTrunc off v).inbox = s.inbox := rfl
@[simp] theorem withTrunc_busOut (off : BitVec 4) (v : BitVec 31) : (s.withTrunc off v).busOut = s.busOut := rfl
@[simp] theorem withTrunc_draws (off : BitVec 4) (v : BitVec 31) : (s.withTrunc off v).draws = s.draws := rfl

@[simp] theorem withCode_alg (r : BitVec 30) (len : BitVec 4) (c : Vector Byte 16) : (s.withCode r len c).alg = s.alg := rfl
@[simp] theorem withCode_digits (r : BitVec 30) (len : BitVec 4) (c : Vector Byte 16) : (s.withCode r len c).digits = s.digits := rfl
@[simp] theorem withCode_skew (r : BitVec 30) (len : BitVec 4) (c : Vector Byte 16) : (s.withCode r len c).skew = s.skew := rfl
@[simp] theorem withCode_matched (r : BitVec 30) (len : BitVec 4) (c : Vector Byte 16) : (s.withCode r len c).matched = s.matched := rfl
@[simp] theorem withCode_err (r : BitVec 30) (len : BitVec 4) (c : Vector Byte 16) : (s.withCode r len c).err = s.err := rfl
@[simp] theorem withCode_pstate (r : BitVec 30) (len : BitVec 4) (c : Vector Byte 16) : (s.withCode r len c).pstate = s.pstate := rfl
@[simp] theorem withCode_done (r : BitVec 30) (len : BitVec 4) (c : Vector Byte 16) : (s.withCode r len c).done = s.done := rfl
@[simp] theorem withCode_ovr (r : BitVec 30) (len : BitVec 4) (c : Vector Byte 16) : (s.withCode r len c).ovr = s.ovr := rfl
@[simp] theorem withCode_doneEn (r : BitVec 30) (len : BitVec 4) (c : Vector Byte 16) : (s.withCode r len c).doneEn = s.doneEn := rfl
@[simp] theorem withCode_ovrEn (r : BitVec 30) (len : BitVec 4) (c : Vector Byte 16) : (s.withCode r len c).ovrEn = s.ovrEn := rfl
@[simp] theorem withCode_time (r : BitVec 30) (len : BitVec 4) (c : Vector Byte 16) : (s.withCode r len c).time = s.time := rfl
@[simp] theorem withCode_period (r : BitVec 30) (len : BitVec 4) (c : Vector Byte 16) : (s.withCode r len c).period = s.period := rfl
@[simp] theorem withCode_counter (r : BitVec 30) (len : BitVec 4) (c : Vector Byte 16) : (s.withCode r len c).counter = s.counter := rfl
@[simp] theorem withCode_probeBase (r : BitVec 30) (len : BitVec 4) (c : Vector Byte 16) : (s.withCode r len c).probeBase = s.probeBase := rfl
@[simp] theorem withCode_pidx (r : BitVec 30) (len : BitVec 4) (c : Vector Byte 16) : (s.withCode r len c).pidx = s.pidx := rfl
@[simp] theorem withCode_pskew (r : BitVec 30) (len : BitVec 4) (c : Vector Byte 16) : (s.withCode r len c).pskew = s.pskew := rfl
@[simp] theorem withCode_truncOff (r : BitVec 30) (len : BitVec 4) (c : Vector Byte 16) : (s.withCode r len c).truncOff = s.truncOff := rfl
@[simp] theorem withCode_truncVal (r : BitVec 30) (len : BitVec 4) (c : Vector Byte 16) : (s.withCode r len c).truncVal = s.truncVal := rfl
@[simp] theorem withCode_result (r : BitVec 30) (len : BitVec 4) (c : Vector Byte 16) : (s.withCode r len c).result = r := rfl
@[simp] theorem withCode_codeLen (r : BitVec 30) (len : BitVec 4) (c : Vector Byte 16) : (s.withCode r len c).codeLen = len := rfl
@[simp] theorem withCode_code (r : BitVec 30) (len : BitVec 4) (c : Vector Byte 16) : (s.withCode r len c).code = c := rfl
@[simp] theorem withCode_candLen (r : BitVec 30) (len : BitVec 4) (c : Vector Byte 16) : (s.withCode r len c).candLen = s.candLen := rfl
@[simp] theorem withCode_cand (r : BitVec 30) (len : BitVec 4) (c : Vector Byte 16) : (s.withCode r len c).cand = s.cand := rfl
@[simp] theorem withCode_digest (r : BitVec 30) (len : BitVec 4) (c : Vector Byte 16) : (s.withCode r len c).digest = s.digest := rfl
@[simp] theorem withCode_busy (r : BitVec 30) (len : BitVec 4) (c : Vector Byte 16) : (s.withCode r len c).busy = s.busy := rfl
@[simp] theorem withCode_pendOp (r : BitVec 30) (len : BitVec 4) (c : Vector Byte 16) : (s.withCode r len c).pendOp = s.pendOp := rfl
@[simp] theorem withCode_rst (r : BitVec 30) (len : BitVec 4) (c : Vector Byte 16) : (s.withCode r len c).rst = s.rst := rfl
@[simp] theorem withCode_inbox (r : BitVec 30) (len : BitVec 4) (c : Vector Byte 16) : (s.withCode r len c).inbox = s.inbox := rfl
@[simp] theorem withCode_busOut (r : BitVec 30) (len : BitVec 4) (c : Vector Byte 16) : (s.withCode r len c).busOut = s.busOut := rfl
@[simp] theorem withCode_draws (r : BitVec 30) (len : BitVec 4) (c : Vector Byte 16) : (s.withCode r len c).draws = s.draws := rfl

@[simp] theorem withMatch_alg (b : Bool) : (s.withMatch b).alg = s.alg := rfl
@[simp] theorem withMatch_digits (b : Bool) : (s.withMatch b).digits = s.digits := rfl
@[simp] theorem withMatch_skew (b : Bool) : (s.withMatch b).skew = s.skew := rfl
@[simp] theorem withMatch_matched (b : Bool) : (s.withMatch b).matched = b := rfl
@[simp] theorem withMatch_err (b : Bool) : (s.withMatch b).err = s.err := rfl
@[simp] theorem withMatch_pstate (b : Bool) : (s.withMatch b).pstate = s.pstate := rfl
@[simp] theorem withMatch_done (b : Bool) : (s.withMatch b).done = s.done := rfl
@[simp] theorem withMatch_ovr (b : Bool) : (s.withMatch b).ovr = s.ovr := rfl
@[simp] theorem withMatch_doneEn (b : Bool) : (s.withMatch b).doneEn = s.doneEn := rfl
@[simp] theorem withMatch_ovrEn (b : Bool) : (s.withMatch b).ovrEn = s.ovrEn := rfl
@[simp] theorem withMatch_time (b : Bool) : (s.withMatch b).time = s.time := rfl
@[simp] theorem withMatch_period (b : Bool) : (s.withMatch b).period = s.period := rfl
@[simp] theorem withMatch_counter (b : Bool) : (s.withMatch b).counter = s.counter := rfl
@[simp] theorem withMatch_probeBase (b : Bool) : (s.withMatch b).probeBase = s.probeBase := rfl
@[simp] theorem withMatch_pidx (b : Bool) : (s.withMatch b).pidx = s.pidx := rfl
@[simp] theorem withMatch_pskew (b : Bool) : (s.withMatch b).pskew = s.pskew := rfl
@[simp] theorem withMatch_truncOff (b : Bool) : (s.withMatch b).truncOff = s.truncOff := rfl
@[simp] theorem withMatch_truncVal (b : Bool) : (s.withMatch b).truncVal = s.truncVal := rfl
@[simp] theorem withMatch_result (b : Bool) : (s.withMatch b).result = s.result := rfl
@[simp] theorem withMatch_codeLen (b : Bool) : (s.withMatch b).codeLen = s.codeLen := rfl
@[simp] theorem withMatch_code (b : Bool) : (s.withMatch b).code = s.code := rfl
@[simp] theorem withMatch_candLen (b : Bool) : (s.withMatch b).candLen = s.candLen := rfl
@[simp] theorem withMatch_cand (b : Bool) : (s.withMatch b).cand = s.cand := rfl
@[simp] theorem withMatch_digest (b : Bool) : (s.withMatch b).digest = s.digest := rfl
@[simp] theorem withMatch_busy (b : Bool) : (s.withMatch b).busy = s.busy := rfl
@[simp] theorem withMatch_pendOp (b : Bool) : (s.withMatch b).pendOp = s.pendOp := rfl
@[simp] theorem withMatch_rst (b : Bool) : (s.withMatch b).rst = s.rst := rfl
@[simp] theorem withMatch_inbox (b : Bool) : (s.withMatch b).inbox = s.inbox := rfl
@[simp] theorem withMatch_busOut (b : Bool) : (s.withMatch b).busOut = s.busOut := rfl
@[simp] theorem withMatch_draws (b : Bool) : (s.withMatch b).draws = s.draws := rfl

@[simp] theorem withPState_alg (p : PState) : (s.withPState p).alg = s.alg := rfl
@[simp] theorem withPState_digits (p : PState) : (s.withPState p).digits = s.digits := rfl
@[simp] theorem withPState_skew (p : PState) : (s.withPState p).skew = s.skew := rfl
@[simp] theorem withPState_matched (p : PState) : (s.withPState p).matched = s.matched := rfl
@[simp] theorem withPState_err (p : PState) : (s.withPState p).err = s.err := rfl
@[simp] theorem withPState_pstate (p : PState) : (s.withPState p).pstate = p := rfl
@[simp] theorem withPState_done (p : PState) : (s.withPState p).done = s.done := rfl
@[simp] theorem withPState_ovr (p : PState) : (s.withPState p).ovr = s.ovr := rfl
@[simp] theorem withPState_doneEn (p : PState) : (s.withPState p).doneEn = s.doneEn := rfl
@[simp] theorem withPState_ovrEn (p : PState) : (s.withPState p).ovrEn = s.ovrEn := rfl
@[simp] theorem withPState_time (p : PState) : (s.withPState p).time = s.time := rfl
@[simp] theorem withPState_period (p : PState) : (s.withPState p).period = s.period := rfl
@[simp] theorem withPState_counter (p : PState) : (s.withPState p).counter = s.counter := rfl
@[simp] theorem withPState_probeBase (p : PState) : (s.withPState p).probeBase = s.probeBase := rfl
@[simp] theorem withPState_pidx (p : PState) : (s.withPState p).pidx = s.pidx := rfl
@[simp] theorem withPState_pskew (p : PState) : (s.withPState p).pskew = s.pskew := rfl
@[simp] theorem withPState_truncOff (p : PState) : (s.withPState p).truncOff = s.truncOff := rfl
@[simp] theorem withPState_truncVal (p : PState) : (s.withPState p).truncVal = s.truncVal := rfl
@[simp] theorem withPState_result (p : PState) : (s.withPState p).result = s.result := rfl
@[simp] theorem withPState_codeLen (p : PState) : (s.withPState p).codeLen = s.codeLen := rfl
@[simp] theorem withPState_code (p : PState) : (s.withPState p).code = s.code := rfl
@[simp] theorem withPState_candLen (p : PState) : (s.withPState p).candLen = s.candLen := rfl
@[simp] theorem withPState_cand (p : PState) : (s.withPState p).cand = s.cand := rfl
@[simp] theorem withPState_digest (p : PState) : (s.withPState p).digest = s.digest := rfl
@[simp] theorem withPState_busy (p : PState) : (s.withPState p).busy = s.busy := rfl
@[simp] theorem withPState_pendOp (p : PState) : (s.withPState p).pendOp = s.pendOp := rfl
@[simp] theorem withPState_rst (p : PState) : (s.withPState p).rst = s.rst := rfl
@[simp] theorem withPState_inbox (p : PState) : (s.withPState p).inbox = s.inbox := rfl
@[simp] theorem withPState_busOut (p : PState) : (s.withPState p).busOut = s.busOut := rfl
@[simp] theorem withPState_draws (p : PState) : (s.withPState p).draws = s.draws := rfl

@[simp] theorem withCounter_alg (c : Word64) : (s.withCounter c).alg = s.alg := rfl
@[simp] theorem withCounter_digits (c : Word64) : (s.withCounter c).digits = s.digits := rfl
@[simp] theorem withCounter_skew (c : Word64) : (s.withCounter c).skew = s.skew := rfl
@[simp] theorem withCounter_matched (c : Word64) : (s.withCounter c).matched = s.matched := rfl
@[simp] theorem withCounter_err (c : Word64) : (s.withCounter c).err = s.err := rfl
@[simp] theorem withCounter_pstate (c : Word64) : (s.withCounter c).pstate = s.pstate := rfl
@[simp] theorem withCounter_done (c : Word64) : (s.withCounter c).done = s.done := rfl
@[simp] theorem withCounter_ovr (c : Word64) : (s.withCounter c).ovr = s.ovr := rfl
@[simp] theorem withCounter_doneEn (c : Word64) : (s.withCounter c).doneEn = s.doneEn := rfl
@[simp] theorem withCounter_ovrEn (c : Word64) : (s.withCounter c).ovrEn = s.ovrEn := rfl
@[simp] theorem withCounter_time (c : Word64) : (s.withCounter c).time = s.time := rfl
@[simp] theorem withCounter_period (c : Word64) : (s.withCounter c).period = s.period := rfl
@[simp] theorem withCounter_counter (c : Word64) : (s.withCounter c).counter = c := rfl
@[simp] theorem withCounter_probeBase (c : Word64) : (s.withCounter c).probeBase = s.probeBase := rfl
@[simp] theorem withCounter_pidx (c : Word64) : (s.withCounter c).pidx = s.pidx := rfl
@[simp] theorem withCounter_pskew (c : Word64) : (s.withCounter c).pskew = s.pskew := rfl
@[simp] theorem withCounter_truncOff (c : Word64) : (s.withCounter c).truncOff = s.truncOff := rfl
@[simp] theorem withCounter_truncVal (c : Word64) : (s.withCounter c).truncVal = s.truncVal := rfl
@[simp] theorem withCounter_result (c : Word64) : (s.withCounter c).result = s.result := rfl
@[simp] theorem withCounter_codeLen (c : Word64) : (s.withCounter c).codeLen = s.codeLen := rfl
@[simp] theorem withCounter_code (c : Word64) : (s.withCounter c).code = s.code := rfl
@[simp] theorem withCounter_candLen (c : Word64) : (s.withCounter c).candLen = s.candLen := rfl
@[simp] theorem withCounter_cand (c : Word64) : (s.withCounter c).cand = s.cand := rfl
@[simp] theorem withCounter_digest (c : Word64) : (s.withCounter c).digest = s.digest := rfl
@[simp] theorem withCounter_busy (c : Word64) : (s.withCounter c).busy = s.busy := rfl
@[simp] theorem withCounter_pendOp (c : Word64) : (s.withCounter c).pendOp = s.pendOp := rfl
@[simp] theorem withCounter_rst (c : Word64) : (s.withCounter c).rst = s.rst := rfl
@[simp] theorem withCounter_inbox (c : Word64) : (s.withCounter c).inbox = s.inbox := rfl
@[simp] theorem withCounter_busOut (c : Word64) : (s.withCounter c).busOut = s.busOut := rfl
@[simp] theorem withCounter_draws (c : Word64) : (s.withCounter c).draws = s.draws := rfl

@[simp] theorem withProbe_alg (base : Word64) (idx : BitVec 10) (skew : BitVec 8) : (s.withProbe base idx skew).alg = s.alg := rfl
@[simp] theorem withProbe_digits (base : Word64) (idx : BitVec 10) (skew : BitVec 8) : (s.withProbe base idx skew).digits = s.digits := rfl
@[simp] theorem withProbe_skew (base : Word64) (idx : BitVec 10) (skew : BitVec 8) : (s.withProbe base idx skew).skew = s.skew := rfl
@[simp] theorem withProbe_matched (base : Word64) (idx : BitVec 10) (skew : BitVec 8) : (s.withProbe base idx skew).matched = s.matched := rfl
@[simp] theorem withProbe_err (base : Word64) (idx : BitVec 10) (skew : BitVec 8) : (s.withProbe base idx skew).err = s.err := rfl
@[simp] theorem withProbe_pstate (base : Word64) (idx : BitVec 10) (skew : BitVec 8) : (s.withProbe base idx skew).pstate = s.pstate := rfl
@[simp] theorem withProbe_done (base : Word64) (idx : BitVec 10) (skew : BitVec 8) : (s.withProbe base idx skew).done = s.done := rfl
@[simp] theorem withProbe_ovr (base : Word64) (idx : BitVec 10) (skew : BitVec 8) : (s.withProbe base idx skew).ovr = s.ovr := rfl
@[simp] theorem withProbe_doneEn (base : Word64) (idx : BitVec 10) (skew : BitVec 8) : (s.withProbe base idx skew).doneEn = s.doneEn := rfl
@[simp] theorem withProbe_ovrEn (base : Word64) (idx : BitVec 10) (skew : BitVec 8) : (s.withProbe base idx skew).ovrEn = s.ovrEn := rfl
@[simp] theorem withProbe_time (base : Word64) (idx : BitVec 10) (skew : BitVec 8) : (s.withProbe base idx skew).time = s.time := rfl
@[simp] theorem withProbe_period (base : Word64) (idx : BitVec 10) (skew : BitVec 8) : (s.withProbe base idx skew).period = s.period := rfl
@[simp] theorem withProbe_counter (base : Word64) (idx : BitVec 10) (skew : BitVec 8) : (s.withProbe base idx skew).counter = s.counter := rfl
@[simp] theorem withProbe_probeBase (base : Word64) (idx : BitVec 10) (skew : BitVec 8) : (s.withProbe base idx skew).probeBase = base := rfl
@[simp] theorem withProbe_pidx (base : Word64) (idx : BitVec 10) (skew : BitVec 8) : (s.withProbe base idx skew).pidx = idx := rfl
@[simp] theorem withProbe_pskew (base : Word64) (idx : BitVec 10) (skew : BitVec 8) : (s.withProbe base idx skew).pskew = skew := rfl
@[simp] theorem withProbe_truncOff (base : Word64) (idx : BitVec 10) (skew : BitVec 8) : (s.withProbe base idx skew).truncOff = s.truncOff := rfl
@[simp] theorem withProbe_truncVal (base : Word64) (idx : BitVec 10) (skew : BitVec 8) : (s.withProbe base idx skew).truncVal = s.truncVal := rfl
@[simp] theorem withProbe_result (base : Word64) (idx : BitVec 10) (skew : BitVec 8) : (s.withProbe base idx skew).result = s.result := rfl
@[simp] theorem withProbe_codeLen (base : Word64) (idx : BitVec 10) (skew : BitVec 8) : (s.withProbe base idx skew).codeLen = s.codeLen := rfl
@[simp] theorem withProbe_code (base : Word64) (idx : BitVec 10) (skew : BitVec 8) : (s.withProbe base idx skew).code = s.code := rfl
@[simp] theorem withProbe_candLen (base : Word64) (idx : BitVec 10) (skew : BitVec 8) : (s.withProbe base idx skew).candLen = s.candLen := rfl
@[simp] theorem withProbe_cand (base : Word64) (idx : BitVec 10) (skew : BitVec 8) : (s.withProbe base idx skew).cand = s.cand := rfl
@[simp] theorem withProbe_digest (base : Word64) (idx : BitVec 10) (skew : BitVec 8) : (s.withProbe base idx skew).digest = s.digest := rfl
@[simp] theorem withProbe_busy (base : Word64) (idx : BitVec 10) (skew : BitVec 8) : (s.withProbe base idx skew).busy = s.busy := rfl
@[simp] theorem withProbe_pendOp (base : Word64) (idx : BitVec 10) (skew : BitVec 8) : (s.withProbe base idx skew).pendOp = s.pendOp := rfl
@[simp] theorem withProbe_rst (base : Word64) (idx : BitVec 10) (skew : BitVec 8) : (s.withProbe base idx skew).rst = s.rst := rfl
@[simp] theorem withProbe_inbox (base : Word64) (idx : BitVec 10) (skew : BitVec 8) : (s.withProbe base idx skew).inbox = s.inbox := rfl
@[simp] theorem withProbe_busOut (base : Word64) (idx : BitVec 10) (skew : BitVec 8) : (s.withProbe base idx skew).busOut = s.busOut := rfl
@[simp] theorem withProbe_draws (base : Word64) (idx : BitVec 10) (skew : BitVec 8) : (s.withProbe base idx skew).draws = s.draws := rfl

@[simp] theorem withPidx_alg (idx : BitVec 10) : (s.withPidx idx).alg = s.alg := rfl
@[simp] theorem withPidx_digits (idx : BitVec 10) : (s.withPidx idx).digits = s.digits := rfl
@[simp] theorem withPidx_skew (idx : BitVec 10) : (s.withPidx idx).skew = s.skew := rfl
@[simp] theorem withPidx_matched (idx : BitVec 10) : (s.withPidx idx).matched = s.matched := rfl
@[simp] theorem withPidx_err (idx : BitVec 10) : (s.withPidx idx).err = s.err := rfl
@[simp] theorem withPidx_pstate (idx : BitVec 10) : (s.withPidx idx).pstate = s.pstate := rfl
@[simp] theorem withPidx_done (idx : BitVec 10) : (s.withPidx idx).done = s.done := rfl
@[simp] theorem withPidx_ovr (idx : BitVec 10) : (s.withPidx idx).ovr = s.ovr := rfl
@[simp] theorem withPidx_doneEn (idx : BitVec 10) : (s.withPidx idx).doneEn = s.doneEn := rfl
@[simp] theorem withPidx_ovrEn (idx : BitVec 10) : (s.withPidx idx).ovrEn = s.ovrEn := rfl
@[simp] theorem withPidx_time (idx : BitVec 10) : (s.withPidx idx).time = s.time := rfl
@[simp] theorem withPidx_period (idx : BitVec 10) : (s.withPidx idx).period = s.period := rfl
@[simp] theorem withPidx_counter (idx : BitVec 10) : (s.withPidx idx).counter = s.counter := rfl
@[simp] theorem withPidx_probeBase (idx : BitVec 10) : (s.withPidx idx).probeBase = s.probeBase := rfl
@[simp] theorem withPidx_pidx (idx : BitVec 10) : (s.withPidx idx).pidx = idx := rfl
@[simp] theorem withPidx_pskew (idx : BitVec 10) : (s.withPidx idx).pskew = s.pskew := rfl
@[simp] theorem withPidx_truncOff (idx : BitVec 10) : (s.withPidx idx).truncOff = s.truncOff := rfl
@[simp] theorem withPidx_truncVal (idx : BitVec 10) : (s.withPidx idx).truncVal = s.truncVal := rfl
@[simp] theorem withPidx_result (idx : BitVec 10) : (s.withPidx idx).result = s.result := rfl
@[simp] theorem withPidx_codeLen (idx : BitVec 10) : (s.withPidx idx).codeLen = s.codeLen := rfl
@[simp] theorem withPidx_code (idx : BitVec 10) : (s.withPidx idx).code = s.code := rfl
@[simp] theorem withPidx_candLen (idx : BitVec 10) : (s.withPidx idx).candLen = s.candLen := rfl
@[simp] theorem withPidx_cand (idx : BitVec 10) : (s.withPidx idx).cand = s.cand := rfl
@[simp] theorem withPidx_digest (idx : BitVec 10) : (s.withPidx idx).digest = s.digest := rfl
@[simp] theorem withPidx_busy (idx : BitVec 10) : (s.withPidx idx).busy = s.busy := rfl
@[simp] theorem withPidx_pendOp (idx : BitVec 10) : (s.withPidx idx).pendOp = s.pendOp := rfl
@[simp] theorem withPidx_rst (idx : BitVec 10) : (s.withPidx idx).rst = s.rst := rfl
@[simp] theorem withPidx_inbox (idx : BitVec 10) : (s.withPidx idx).inbox = s.inbox := rfl
@[simp] theorem withPidx_busOut (idx : BitVec 10) : (s.withPidx idx).busOut = s.busOut := rfl
@[simp] theorem withPidx_draws (idx : BitVec 10) : (s.withPidx idx).draws = s.draws := rfl

@[simp] theorem withOvr_alg : (s.withOvr).alg = s.alg := rfl
@[simp] theorem withOvr_digits : (s.withOvr).digits = s.digits := rfl
@[simp] theorem withOvr_skew : (s.withOvr).skew = s.skew := rfl
@[simp] theorem withOvr_matched : (s.withOvr).matched = s.matched := rfl
@[simp] theorem withOvr_err : (s.withOvr).err = s.err := rfl
@[simp] theorem withOvr_pstate : (s.withOvr).pstate = s.pstate := rfl
@[simp] theorem withOvr_done : (s.withOvr).done = s.done := rfl
@[simp] theorem withOvr_ovr : (s.withOvr).ovr = true := rfl
@[simp] theorem withOvr_doneEn : (s.withOvr).doneEn = s.doneEn := rfl
@[simp] theorem withOvr_ovrEn : (s.withOvr).ovrEn = s.ovrEn := rfl
@[simp] theorem withOvr_time : (s.withOvr).time = s.time := rfl
@[simp] theorem withOvr_period : (s.withOvr).period = s.period := rfl
@[simp] theorem withOvr_counter : (s.withOvr).counter = s.counter := rfl
@[simp] theorem withOvr_probeBase : (s.withOvr).probeBase = s.probeBase := rfl
@[simp] theorem withOvr_pidx : (s.withOvr).pidx = s.pidx := rfl
@[simp] theorem withOvr_pskew : (s.withOvr).pskew = s.pskew := rfl
@[simp] theorem withOvr_truncOff : (s.withOvr).truncOff = s.truncOff := rfl
@[simp] theorem withOvr_truncVal : (s.withOvr).truncVal = s.truncVal := rfl
@[simp] theorem withOvr_result : (s.withOvr).result = s.result := rfl
@[simp] theorem withOvr_codeLen : (s.withOvr).codeLen = s.codeLen := rfl
@[simp] theorem withOvr_code : (s.withOvr).code = s.code := rfl
@[simp] theorem withOvr_candLen : (s.withOvr).candLen = s.candLen := rfl
@[simp] theorem withOvr_cand : (s.withOvr).cand = s.cand := rfl
@[simp] theorem withOvr_digest : (s.withOvr).digest = s.digest := rfl
@[simp] theorem withOvr_busy : (s.withOvr).busy = s.busy := rfl
@[simp] theorem withOvr_pendOp : (s.withOvr).pendOp = s.pendOp := rfl
@[simp] theorem withOvr_rst : (s.withOvr).rst = s.rst := rfl
@[simp] theorem withOvr_inbox : (s.withOvr).inbox = s.inbox := rfl
@[simp] theorem withOvr_busOut : (s.withOvr).busOut = s.busOut := rfl
@[simp] theorem withOvr_draws : (s.withOvr).draws = s.draws := rfl

@[simp] theorem accept_alg (w : Word) : (s.accept w).alg = s.alg := rfl
@[simp] theorem accept_digits (w : Word) : (s.accept w).digits = s.digits := rfl
@[simp] theorem accept_skew (w : Word) : (s.accept w).skew = s.skew := rfl
@[simp] theorem accept_matched (w : Word) : (s.accept w).matched = s.matched := rfl
@[simp] theorem accept_err (w : Word) : (s.accept w).err = s.err := rfl
@[simp] theorem accept_pstate (w : Word) : (s.accept w).pstate = s.pstate := rfl
@[simp] theorem accept_done (w : Word) : (s.accept w).done = s.done := rfl
@[simp] theorem accept_ovr (w : Word) : (s.accept w).ovr = s.ovr := rfl
@[simp] theorem accept_doneEn (w : Word) : (s.accept w).doneEn = s.doneEn := rfl
@[simp] theorem accept_ovrEn (w : Word) : (s.accept w).ovrEn = s.ovrEn := rfl
@[simp] theorem accept_time (w : Word) : (s.accept w).time = s.time := rfl
@[simp] theorem accept_period (w : Word) : (s.accept w).period = s.period := rfl
@[simp] theorem accept_counter (w : Word) : (s.accept w).counter = s.counter := rfl
@[simp] theorem accept_probeBase (w : Word) : (s.accept w).probeBase = s.probeBase := rfl
@[simp] theorem accept_pidx (w : Word) : (s.accept w).pidx = s.pidx := rfl
@[simp] theorem accept_pskew (w : Word) : (s.accept w).pskew = s.pskew := rfl
@[simp] theorem accept_truncOff (w : Word) : (s.accept w).truncOff = s.truncOff := rfl
@[simp] theorem accept_truncVal (w : Word) : (s.accept w).truncVal = s.truncVal := rfl
@[simp] theorem accept_result (w : Word) : (s.accept w).result = s.result := rfl
@[simp] theorem accept_codeLen (w : Word) : (s.accept w).codeLen = s.codeLen := rfl
@[simp] theorem accept_code (w : Word) : (s.accept w).code = s.code := rfl
@[simp] theorem accept_candLen (w : Word) : (s.accept w).candLen = s.candLen := rfl
@[simp] theorem accept_cand (w : Word) : (s.accept w).cand = s.cand := rfl
@[simp] theorem accept_digest (w : Word) : (s.accept w).digest = s.digest := rfl
@[simp] theorem accept_busy (w : Word) : (s.accept w).busy = true := rfl
@[simp] theorem accept_pendOp (w : Word) : (s.accept w).pendOp = w := rfl
@[simp] theorem accept_rst (w : Word) : (s.accept w).rst = s.rst := rfl
@[simp] theorem accept_inbox (w : Word) : (s.accept w).inbox = s.inbox := rfl
@[simp] theorem accept_busOut (w : Word) : (s.accept w).busOut = s.busOut := rfl
@[simp] theorem accept_draws (w : Word) : (s.accept w).draws = s.draws := rfl

@[simp] theorem completed_alg (e : ErrCode) : (s.completed e).alg = s.alg := rfl
@[simp] theorem completed_digits (e : ErrCode) : (s.completed e).digits = s.digits := rfl
@[simp] theorem completed_skew (e : ErrCode) : (s.completed e).skew = s.skew := rfl
@[simp] theorem completed_matched (e : ErrCode) : (s.completed e).matched = s.matched := rfl
@[simp] theorem completed_err (e : ErrCode) : (s.completed e).err = e := rfl
@[simp] theorem completed_pstate (e : ErrCode) : (s.completed e).pstate = s.pstate := rfl
@[simp] theorem completed_done (e : ErrCode) : (s.completed e).done = true := rfl
@[simp] theorem completed_ovr (e : ErrCode) : (s.completed e).ovr = s.ovr := rfl
@[simp] theorem completed_doneEn (e : ErrCode) : (s.completed e).doneEn = s.doneEn := rfl
@[simp] theorem completed_ovrEn (e : ErrCode) : (s.completed e).ovrEn = s.ovrEn := rfl
@[simp] theorem completed_time (e : ErrCode) : (s.completed e).time = s.time := rfl
@[simp] theorem completed_period (e : ErrCode) : (s.completed e).period = s.period := rfl
@[simp] theorem completed_counter (e : ErrCode) : (s.completed e).counter = s.counter := rfl
@[simp] theorem completed_probeBase (e : ErrCode) : (s.completed e).probeBase = s.probeBase := rfl
@[simp] theorem completed_pidx (e : ErrCode) : (s.completed e).pidx = s.pidx := rfl
@[simp] theorem completed_pskew (e : ErrCode) : (s.completed e).pskew = s.pskew := rfl
@[simp] theorem completed_truncOff (e : ErrCode) : (s.completed e).truncOff = s.truncOff := rfl
@[simp] theorem completed_truncVal (e : ErrCode) : (s.completed e).truncVal = s.truncVal := rfl
@[simp] theorem completed_result (e : ErrCode) : (s.completed e).result = s.result := rfl
@[simp] theorem completed_codeLen (e : ErrCode) : (s.completed e).codeLen = s.codeLen := rfl
@[simp] theorem completed_code (e : ErrCode) : (s.completed e).code = s.code := rfl
@[simp] theorem completed_candLen (e : ErrCode) : (s.completed e).candLen = s.candLen := rfl
@[simp] theorem completed_cand (e : ErrCode) : (s.completed e).cand = s.cand := rfl
@[simp] theorem completed_digest (e : ErrCode) : (s.completed e).digest = s.digest := rfl
@[simp] theorem completed_busy (e : ErrCode) : (s.completed e).busy = false := rfl
@[simp] theorem completed_pendOp (e : ErrCode) : (s.completed e).pendOp = s.pendOp := rfl
@[simp] theorem completed_rst (e : ErrCode) : (s.completed e).rst = s.rst := rfl
@[simp] theorem completed_inbox (e : ErrCode) : (s.completed e).inbox = s.inbox := rfl
@[simp] theorem completed_busOut (e : ErrCode) : (s.completed e).busOut = s.busOut := rfl
@[simp] theorem completed_draws (e : ErrCode) : (s.completed e).draws = s.draws := rfl

@[simp] theorem answer_alg (b : BusOut) : (s.answer b).alg = s.alg := rfl
@[simp] theorem answer_digits (b : BusOut) : (s.answer b).digits = s.digits := rfl
@[simp] theorem answer_skew (b : BusOut) : (s.answer b).skew = s.skew := rfl
@[simp] theorem answer_matched (b : BusOut) : (s.answer b).matched = s.matched := rfl
@[simp] theorem answer_err (b : BusOut) : (s.answer b).err = s.err := rfl
@[simp] theorem answer_pstate (b : BusOut) : (s.answer b).pstate = s.pstate := rfl
@[simp] theorem answer_done (b : BusOut) : (s.answer b).done = s.done := rfl
@[simp] theorem answer_ovr (b : BusOut) : (s.answer b).ovr = s.ovr := rfl
@[simp] theorem answer_doneEn (b : BusOut) : (s.answer b).doneEn = s.doneEn := rfl
@[simp] theorem answer_ovrEn (b : BusOut) : (s.answer b).ovrEn = s.ovrEn := rfl
@[simp] theorem answer_time (b : BusOut) : (s.answer b).time = s.time := rfl
@[simp] theorem answer_period (b : BusOut) : (s.answer b).period = s.period := rfl
@[simp] theorem answer_counter (b : BusOut) : (s.answer b).counter = s.counter := rfl
@[simp] theorem answer_probeBase (b : BusOut) : (s.answer b).probeBase = s.probeBase := rfl
@[simp] theorem answer_pidx (b : BusOut) : (s.answer b).pidx = s.pidx := rfl
@[simp] theorem answer_pskew (b : BusOut) : (s.answer b).pskew = s.pskew := rfl
@[simp] theorem answer_truncOff (b : BusOut) : (s.answer b).truncOff = s.truncOff := rfl
@[simp] theorem answer_truncVal (b : BusOut) : (s.answer b).truncVal = s.truncVal := rfl
@[simp] theorem answer_result (b : BusOut) : (s.answer b).result = s.result := rfl
@[simp] theorem answer_codeLen (b : BusOut) : (s.answer b).codeLen = s.codeLen := rfl
@[simp] theorem answer_code (b : BusOut) : (s.answer b).code = s.code := rfl
@[simp] theorem answer_candLen (b : BusOut) : (s.answer b).candLen = s.candLen := rfl
@[simp] theorem answer_cand (b : BusOut) : (s.answer b).cand = s.cand := rfl
@[simp] theorem answer_digest (b : BusOut) : (s.answer b).digest = s.digest := rfl
@[simp] theorem answer_busy (b : BusOut) : (s.answer b).busy = s.busy := rfl
@[simp] theorem answer_pendOp (b : BusOut) : (s.answer b).pendOp = s.pendOp := rfl
@[simp] theorem answer_rst (b : BusOut) : (s.answer b).rst = s.rst := rfl
@[simp] theorem answer_inbox (b : BusOut) : (s.answer b).inbox = s.inbox := rfl
@[simp] theorem answer_busOut (b : BusOut) : (s.answer b).busOut = b := rfl
@[simp] theorem answer_draws (b : BusOut) : (s.answer b).draws = s.draws := rfl

@[simp] theorem drew_alg : (s.drew).alg = s.alg := rfl
@[simp] theorem drew_digits : (s.drew).digits = s.digits := rfl
@[simp] theorem drew_skew : (s.drew).skew = s.skew := rfl
@[simp] theorem drew_matched : (s.drew).matched = s.matched := rfl
@[simp] theorem drew_err : (s.drew).err = s.err := rfl
@[simp] theorem drew_pstate : (s.drew).pstate = s.pstate := rfl
@[simp] theorem drew_done : (s.drew).done = s.done := rfl
@[simp] theorem drew_ovr : (s.drew).ovr = s.ovr := rfl
@[simp] theorem drew_doneEn : (s.drew).doneEn = s.doneEn := rfl
@[simp] theorem drew_ovrEn : (s.drew).ovrEn = s.ovrEn := rfl
@[simp] theorem drew_time : (s.drew).time = s.time := rfl
@[simp] theorem drew_period : (s.drew).period = s.period := rfl
@[simp] theorem drew_counter : (s.drew).counter = s.counter := rfl
@[simp] theorem drew_probeBase : (s.drew).probeBase = s.probeBase := rfl
@[simp] theorem drew_pidx : (s.drew).pidx = s.pidx := rfl
@[simp] theorem drew_pskew : (s.drew).pskew = s.pskew := rfl
@[simp] theorem drew_truncOff : (s.drew).truncOff = s.truncOff := rfl
@[simp] theorem drew_truncVal : (s.drew).truncVal = s.truncVal := rfl
@[simp] theorem drew_result : (s.drew).result = s.result := rfl
@[simp] theorem drew_codeLen : (s.drew).codeLen = s.codeLen := rfl
@[simp] theorem drew_code : (s.drew).code = s.code := rfl
@[simp] theorem drew_candLen : (s.drew).candLen = s.candLen := rfl
@[simp] theorem drew_cand : (s.drew).cand = s.cand := rfl
@[simp] theorem drew_digest : (s.drew).digest = s.digest := rfl
@[simp] theorem drew_busy : (s.drew).busy = s.busy := rfl
@[simp] theorem drew_pendOp : (s.drew).pendOp = s.pendOp := rfl
@[simp] theorem drew_rst : (s.drew).rst = s.rst := rfl
@[simp] theorem drew_inbox : (s.drew).inbox = s.inbox := rfl
@[simp] theorem drew_busOut : (s.drew).busOut = s.busOut := rfl
@[simp] theorem drew_draws : (s.drew).draws = s.draws + 1 := rfl

@[simp] theorem withInbox_alg (l : List Event) : (s.withInbox l).alg = s.alg := rfl
@[simp] theorem withInbox_digits (l : List Event) : (s.withInbox l).digits = s.digits := rfl
@[simp] theorem withInbox_skew (l : List Event) : (s.withInbox l).skew = s.skew := rfl
@[simp] theorem withInbox_matched (l : List Event) : (s.withInbox l).matched = s.matched := rfl
@[simp] theorem withInbox_err (l : List Event) : (s.withInbox l).err = s.err := rfl
@[simp] theorem withInbox_pstate (l : List Event) : (s.withInbox l).pstate = s.pstate := rfl
@[simp] theorem withInbox_done (l : List Event) : (s.withInbox l).done = s.done := rfl
@[simp] theorem withInbox_ovr (l : List Event) : (s.withInbox l).ovr = s.ovr := rfl
@[simp] theorem withInbox_doneEn (l : List Event) : (s.withInbox l).doneEn = s.doneEn := rfl
@[simp] theorem withInbox_ovrEn (l : List Event) : (s.withInbox l).ovrEn = s.ovrEn := rfl
@[simp] theorem withInbox_time (l : List Event) : (s.withInbox l).time = s.time := rfl
@[simp] theorem withInbox_period (l : List Event) : (s.withInbox l).period = s.period := rfl
@[simp] theorem withInbox_counter (l : List Event) : (s.withInbox l).counter = s.counter := rfl
@[simp] theorem withInbox_probeBase (l : List Event) : (s.withInbox l).probeBase = s.probeBase := rfl
@[simp] theorem withInbox_pidx (l : List Event) : (s.withInbox l).pidx = s.pidx := rfl
@[simp] theorem withInbox_pskew (l : List Event) : (s.withInbox l).pskew = s.pskew := rfl
@[simp] theorem withInbox_truncOff (l : List Event) : (s.withInbox l).truncOff = s.truncOff := rfl
@[simp] theorem withInbox_truncVal (l : List Event) : (s.withInbox l).truncVal = s.truncVal := rfl
@[simp] theorem withInbox_result (l : List Event) : (s.withInbox l).result = s.result := rfl
@[simp] theorem withInbox_codeLen (l : List Event) : (s.withInbox l).codeLen = s.codeLen := rfl
@[simp] theorem withInbox_code (l : List Event) : (s.withInbox l).code = s.code := rfl
@[simp] theorem withInbox_candLen (l : List Event) : (s.withInbox l).candLen = s.candLen := rfl
@[simp] theorem withInbox_cand (l : List Event) : (s.withInbox l).cand = s.cand := rfl
@[simp] theorem withInbox_digest (l : List Event) : (s.withInbox l).digest = s.digest := rfl
@[simp] theorem withInbox_busy (l : List Event) : (s.withInbox l).busy = s.busy := rfl
@[simp] theorem withInbox_pendOp (l : List Event) : (s.withInbox l).pendOp = s.pendOp := rfl
@[simp] theorem withInbox_rst (l : List Event) : (s.withInbox l).rst = s.rst := rfl
@[simp] theorem withInbox_inbox (l : List Event) : (s.withInbox l).inbox = l := rfl
@[simp] theorem withInbox_busOut (l : List Event) : (s.withInbox l).busOut = s.busOut := rfl
@[simp] theorem withInbox_draws (l : List Event) : (s.withInbox l).draws = s.draws := rfl

@[simp] theorem softReset_alg : (s.softReset).alg = State.reset.alg := rfl
@[simp] theorem softReset_digits : (s.softReset).digits = State.reset.digits := rfl
@[simp] theorem softReset_skew : (s.softReset).skew = State.reset.skew := rfl
@[simp] theorem softReset_matched : (s.softReset).matched = State.reset.matched := rfl
@[simp] theorem softReset_err : (s.softReset).err = State.reset.err := rfl
@[simp] theorem softReset_pstate : (s.softReset).pstate = State.reset.pstate := rfl
@[simp] theorem softReset_done : (s.softReset).done = s.done := rfl
@[simp] theorem softReset_ovr : (s.softReset).ovr = s.ovr := rfl
@[simp] theorem softReset_doneEn : (s.softReset).doneEn = s.doneEn := rfl
@[simp] theorem softReset_ovrEn : (s.softReset).ovrEn = s.ovrEn := rfl
@[simp] theorem softReset_time : (s.softReset).time = State.reset.time := rfl
@[simp] theorem softReset_period : (s.softReset).period = State.reset.period := rfl
@[simp] theorem softReset_counter : (s.softReset).counter = State.reset.counter := rfl
@[simp] theorem softReset_probeBase : (s.softReset).probeBase = State.reset.probeBase := rfl
@[simp] theorem softReset_pidx : (s.softReset).pidx = State.reset.pidx := rfl
@[simp] theorem softReset_pskew : (s.softReset).pskew = State.reset.pskew := rfl
@[simp] theorem softReset_truncOff : (s.softReset).truncOff = State.reset.truncOff := rfl
@[simp] theorem softReset_truncVal : (s.softReset).truncVal = State.reset.truncVal := rfl
@[simp] theorem softReset_result : (s.softReset).result = State.reset.result := rfl
@[simp] theorem softReset_codeLen : (s.softReset).codeLen = State.reset.codeLen := rfl
@[simp] theorem softReset_code : (s.softReset).code = State.reset.code := rfl
@[simp] theorem softReset_candLen : (s.softReset).candLen = State.reset.candLen := rfl
@[simp] theorem softReset_cand : (s.softReset).cand = State.reset.cand := rfl
@[simp] theorem softReset_digest : (s.softReset).digest = State.reset.digest := rfl
@[simp] theorem softReset_busy : (s.softReset).busy = s.busy := rfl
@[simp] theorem softReset_pendOp : (s.softReset).pendOp = s.pendOp := rfl
@[simp] theorem softReset_rst : (s.softReset).rst = s.rst := rfl
@[simp] theorem softReset_inbox : (s.softReset).inbox = s.inbox := rfl
@[simp] theorem softReset_busOut : (s.softReset).busOut = s.busOut := rfl
@[simp] theorem softReset_draws : (s.softReset).draws = s.draws := rfl

@[simp] theorem powerOnReset_alg : (s.powerOnReset).alg = State.reset.alg := rfl
@[simp] theorem powerOnReset_digits : (s.powerOnReset).digits = State.reset.digits := rfl
@[simp] theorem powerOnReset_skew : (s.powerOnReset).skew = State.reset.skew := rfl
@[simp] theorem powerOnReset_matched : (s.powerOnReset).matched = State.reset.matched := rfl
@[simp] theorem powerOnReset_err : (s.powerOnReset).err = State.reset.err := rfl
@[simp] theorem powerOnReset_pstate : (s.powerOnReset).pstate = State.reset.pstate := rfl
@[simp] theorem powerOnReset_done : (s.powerOnReset).done = State.reset.done := rfl
@[simp] theorem powerOnReset_ovr : (s.powerOnReset).ovr = State.reset.ovr := rfl
@[simp] theorem powerOnReset_doneEn : (s.powerOnReset).doneEn = State.reset.doneEn := rfl
@[simp] theorem powerOnReset_ovrEn : (s.powerOnReset).ovrEn = State.reset.ovrEn := rfl
@[simp] theorem powerOnReset_time : (s.powerOnReset).time = State.reset.time := rfl
@[simp] theorem powerOnReset_period : (s.powerOnReset).period = State.reset.period := rfl
@[simp] theorem powerOnReset_counter : (s.powerOnReset).counter = State.reset.counter := rfl
@[simp] theorem powerOnReset_probeBase : (s.powerOnReset).probeBase = State.reset.probeBase := rfl
@[simp] theorem powerOnReset_pidx : (s.powerOnReset).pidx = State.reset.pidx := rfl
@[simp] theorem powerOnReset_pskew : (s.powerOnReset).pskew = State.reset.pskew := rfl
@[simp] theorem powerOnReset_truncOff : (s.powerOnReset).truncOff = State.reset.truncOff := rfl
@[simp] theorem powerOnReset_truncVal : (s.powerOnReset).truncVal = State.reset.truncVal := rfl
@[simp] theorem powerOnReset_result : (s.powerOnReset).result = State.reset.result := rfl
@[simp] theorem powerOnReset_codeLen : (s.powerOnReset).codeLen = State.reset.codeLen := rfl
@[simp] theorem powerOnReset_code : (s.powerOnReset).code = State.reset.code := rfl
@[simp] theorem powerOnReset_candLen : (s.powerOnReset).candLen = State.reset.candLen := rfl
@[simp] theorem powerOnReset_cand : (s.powerOnReset).cand = State.reset.cand := rfl
@[simp] theorem powerOnReset_digest : (s.powerOnReset).digest = State.reset.digest := rfl
@[simp] theorem powerOnReset_busy : (s.powerOnReset).busy = State.reset.busy := rfl
@[simp] theorem powerOnReset_pendOp : (s.powerOnReset).pendOp = State.reset.pendOp := rfl
@[simp] theorem powerOnReset_rst : (s.powerOnReset).rst = State.reset.rst := rfl
@[simp] theorem powerOnReset_inbox : (s.powerOnReset).inbox = s.inbox := rfl
@[simp] theorem powerOnReset_busOut : (s.powerOnReset).busOut = s.busOut := rfl
@[simp] theorem powerOnReset_draws : (s.powerOnReset).draws = s.draws := rfl

@[simp] theorem withCtrl_alg (a : Alg) (d : BitVec 4) (k : BitVec 8) : (s.withCtrl a d k).alg = a := rfl
@[simp] theorem withCtrl_digits (a : Alg) (d : BitVec 4) (k : BitVec 8) : (s.withCtrl a d k).digits = d := rfl
@[simp] theorem withCtrl_skew (a : Alg) (d : BitVec 4) (k : BitVec 8) : (s.withCtrl a d k).skew = k := rfl
@[simp] theorem withCtrl_matched (a : Alg) (d : BitVec 4) (k : BitVec 8) : (s.withCtrl a d k).matched = s.matched := rfl
@[simp] theorem withCtrl_err (a : Alg) (d : BitVec 4) (k : BitVec 8) : (s.withCtrl a d k).err = s.err := rfl
@[simp] theorem withCtrl_pstate (a : Alg) (d : BitVec 4) (k : BitVec 8) : (s.withCtrl a d k).pstate = s.pstate := rfl
@[simp] theorem withCtrl_done (a : Alg) (d : BitVec 4) (k : BitVec 8) : (s.withCtrl a d k).done = s.done := rfl
@[simp] theorem withCtrl_ovr (a : Alg) (d : BitVec 4) (k : BitVec 8) : (s.withCtrl a d k).ovr = s.ovr := rfl
@[simp] theorem withCtrl_doneEn (a : Alg) (d : BitVec 4) (k : BitVec 8) : (s.withCtrl a d k).doneEn = s.doneEn := rfl
@[simp] theorem withCtrl_ovrEn (a : Alg) (d : BitVec 4) (k : BitVec 8) : (s.withCtrl a d k).ovrEn = s.ovrEn := rfl
@[simp] theorem withCtrl_time (a : Alg) (d : BitVec 4) (k : BitVec 8) : (s.withCtrl a d k).time = s.time := rfl
@[simp] theorem withCtrl_period (a : Alg) (d : BitVec 4) (k : BitVec 8) : (s.withCtrl a d k).period = s.period := rfl
@[simp] theorem withCtrl_counter (a : Alg) (d : BitVec 4) (k : BitVec 8) : (s.withCtrl a d k).counter = s.counter := rfl
@[simp] theorem withCtrl_probeBase (a : Alg) (d : BitVec 4) (k : BitVec 8) : (s.withCtrl a d k).probeBase = s.probeBase := rfl
@[simp] theorem withCtrl_pidx (a : Alg) (d : BitVec 4) (k : BitVec 8) : (s.withCtrl a d k).pidx = s.pidx := rfl
@[simp] theorem withCtrl_pskew (a : Alg) (d : BitVec 4) (k : BitVec 8) : (s.withCtrl a d k).pskew = s.pskew := rfl
@[simp] theorem withCtrl_truncOff (a : Alg) (d : BitVec 4) (k : BitVec 8) : (s.withCtrl a d k).truncOff = s.truncOff := rfl
@[simp] theorem withCtrl_truncVal (a : Alg) (d : BitVec 4) (k : BitVec 8) : (s.withCtrl a d k).truncVal = s.truncVal := rfl
@[simp] theorem withCtrl_result (a : Alg) (d : BitVec 4) (k : BitVec 8) : (s.withCtrl a d k).result = s.result := rfl
@[simp] theorem withCtrl_codeLen (a : Alg) (d : BitVec 4) (k : BitVec 8) : (s.withCtrl a d k).codeLen = s.codeLen := rfl
@[simp] theorem withCtrl_code (a : Alg) (d : BitVec 4) (k : BitVec 8) : (s.withCtrl a d k).code = s.code := rfl
@[simp] theorem withCtrl_candLen (a : Alg) (d : BitVec 4) (k : BitVec 8) : (s.withCtrl a d k).candLen = s.candLen := rfl
@[simp] theorem withCtrl_cand (a : Alg) (d : BitVec 4) (k : BitVec 8) : (s.withCtrl a d k).cand = s.cand := rfl
@[simp] theorem withCtrl_digest (a : Alg) (d : BitVec 4) (k : BitVec 8) : (s.withCtrl a d k).digest = s.digest := rfl
@[simp] theorem withCtrl_busy (a : Alg) (d : BitVec 4) (k : BitVec 8) : (s.withCtrl a d k).busy = s.busy := rfl
@[simp] theorem withCtrl_pendOp (a : Alg) (d : BitVec 4) (k : BitVec 8) : (s.withCtrl a d k).pendOp = s.pendOp := rfl
@[simp] theorem withCtrl_rst (a : Alg) (d : BitVec 4) (k : BitVec 8) : (s.withCtrl a d k).rst = s.rst := rfl
@[simp] theorem withCtrl_inbox (a : Alg) (d : BitVec 4) (k : BitVec 8) : (s.withCtrl a d k).inbox = s.inbox := rfl
@[simp] theorem withCtrl_busOut (a : Alg) (d : BitVec 4) (k : BitVec 8) : (s.withCtrl a d k).busOut = s.busOut := rfl
@[simp] theorem withCtrl_draws (a : Alg) (d : BitVec 4) (k : BitVec 8) : (s.withCtrl a d k).draws = s.draws := rfl

@[simp] theorem withTime_alg (t : Word64) : (s.withTime t).alg = s.alg := rfl
@[simp] theorem withTime_digits (t : Word64) : (s.withTime t).digits = s.digits := rfl
@[simp] theorem withTime_skew (t : Word64) : (s.withTime t).skew = s.skew := rfl
@[simp] theorem withTime_matched (t : Word64) : (s.withTime t).matched = s.matched := rfl
@[simp] theorem withTime_err (t : Word64) : (s.withTime t).err = s.err := rfl
@[simp] theorem withTime_pstate (t : Word64) : (s.withTime t).pstate = s.pstate := rfl
@[simp] theorem withTime_done (t : Word64) : (s.withTime t).done = s.done := rfl
@[simp] theorem withTime_ovr (t : Word64) : (s.withTime t).ovr = s.ovr := rfl
@[simp] theorem withTime_doneEn (t : Word64) : (s.withTime t).doneEn = s.doneEn := rfl
@[simp] theorem withTime_ovrEn (t : Word64) : (s.withTime t).ovrEn = s.ovrEn := rfl
@[simp] theorem withTime_time (t : Word64) : (s.withTime t).time = t := rfl
@[simp] theorem withTime_period (t : Word64) : (s.withTime t).period = s.period := rfl
@[simp] theorem withTime_counter (t : Word64) : (s.withTime t).counter = s.counter := rfl
@[simp] theorem withTime_probeBase (t : Word64) : (s.withTime t).probeBase = s.probeBase := rfl
@[simp] theorem withTime_pidx (t : Word64) : (s.withTime t).pidx = s.pidx := rfl
@[simp] theorem withTime_pskew (t : Word64) : (s.withTime t).pskew = s.pskew := rfl
@[simp] theorem withTime_truncOff (t : Word64) : (s.withTime t).truncOff = s.truncOff := rfl
@[simp] theorem withTime_truncVal (t : Word64) : (s.withTime t).truncVal = s.truncVal := rfl
@[simp] theorem withTime_result (t : Word64) : (s.withTime t).result = s.result := rfl
@[simp] theorem withTime_codeLen (t : Word64) : (s.withTime t).codeLen = s.codeLen := rfl
@[simp] theorem withTime_code (t : Word64) : (s.withTime t).code = s.code := rfl
@[simp] theorem withTime_candLen (t : Word64) : (s.withTime t).candLen = s.candLen := rfl
@[simp] theorem withTime_cand (t : Word64) : (s.withTime t).cand = s.cand := rfl
@[simp] theorem withTime_digest (t : Word64) : (s.withTime t).digest = s.digest := rfl
@[simp] theorem withTime_busy (t : Word64) : (s.withTime t).busy = s.busy := rfl
@[simp] theorem withTime_pendOp (t : Word64) : (s.withTime t).pendOp = s.pendOp := rfl
@[simp] theorem withTime_rst (t : Word64) : (s.withTime t).rst = s.rst := rfl
@[simp] theorem withTime_inbox (t : Word64) : (s.withTime t).inbox = s.inbox := rfl
@[simp] theorem withTime_busOut (t : Word64) : (s.withTime t).busOut = s.busOut := rfl
@[simp] theorem withTime_draws (t : Word64) : (s.withTime t).draws = s.draws := rfl

@[simp] theorem withPeriod_alg (p : Word) : (s.withPeriod p).alg = s.alg := rfl
@[simp] theorem withPeriod_digits (p : Word) : (s.withPeriod p).digits = s.digits := rfl
@[simp] theorem withPeriod_skew (p : Word) : (s.withPeriod p).skew = s.skew := rfl
@[simp] theorem withPeriod_matched (p : Word) : (s.withPeriod p).matched = s.matched := rfl
@[simp] theorem withPeriod_err (p : Word) : (s.withPeriod p).err = s.err := rfl
@[simp] theorem withPeriod_pstate (p : Word) : (s.withPeriod p).pstate = s.pstate := rfl
@[simp] theorem withPeriod_done (p : Word) : (s.withPeriod p).done = s.done := rfl
@[simp] theorem withPeriod_ovr (p : Word) : (s.withPeriod p).ovr = s.ovr := rfl
@[simp] theorem withPeriod_doneEn (p : Word) : (s.withPeriod p).doneEn = s.doneEn := rfl
@[simp] theorem withPeriod_ovrEn (p : Word) : (s.withPeriod p).ovrEn = s.ovrEn := rfl
@[simp] theorem withPeriod_time (p : Word) : (s.withPeriod p).time = s.time := rfl
@[simp] theorem withPeriod_period (p : Word) : (s.withPeriod p).period = p := rfl
@[simp] theorem withPeriod_counter (p : Word) : (s.withPeriod p).counter = s.counter := rfl
@[simp] theorem withPeriod_probeBase (p : Word) : (s.withPeriod p).probeBase = s.probeBase := rfl
@[simp] theorem withPeriod_pidx (p : Word) : (s.withPeriod p).pidx = s.pidx := rfl
@[simp] theorem withPeriod_pskew (p : Word) : (s.withPeriod p).pskew = s.pskew := rfl
@[simp] theorem withPeriod_truncOff (p : Word) : (s.withPeriod p).truncOff = s.truncOff := rfl
@[simp] theorem withPeriod_truncVal (p : Word) : (s.withPeriod p).truncVal = s.truncVal := rfl
@[simp] theorem withPeriod_result (p : Word) : (s.withPeriod p).result = s.result := rfl
@[simp] theorem withPeriod_codeLen (p : Word) : (s.withPeriod p).codeLen = s.codeLen := rfl
@[simp] theorem withPeriod_code (p : Word) : (s.withPeriod p).code = s.code := rfl
@[simp] theorem withPeriod_candLen (p : Word) : (s.withPeriod p).candLen = s.candLen := rfl
@[simp] theorem withPeriod_cand (p : Word) : (s.withPeriod p).cand = s.cand := rfl
@[simp] theorem withPeriod_digest (p : Word) : (s.withPeriod p).digest = s.digest := rfl
@[simp] theorem withPeriod_busy (p : Word) : (s.withPeriod p).busy = s.busy := rfl
@[simp] theorem withPeriod_pendOp (p : Word) : (s.withPeriod p).pendOp = s.pendOp := rfl
@[simp] theorem withPeriod_rst (p : Word) : (s.withPeriod p).rst = s.rst := rfl
@[simp] theorem withPeriod_inbox (p : Word) : (s.withPeriod p).inbox = s.inbox := rfl
@[simp] theorem withPeriod_busOut (p : Word) : (s.withPeriod p).busOut = s.busOut := rfl
@[simp] theorem withPeriod_draws (p : Word) : (s.withPeriod p).draws = s.draws := rfl

@[simp] theorem withCandLen_alg (n : Word) : (s.withCandLen n).alg = s.alg := rfl
@[simp] theorem withCandLen_digits (n : Word) : (s.withCandLen n).digits = s.digits := rfl
@[simp] theorem withCandLen_skew (n : Word) : (s.withCandLen n).skew = s.skew := rfl
@[simp] theorem withCandLen_matched (n : Word) : (s.withCandLen n).matched = s.matched := rfl
@[simp] theorem withCandLen_err (n : Word) : (s.withCandLen n).err = s.err := rfl
@[simp] theorem withCandLen_pstate (n : Word) : (s.withCandLen n).pstate = s.pstate := rfl
@[simp] theorem withCandLen_done (n : Word) : (s.withCandLen n).done = s.done := rfl
@[simp] theorem withCandLen_ovr (n : Word) : (s.withCandLen n).ovr = s.ovr := rfl
@[simp] theorem withCandLen_doneEn (n : Word) : (s.withCandLen n).doneEn = s.doneEn := rfl
@[simp] theorem withCandLen_ovrEn (n : Word) : (s.withCandLen n).ovrEn = s.ovrEn := rfl
@[simp] theorem withCandLen_time (n : Word) : (s.withCandLen n).time = s.time := rfl
@[simp] theorem withCandLen_period (n : Word) : (s.withCandLen n).period = s.period := rfl
@[simp] theorem withCandLen_counter (n : Word) : (s.withCandLen n).counter = s.counter := rfl
@[simp] theorem withCandLen_probeBase (n : Word) : (s.withCandLen n).probeBase = s.probeBase := rfl
@[simp] theorem withCandLen_pidx (n : Word) : (s.withCandLen n).pidx = s.pidx := rfl
@[simp] theorem withCandLen_pskew (n : Word) : (s.withCandLen n).pskew = s.pskew := rfl
@[simp] theorem withCandLen_truncOff (n : Word) : (s.withCandLen n).truncOff = s.truncOff := rfl
@[simp] theorem withCandLen_truncVal (n : Word) : (s.withCandLen n).truncVal = s.truncVal := rfl
@[simp] theorem withCandLen_result (n : Word) : (s.withCandLen n).result = s.result := rfl
@[simp] theorem withCandLen_codeLen (n : Word) : (s.withCandLen n).codeLen = s.codeLen := rfl
@[simp] theorem withCandLen_code (n : Word) : (s.withCandLen n).code = s.code := rfl
@[simp] theorem withCandLen_candLen (n : Word) : (s.withCandLen n).candLen = n := rfl
@[simp] theorem withCandLen_cand (n : Word) : (s.withCandLen n).cand = s.cand := rfl
@[simp] theorem withCandLen_digest (n : Word) : (s.withCandLen n).digest = s.digest := rfl
@[simp] theorem withCandLen_busy (n : Word) : (s.withCandLen n).busy = s.busy := rfl
@[simp] theorem withCandLen_pendOp (n : Word) : (s.withCandLen n).pendOp = s.pendOp := rfl
@[simp] theorem withCandLen_rst (n : Word) : (s.withCandLen n).rst = s.rst := rfl
@[simp] theorem withCandLen_inbox (n : Word) : (s.withCandLen n).inbox = s.inbox := rfl
@[simp] theorem withCandLen_busOut (n : Word) : (s.withCandLen n).busOut = s.busOut := rfl
@[simp] theorem withCandLen_draws (n : Word) : (s.withCandLen n).draws = s.draws := rfl

@[simp] theorem withCand_alg (c : Vector Byte 16) : (s.withCand c).alg = s.alg := rfl
@[simp] theorem withCand_digits (c : Vector Byte 16) : (s.withCand c).digits = s.digits := rfl
@[simp] theorem withCand_skew (c : Vector Byte 16) : (s.withCand c).skew = s.skew := rfl
@[simp] theorem withCand_matched (c : Vector Byte 16) : (s.withCand c).matched = s.matched := rfl
@[simp] theorem withCand_err (c : Vector Byte 16) : (s.withCand c).err = s.err := rfl
@[simp] theorem withCand_pstate (c : Vector Byte 16) : (s.withCand c).pstate = s.pstate := rfl
@[simp] theorem withCand_done (c : Vector Byte 16) : (s.withCand c).done = s.done := rfl
@[simp] theorem withCand_ovr (c : Vector Byte 16) : (s.withCand c).ovr = s.ovr := rfl
@[simp] theorem withCand_doneEn (c : Vector Byte 16) : (s.withCand c).doneEn = s.doneEn := rfl
@[simp] theorem withCand_ovrEn (c : Vector Byte 16) : (s.withCand c).ovrEn = s.ovrEn := rfl
@[simp] theorem withCand_time (c : Vector Byte 16) : (s.withCand c).time = s.time := rfl
@[simp] theorem withCand_period (c : Vector Byte 16) : (s.withCand c).period = s.period := rfl
@[simp] theorem withCand_counter (c : Vector Byte 16) : (s.withCand c).counter = s.counter := rfl
@[simp] theorem withCand_probeBase (c : Vector Byte 16) : (s.withCand c).probeBase = s.probeBase := rfl
@[simp] theorem withCand_pidx (c : Vector Byte 16) : (s.withCand c).pidx = s.pidx := rfl
@[simp] theorem withCand_pskew (c : Vector Byte 16) : (s.withCand c).pskew = s.pskew := rfl
@[simp] theorem withCand_truncOff (c : Vector Byte 16) : (s.withCand c).truncOff = s.truncOff := rfl
@[simp] theorem withCand_truncVal (c : Vector Byte 16) : (s.withCand c).truncVal = s.truncVal := rfl
@[simp] theorem withCand_result (c : Vector Byte 16) : (s.withCand c).result = s.result := rfl
@[simp] theorem withCand_codeLen (c : Vector Byte 16) : (s.withCand c).codeLen = s.codeLen := rfl
@[simp] theorem withCand_code (c : Vector Byte 16) : (s.withCand c).code = s.code := rfl
@[simp] theorem withCand_candLen (c : Vector Byte 16) : (s.withCand c).candLen = s.candLen := rfl
@[simp] theorem withCand_cand (c : Vector Byte 16) : (s.withCand c).cand = c := rfl
@[simp] theorem withCand_digest (c : Vector Byte 16) : (s.withCand c).digest = s.digest := rfl
@[simp] theorem withCand_busy (c : Vector Byte 16) : (s.withCand c).busy = s.busy := rfl
@[simp] theorem withCand_pendOp (c : Vector Byte 16) : (s.withCand c).pendOp = s.pendOp := rfl
@[simp] theorem withCand_rst (c : Vector Byte 16) : (s.withCand c).rst = s.rst := rfl
@[simp] theorem withCand_inbox (c : Vector Byte 16) : (s.withCand c).inbox = s.inbox := rfl
@[simp] theorem withCand_busOut (c : Vector Byte 16) : (s.withCand c).busOut = s.busOut := rfl
@[simp] theorem withCand_draws (c : Vector Byte 16) : (s.withCand c).draws = s.draws := rfl

@[simp] theorem withDigest_alg (g : Vector Byte 64) : (s.withDigest g).alg = s.alg := rfl
@[simp] theorem withDigest_digits (g : Vector Byte 64) : (s.withDigest g).digits = s.digits := rfl
@[simp] theorem withDigest_skew (g : Vector Byte 64) : (s.withDigest g).skew = s.skew := rfl
@[simp] theorem withDigest_matched (g : Vector Byte 64) : (s.withDigest g).matched = s.matched := rfl
@[simp] theorem withDigest_err (g : Vector Byte 64) : (s.withDigest g).err = s.err := rfl
@[simp] theorem withDigest_pstate (g : Vector Byte 64) : (s.withDigest g).pstate = s.pstate := rfl
@[simp] theorem withDigest_done (g : Vector Byte 64) : (s.withDigest g).done = s.done := rfl
@[simp] theorem withDigest_ovr (g : Vector Byte 64) : (s.withDigest g).ovr = s.ovr := rfl
@[simp] theorem withDigest_doneEn (g : Vector Byte 64) : (s.withDigest g).doneEn = s.doneEn := rfl
@[simp] theorem withDigest_ovrEn (g : Vector Byte 64) : (s.withDigest g).ovrEn = s.ovrEn := rfl
@[simp] theorem withDigest_time (g : Vector Byte 64) : (s.withDigest g).time = s.time := rfl
@[simp] theorem withDigest_period (g : Vector Byte 64) : (s.withDigest g).period = s.period := rfl
@[simp] theorem withDigest_counter (g : Vector Byte 64) : (s.withDigest g).counter = s.counter := rfl
@[simp] theorem withDigest_probeBase (g : Vector Byte 64) : (s.withDigest g).probeBase = s.probeBase := rfl
@[simp] theorem withDigest_pidx (g : Vector Byte 64) : (s.withDigest g).pidx = s.pidx := rfl
@[simp] theorem withDigest_pskew (g : Vector Byte 64) : (s.withDigest g).pskew = s.pskew := rfl
@[simp] theorem withDigest_truncOff (g : Vector Byte 64) : (s.withDigest g).truncOff = s.truncOff := rfl
@[simp] theorem withDigest_truncVal (g : Vector Byte 64) : (s.withDigest g).truncVal = s.truncVal := rfl
@[simp] theorem withDigest_result (g : Vector Byte 64) : (s.withDigest g).result = s.result := rfl
@[simp] theorem withDigest_codeLen (g : Vector Byte 64) : (s.withDigest g).codeLen = s.codeLen := rfl
@[simp] theorem withDigest_code (g : Vector Byte 64) : (s.withDigest g).code = s.code := rfl
@[simp] theorem withDigest_candLen (g : Vector Byte 64) : (s.withDigest g).candLen = s.candLen := rfl
@[simp] theorem withDigest_cand (g : Vector Byte 64) : (s.withDigest g).cand = s.cand := rfl
@[simp] theorem withDigest_digest (g : Vector Byte 64) : (s.withDigest g).digest = g := rfl
@[simp] theorem withDigest_busy (g : Vector Byte 64) : (s.withDigest g).busy = s.busy := rfl
@[simp] theorem withDigest_pendOp (g : Vector Byte 64) : (s.withDigest g).pendOp = s.pendOp := rfl
@[simp] theorem withDigest_rst (g : Vector Byte 64) : (s.withDigest g).rst = s.rst := rfl
@[simp] theorem withDigest_inbox (g : Vector Byte 64) : (s.withDigest g).inbox = s.inbox := rfl
@[simp] theorem withDigest_busOut (g : Vector Byte 64) : (s.withDigest g).busOut = s.busOut := rfl
@[simp] theorem withDigest_draws (g : Vector Byte 64) : (s.withDigest g).draws = s.draws := rfl

@[simp] theorem withIntStatus_alg (d o : Bool) : (s.withIntStatus d o).alg = s.alg := rfl
@[simp] theorem withIntStatus_digits (d o : Bool) : (s.withIntStatus d o).digits = s.digits := rfl
@[simp] theorem withIntStatus_skew (d o : Bool) : (s.withIntStatus d o).skew = s.skew := rfl
@[simp] theorem withIntStatus_matched (d o : Bool) : (s.withIntStatus d o).matched = s.matched := rfl
@[simp] theorem withIntStatus_err (d o : Bool) : (s.withIntStatus d o).err = s.err := rfl
@[simp] theorem withIntStatus_pstate (d o : Bool) : (s.withIntStatus d o).pstate = s.pstate := rfl
@[simp] theorem withIntStatus_done (d o : Bool) : (s.withIntStatus d o).done = d := rfl
@[simp] theorem withIntStatus_ovr (d o : Bool) : (s.withIntStatus d o).ovr = o := rfl
@[simp] theorem withIntStatus_doneEn (d o : Bool) : (s.withIntStatus d o).doneEn = s.doneEn := rfl
@[simp] theorem withIntStatus_ovrEn (d o : Bool) : (s.withIntStatus d o).ovrEn = s.ovrEn := rfl
@[simp] theorem withIntStatus_time (d o : Bool) : (s.withIntStatus d o).time = s.time := rfl
@[simp] theorem withIntStatus_period (d o : Bool) : (s.withIntStatus d o).period = s.period := rfl
@[simp] theorem withIntStatus_counter (d o : Bool) : (s.withIntStatus d o).counter = s.counter := rfl
@[simp] theorem withIntStatus_probeBase (d o : Bool) : (s.withIntStatus d o).probeBase = s.probeBase := rfl
@[simp] theorem withIntStatus_pidx (d o : Bool) : (s.withIntStatus d o).pidx = s.pidx := rfl
@[simp] theorem withIntStatus_pskew (d o : Bool) : (s.withIntStatus d o).pskew = s.pskew := rfl
@[simp] theorem withIntStatus_truncOff (d o : Bool) : (s.withIntStatus d o).truncOff = s.truncOff := rfl
@[simp] theorem withIntStatus_truncVal (d o : Bool) : (s.withIntStatus d o).truncVal = s.truncVal := rfl
@[simp] theorem withIntStatus_result (d o : Bool) : (s.withIntStatus d o).result = s.result := rfl
@[simp] theorem withIntStatus_codeLen (d o : Bool) : (s.withIntStatus d o).codeLen = s.codeLen := rfl
@[simp] theorem withIntStatus_code (d o : Bool) : (s.withIntStatus d o).code = s.code := rfl
@[simp] theorem withIntStatus_candLen (d o : Bool) : (s.withIntStatus d o).candLen = s.candLen := rfl
@[simp] theorem withIntStatus_cand (d o : Bool) : (s.withIntStatus d o).cand = s.cand := rfl
@[simp] theorem withIntStatus_digest (d o : Bool) : (s.withIntStatus d o).digest = s.digest := rfl
@[simp] theorem withIntStatus_busy (d o : Bool) : (s.withIntStatus d o).busy = s.busy := rfl
@[simp] theorem withIntStatus_pendOp (d o : Bool) : (s.withIntStatus d o).pendOp = s.pendOp := rfl
@[simp] theorem withIntStatus_rst (d o : Bool) : (s.withIntStatus d o).rst = s.rst := rfl
@[simp] theorem withIntStatus_inbox (d o : Bool) : (s.withIntStatus d o).inbox = s.inbox := rfl
@[simp] theorem withIntStatus_busOut (d o : Bool) : (s.withIntStatus d o).busOut = s.busOut := rfl
@[simp] theorem withIntStatus_draws (d o : Bool) : (s.withIntStatus d o).draws = s.draws := rfl

@[simp] theorem withIntEnable_alg (d o : Bool) : (s.withIntEnable d o).alg = s.alg := rfl
@[simp] theorem withIntEnable_digits (d o : Bool) : (s.withIntEnable d o).digits = s.digits := rfl
@[simp] theorem withIntEnable_skew (d o : Bool) : (s.withIntEnable d o).skew = s.skew := rfl
@[simp] theorem withIntEnable_matched (d o : Bool) : (s.withIntEnable d o).matched = s.matched := rfl
@[simp] theorem withIntEnable_err (d o : Bool) : (s.withIntEnable d o).err = s.err := rfl
@[simp] theorem withIntEnable_pstate (d o : Bool) : (s.withIntEnable d o).pstate = s.pstate := rfl
@[simp] theorem withIntEnable_done (d o : Bool) : (s.withIntEnable d o).done = s.done := rfl
@[simp] theorem withIntEnable_ovr (d o : Bool) : (s.withIntEnable d o).ovr = s.ovr := rfl
@[simp] theorem withIntEnable_doneEn (d o : Bool) : (s.withIntEnable d o).doneEn = d := rfl
@[simp] theorem withIntEnable_ovrEn (d o : Bool) : (s.withIntEnable d o).ovrEn = o := rfl
@[simp] theorem withIntEnable_time (d o : Bool) : (s.withIntEnable d o).time = s.time := rfl
@[simp] theorem withIntEnable_period (d o : Bool) : (s.withIntEnable d o).period = s.period := rfl
@[simp] theorem withIntEnable_counter (d o : Bool) : (s.withIntEnable d o).counter = s.counter := rfl
@[simp] theorem withIntEnable_probeBase (d o : Bool) : (s.withIntEnable d o).probeBase = s.probeBase := rfl
@[simp] theorem withIntEnable_pidx (d o : Bool) : (s.withIntEnable d o).pidx = s.pidx := rfl
@[simp] theorem withIntEnable_pskew (d o : Bool) : (s.withIntEnable d o).pskew = s.pskew := rfl
@[simp] theorem withIntEnable_truncOff (d o : Bool) : (s.withIntEnable d o).truncOff = s.truncOff := rfl
@[simp] theorem withIntEnable_truncVal (d o : Bool) : (s.withIntEnable d o).truncVal = s.truncVal := rfl
@[simp] theorem withIntEnable_result (d o : Bool) : (s.withIntEnable d o).result = s.result := rfl
@[simp] theorem withIntEnable_codeLen (d o : Bool) : (s.withIntEnable d o).codeLen = s.codeLen := rfl
@[simp] theorem withIntEnable_code (d o : Bool) : (s.withIntEnable d o).code = s.code := rfl
@[simp] theorem withIntEnable_candLen (d o : Bool) : (s.withIntEnable d o).candLen = s.candLen := rfl
@[simp] theorem withIntEnable_cand (d o : Bool) : (s.withIntEnable d o).cand = s.cand := rfl
@[simp] theorem withIntEnable_digest (d o : Bool) : (s.withIntEnable d o).digest = s.digest := rfl
@[simp] theorem withIntEnable_busy (d o : Bool) : (s.withIntEnable d o).busy = s.busy := rfl
@[simp] theorem withIntEnable_pendOp (d o : Bool) : (s.withIntEnable d o).pendOp = s.pendOp := rfl
@[simp] theorem withIntEnable_rst (d o : Bool) : (s.withIntEnable d o).rst = s.rst := rfl
@[simp] theorem withIntEnable_inbox (d o : Bool) : (s.withIntEnable d o).inbox = s.inbox := rfl
@[simp] theorem withIntEnable_busOut (d o : Bool) : (s.withIntEnable d o).busOut = s.busOut := rfl
@[simp] theorem withIntEnable_draws (d o : Bool) : (s.withIntEnable d o).draws = s.draws := rfl

end Sys2Proof.Machine.State
end

