-- ==== Sys2Proof/Laws/Ops.lean ====
section
/-! SUPPORT. One lemma for each shared operation of Machine/Ops.lean that says what it can do. -/

namespace Sys2Proof.Machine

@[simp] theorem complete_eq (s : State) : complete s = .next (s.completed .none) := rfl
@[simp] theorem raise_eq (s : State) (e : ErrCode) : raise s e = .next (s.completed e) := rfl
@[simp] theorem raiseNoMatch_eq (s : State) (e : ErrCode) :
    raiseNoMatch s e = .next ((s.withMatch false).completed e) := rfl
@[simp] theorem raiseAbort_eq (s : State) (e : ErrCode) :
    raiseAbort s e = .next (((s.withMatch false).withPState .aborted).completed e) := rfl

theorem digitsOk_iff (s : State) : digitsOk s.digits = true ↔ DigitsLegal s := by
  simp [digitsOk, DigitsLegal, digitsNat]

theorem candLenOk_iff (s : State) : candLenOk s = true ↔ CandLenIsDigits s := by
  have h : (s.digits.setWidth 32).toNat = s.digits.toNat := by
    simp [BitVec.toNat_setWidth]
    omega
  rw [candLenOk, beq_iff_eq, ← BitVec.toNat_inj, h]
  rfl

theorem offsetNat_eq (s : State) : (truncOffset s.alg s.digest).toNat = offsetNat s := by
  simp [truncOffset, offsetNat, BitVec.extractLsb'_toNat]

/-- The truncation's offset is below 16 (R77: "4 bits, 0..15"). -/
theorem offsetNat_lt (s : State) : offsetNat s < 16 := by
  unfold offsetNat
  omega

/-- R77: the range check of `dt` fires exactly where the spec says. -/
theorem pastDigest_iff (s : State) : digestLen s.alg - 1 < offsetNat s + 3 ↔ PastDigest s := by
  have := offsetNat_lt s
  cases h : s.alg <;> simp [PastDigest, digestLen, h] <;> omega

/-- R77: the four bytes as a number below 2^31; the shifts place disjoint bytes. -/
theorem extract31_toNat (g : Vector Byte 64) (off : Nat) :
    (extract31 g off).toNat = ((byteAt g off).toNat % 128) * 2 ^ 24 + (byteAt g (off + 1)).toNat * 2 ^ 16
      + (byteAt g (off + 2)).toNat * 2 ^ 8 + (byteAt g (off + 3)).toNat := by
  unfold extract31
  generalize byteAt g off = a
  generalize byteAt g (off + 1) = b
  generalize byteAt g (off + 2) = c
  generalize byteAt g (off + 3) = d
  have ha : a.toNat &&& 127 = a.toNat % 128 := Nat.and_two_pow_sub_one_eq_mod _ 7
  have hb := b.isLt
  have hc := c.isLt
  have hd := d.isLt
  have hm := Nat.mod_lt a.toNat (show 0 < 128 by decide)
  have join (x y k : Nat) (h : y < 2 ^ k) (hx : x * 2 ^ k < 2 ^ 32) : x * 2 ^ k % 2 ^ 32 ||| y = x * 2 ^ k + y := by
    rw [Nat.mod_eq_of_lt hx, ← Nat.shiftLeft_eq, Nat.shiftLeft_add_eq_or_of_lt h]
  simp only [BitVec.toNat_or, BitVec.toNat_shiftLeft, BitVec.toNat_setWidth, BitVec.toNat_and, BitVec.toNat_ofNat,
    Nat.shiftLeft_eq]
  rw [show 127 % 2 ^ 8 = 127 from rfl, ha, Nat.mod_eq_of_lt (a := a.toNat % 128) (by omega),
    Nat.mod_eq_of_lt (a := b.toNat) (by omega), Nat.mod_eq_of_lt (a := c.toNat) (by omega),
    Nat.mod_eq_of_lt (a := d.toNat) (by omega), Nat.or_assoc, Nat.or_assoc, join _ _ 8 (by omega) (by omega),
    join _ _ 16 (by omega) (by omega), join _ _ 24 (by omega) (by omega)]
  omega

/-- The value of R77 fits 31 bits. -/
theorem valueNat_lt (s : State) : valueNat s < 2 ^ 31 := by
  have h1 := (byteAt s.digest (offsetNat s + 1)).isLt
  have h2 := (byteAt s.digest (offsetNat s + 2)).isLt
  have h3 := (byteAt s.digest (offsetNat s + 3)).isLt
  unfold valueNat
  omega

/-- R77: everything `dt` can do. -/
theorem dt_cases (s : State) :
    (PastDigest s ∧ dt s = .error .truncRange) ∨
    (¬ PastDigest s ∧ ∃ off v, dt s = .ok (off, v) ∧ off.toNat = offsetNat s ∧ v.toNat = valueNat s) := by
  by_cases h : PastDigest s
  · exact .inl ⟨h, by simp [dt, offsetNat_eq, (pastDigest_iff s).mpr h]⟩
  · refine .inr ⟨h, truncOffset s.alg s.digest, (extract31 s.digest (offsetNat s)).setWidth 31, ?_, offsetNat_eq s, ?_⟩
    · simp [dt, offsetNat_eq, mt (pastDigest_iff s).mp h]
    · have := valueNat_lt s
      rw [BitVec.toNat_setWidth, extract31_toNat]
      exact Nat.mod_eq_of_lt this

/-- A code value fits RESULT's 30 bits (R34, R79). -/
theorem mod_pow_digits_lt (v d : Nat) (h : d ≤ 9) : v % 10 ^ d < 2 ^ 30 := by
  have h1 : v % 10 ^ d < 10 ^ d := Nat.mod_lt _ (Nat.pow_pos (by decide))
  have h2 : 10 ^ d ≤ 10 ^ 9 := Nat.pow_le_pow_right (by decide) h
  omega

/-- The code registers hold the code of `v` once RESULT, CODE_LEN and CODE hold its value, length and bytes. -/
theorem codeIs_of (t : State) (v d : Nat) (hr : t.result.toNat = v % 10 ^ d) (hl : t.codeLen.toNat = d)
    (hc : t.code = codeBytes (v % 10 ^ d) d) : CodeIs t v d where
  result := by
    have := t.result.isLt
    simp only [readReg, BitVec.toNat_setWidth]
    omega
  codeLen := by
    have := t.codeLen.isLt
    simp only [readReg, BitVec.toNat_setWidth]
    omega
  chars i hi := by rw [hc, codeBytes_toNat _ _ _ hi]

/-- R78: everything `fmt` can do. -/
theorem fmt_cases (v : BitVec 31) (d : BitVec 4) :
    (digitsOk d = false ∧ fmt v d = .error .invalidDigits) ∨
    (digitsOk d = true ∧ ∃ r, fmt v d = .ok (r, codeBytes (v.toNat % 10 ^ d.toNat) d.toNat)
      ∧ r.toNat = v.toNat % 10 ^ d.toNat) := by
  cases h : digitsOk d with
  | false => exact .inl ⟨rfl, by simp [fmt, h]⟩
  | true =>
    have hd : d.toNat ≤ 9 := by
      simp [digitsOk] at h
      exact h.2
    refine .inr ⟨rfl, BitVec.ofNat 30 (v.toNat % 10 ^ d.toNat), by simp [fmt, h], ?_⟩
    rw [BitVec.toNat_ofNat]
    exact Nat.mod_eq_of_lt (mod_pow_digits_lt _ _ hd)

/-- R82: everything `recompute` can do when DIGITS is legal. The written state differs from `s` in TRUNC_OFF, TRUNC_VAL,
RESULT, CODE_LEN and CODE only. -/
theorem recompute_cases (s : State) (hd : DigitsLegal s) :
    (PastDigest s ∧ recompute s = .error .truncRange) ∨
    (¬ PastDigest s ∧ ∃ off v r, recompute s = .ok ((s.withTrunc off v).withCode r s.digits
        (codeBytes (valueNat s % 10 ^ digitsNat s) (digitsNat s)))
      ∧ off.toNat = offsetNat s ∧ v.toNat = valueNat s ∧ r.toNat = valueNat s % 10 ^ digitsNat s) := by
  obtain ⟨hp, h⟩ | ⟨hp, off, v, h, ho, hv⟩ := dt_cases s
  · exact .inl ⟨hp, by simp [recompute, h]⟩
  · obtain ⟨hn, -⟩ | ⟨-, r, hf, hr⟩ := fmt_cases v s.digits
    · simp [(digitsOk_iff s).mpr hd] at hn
    · exact .inr ⟨hp, off, v, r, by simp [recompute, h, hf, hv, digitsNat], ho, hv, by rw [hr, hv]; rfl⟩

/-- The first position of `ct_eq` reads nothing, and each position adds its own difference (R85). -/
@[simp] theorem ctAcc_zero (a b : Vector Byte 16) : ctAcc a b 0 = 0 := rfl
@[simp] theorem ctAcc_succ (a b : Vector Byte 16) (n : Nat) :
    ctAcc a b (n + 1) = ctAcc a b n ||| (byteAt a n ^^^ byteAt b n) := rfl

/-- A byte accumulates to 0 exactly when both parts are 0. -/
theorem byte_or_eq_zero (x y : Byte) : x ||| y = 0 ↔ x = 0 ∧ y = 0 := BitVec.or_eq_zero_iff

end Sys2Proof.Machine
end

