-- ==== Sys2Proof/Laws/Regs.lean ====
section
/-! SUPPORT. Which registers each named update of State leaves as they are, as reads see them (R14 to R39). -/

namespace Sys2Proof.Machine

variable (s : State) (r : Reg)

@[simp] theorem readReg_answer (b : BusOut) : readReg (s.answer b) r = readReg s r := by cases r <;> rfl
@[simp] theorem readReg_drew : readReg s.drew r = readReg s r := by cases r <;> rfl
@[simp] theorem readReg_withInbox (l : List Event) : readReg (s.withInbox l) r = readReg s r := by cases r <;> rfl

theorem readReg_withTrunc (off : BitVec 4) (v : BitVec 31) (h : isTruncReg r = false) :
    readReg (s.withTrunc off v) r = readReg s r := by cases r <;> first | (simp [isTruncReg] at h; done) | rfl

theorem readReg_withCode (x : BitVec 30) (l : BitVec 4) (c : Vector Byte 16) (h : isCodeReg r = false) :
    readReg (s.withCode x l c) r = readReg s r := by cases r <;> first | (simp [isCodeReg] at h; done) | rfl

theorem readReg_withMatch (b : Bool) (h : r ≠ .status) : readReg (s.withMatch b) r = readReg s r := by
  cases r <;> first | exact absurd rfl h | rfl

theorem readReg_withPState (p : PState) (h : r ≠ .status) : readReg (s.withPState p) r = readReg s r := by
  cases r <;> first | exact absurd rfl h | rfl

theorem readReg_withCounter (c : Word64) (h : isCounterReg r = false) :
    readReg (s.withCounter c) r = readReg s r := by cases r <;> first | (simp [isCounterReg] at h; done) | rfl

theorem readReg_withProbe (b : Word64) (i : BitVec 10) (k : BitVec 8) (h : isProbeBaseReg r = false)
    (h' : r ≠ .probeIdx) : readReg (s.withProbe b i k) r = readReg s r := by
  cases r <;> first | exact absurd rfl h' | (simp [isProbeBaseReg] at h; done) | rfl

theorem readReg_withPidx (i : BitVec 10) (h : r ≠ .probeIdx) : readReg (s.withPidx i) r = readReg s r := by
  cases r <;> first | exact absurd rfl h | rfl

theorem readReg_withOvr (h : r ≠ .intStatus) : readReg s.withOvr r = readReg s r := by
  cases r <;> first | exact absurd rfl h | rfl

theorem readReg_accept (w : Word) (h : r ≠ .status) : readReg (s.accept w) r = readReg s r := by
  cases r <;> first | exact absurd rfl h | rfl

theorem readReg_withCtrl (a : Alg) (d : BitVec 4) (k : BitVec 8) (h : r ≠ .ctrl) :
    readReg (s.withCtrl a d k) r = readReg s r := by cases r <;> first | exact absurd rfl h | rfl

theorem readReg_withTime (t : Word64) (h : r ≠ .timeLo) (h' : r ≠ .timeHi) :
    readReg (s.withTime t) r = readReg s r := by
  cases r <;> first | exact absurd rfl h | exact absurd rfl h' | rfl

theorem readReg_withPeriod (p : Word) (h : r ≠ .period) : readReg (s.withPeriod p) r = readReg s r := by
  cases r <;> first | exact absurd rfl h | rfl

theorem readReg_withCandLen (n : Word) (h : r ≠ .candLen) : readReg (s.withCandLen n) r = readReg s r := by
  cases r <;> first | exact absurd rfl h | rfl

theorem readReg_withCand (c : Vector Byte 16) (h : ∀ k, r ≠ .cand k) : readReg (s.withCand c) r = readReg s r := by
  cases r <;> first | exact absurd rfl (h _) | rfl

theorem readReg_withDigest (g : Vector Byte 64) (h : ∀ k, r ≠ .digest k) :
    readReg (s.withDigest g) r = readReg s r := by cases r <;> first | exact absurd rfl (h _) | rfl

theorem readReg_withIntStatus (d o : Bool) (h : r ≠ .intStatus) : readReg (s.withIntStatus d o) r = readReg s r := by
  cases r <;> first | exact absurd rfl h | rfl

theorem readReg_withIntEnable (d o : Bool) (h : r ≠ .intEnable) : readReg (s.withIntEnable d o) r = readReg s r := by
  cases r <;> first | exact absurd rfl h | rfl

theorem readReg_completed (e : ErrCode) (h : r ≠ .status) (h' : r ≠ .intStatus) :
    readReg (s.completed e) r = readReg s r := by
  cases r <;> first | exact absurd rfl h | exact absurd rfl h' | rfl

theorem readReg_softReset (h : r ≠ .status) (h₁ : r ≠ .intStatus) (h₂ : r ≠ .intEnable) :
    readReg s.softReset r = readReg State.reset r := by
  cases r <;> first | exact absurd rfl h | exact absurd rfl h₁ | exact absurd rfl h₂ | rfl

@[simp] theorem readReg_powerOnReset : readReg s.powerOnReset r = readReg State.reset r := by cases r <;> rfl

end Sys2Proof.Machine
end

