-- ==== Sys2Proof/Laws/Bus.lean ====
section
/-! SUPPORT. What a store to an operand register leaves alone, field by field (R15, R68), and what a host access can do
(R48 to R50, R66 to R69). -/

namespace Sys2Proof.Machine

variable (s : State) (r : Reg) (v : Word)

@[simp] theorem storeOperand_matched : (storeOperand s r v).matched = s.matched := by cases r <;> simp [storeOperand]
@[simp] theorem storeOperand_err : (storeOperand s r v).err = s.err := by cases r <;> simp [storeOperand]
@[simp] theorem storeOperand_pstate : (storeOperand s r v).pstate = s.pstate := by cases r <;> simp [storeOperand]
@[simp] theorem storeOperand_done : (storeOperand s r v).done = s.done := by cases r <;> simp [storeOperand]
@[simp] theorem storeOperand_ovr : (storeOperand s r v).ovr = s.ovr := by cases r <;> simp [storeOperand]
@[simp] theorem storeOperand_doneEn : (storeOperand s r v).doneEn = s.doneEn := by cases r <;> simp [storeOperand]
@[simp] theorem storeOperand_ovrEn : (storeOperand s r v).ovrEn = s.ovrEn := by cases r <;> simp [storeOperand]
@[simp] theorem storeOperand_probeBase : (storeOperand s r v).probeBase = s.probeBase := by cases r <;> simp [storeOperand]
@[simp] theorem storeOperand_pidx : (storeOperand s r v).pidx = s.pidx := by cases r <;> simp [storeOperand]
@[simp] theorem storeOperand_pskew : (storeOperand s r v).pskew = s.pskew := by cases r <;> simp [storeOperand]
@[simp] theorem storeOperand_truncOff : (storeOperand s r v).truncOff = s.truncOff := by cases r <;> simp [storeOperand]
@[simp] theorem storeOperand_truncVal : (storeOperand s r v).truncVal = s.truncVal := by cases r <;> simp [storeOperand]
@[simp] theorem storeOperand_result : (storeOperand s r v).result = s.result := by cases r <;> simp [storeOperand]
@[simp] theorem storeOperand_codeLen : (storeOperand s r v).codeLen = s.codeLen := by cases r <;> simp [storeOperand]
@[simp] theorem storeOperand_code : (storeOperand s r v).code = s.code := by cases r <;> simp [storeOperand]
@[simp] theorem storeOperand_busy : (storeOperand s r v).busy = s.busy := by cases r <;> simp [storeOperand]
@[simp] theorem storeOperand_pendOp : (storeOperand s r v).pendOp = s.pendOp := by cases r <;> simp [storeOperand]
@[simp] theorem storeOperand_rst : (storeOperand s r v).rst = s.rst := by cases r <;> simp [storeOperand]
@[simp] theorem storeOperand_inbox : (storeOperand s r v).inbox = s.inbox := by cases r <;> simp [storeOperand]
@[simp] theorem storeOperand_busOut : (storeOperand s r v).busOut = s.busOut := by cases r <;> simp [storeOperand]
@[simp] theorem storeOperand_draws : (storeOperand s r v).draws = s.draws := by cases r <;> simp [storeOperand]

/-- Everything a store to an operand register can do: the named updates it is made of. -/
theorem storeOperand_cases :
    (r = .ctrl ∧ storeOperand s r v =
      s.withCtrl (Alg.ofBits (v.extractLsb' 0 2)) (v.extractLsb' 4 4) (v.extractLsb' 8 8)) ∨
    (r = .timeLo ∧ storeOperand s r v = s.withTime (setLo s.time v)) ∨
    (r = .timeHi ∧ storeOperand s r v = s.withTime (setHi s.time v)) ∨
    (r = .period ∧ storeOperand s r v = s.withPeriod v) ∨
    (r = .counterLo ∧ storeOperand s r v = s.withCounter (setLo s.counter v)) ∨
    (r = .counterHi ∧ storeOperand s r v = s.withCounter (setHi s.counter v)) ∨
    (r = .candLen ∧ storeOperand s r v = s.withCandLen v) ∨
    (∃ k, r = .cand k ∧ storeOperand s r v = s.withCand (setBufWord s.cand k v)) ∨
    (∃ k, r = .digest k ∧ storeOperand s r v = s.withDigest (setBufWord s.digest k v)) ∨
    (isOperandReg r = false ∧ storeOperand s r v = s) := by
  cases r <;> simp [storeOperand, isOperandReg]

/-- A write to an operand register is dropped or stored (R68). -/
theorem busWrite_operand (h : isOperandReg r = true) :
    busWrite s r v = if s.busy then s.withOvr else storeOperand s r v := by
  cases r <;> simp [isOperandReg] at h <;> simp [busWrite, isOperandReg]

/-- A write while BUSY changes at most OVR and the interrupt registers (R67 to R69). -/
theorem busWrite_busy (hb : s.busy = true) :
    busWrite s r v = s.withOvr ∨ busWrite s r v = clearIntStatus s v ∨ busWrite s r v = storeIntEnable s v
      ∨ busWrite s r v = s := by
  cases r <;> simp [busWrite, isOperandReg, hb]

/-- Everything a register write can do (R15, R66 to R69). -/
theorem busWrite_cases :
    (r = .cmd ∧ s.busy = false ∧ busWrite s r v = s.accept v) ∨
    (s.busy = true ∧ (r = .cmd ∨ isOperandReg r = true) ∧ busWrite s r v = s.withOvr) ∨
    (s.busy = false ∧ isOperandReg r = true ∧ busWrite s r v = storeOperand s r v) ∨
    (r = .intStatus ∧ busWrite s r v = clearIntStatus s v) ∨
    (r = .intEnable ∧ busWrite s r v = storeIntEnable s v) ∨
    busWrite s r v = s := by
  cases hb : s.busy <;> cases r <;> simp [busWrite, isOperandReg, hb]

/-- A register write takes nothing off the inbox, leaves the reset input and the free values, and answers nothing. -/
@[simp] theorem busWrite_inbox : (busWrite s r v).inbox = s.inbox := by
  obtain ⟨-, -, h⟩ | ⟨-, -, h⟩ | ⟨-, -, h⟩ | ⟨-, h⟩ | ⟨-, h⟩ | h := busWrite_cases s r v <;>
    simp [h, clearIntStatus, storeIntEnable]

@[simp] theorem busWrite_rst : (busWrite s r v).rst = s.rst := by
  obtain ⟨-, -, h⟩ | ⟨-, -, h⟩ | ⟨-, -, h⟩ | ⟨-, h⟩ | ⟨-, h⟩ | h := busWrite_cases s r v <;>
    simp [h, clearIntStatus, storeIntEnable]

@[simp] theorem busWrite_draws : (busWrite s r v).draws = s.draws := by
  obtain ⟨-, -, h⟩ | ⟨-, -, h⟩ | ⟨-, -, h⟩ | ⟨-, h⟩ | ⟨-, h⟩ | h := busWrite_cases s r v <;>
    simp [h, clearIntStatus, storeIntEnable]

@[simp] theorem writeWindow_inbox (off : Nat) (lanes : BitVec 4) : (writeWindow s off lanes v).inbox = s.inbox := by
  unfold writeWindow
  split
  · split <;> simp
  · simp

/-- A read changes no register and nothing of the command cycle (R50): only the answer and the count of free values. -/
theorem busRead_same : SameBlock s (busRead s r) ∧ (busRead s r).inbox = s.inbox := by
  unfold busRead
  split
  · split
    · simp [SameBlock]
    · split <;> simp [SameBlock]
  · simp [SameBlock]

theorem readWindow_same (off : Nat) (lanes : BitVec 4) :
    SameBlock s (readWindow s off lanes) ∧ (readWindow s off lanes).inbox = s.inbox := by
  unfold readWindow
  split
  · split
    · simp [SameBlock]
    · exact busRead_same s _
  · simp [SameBlock]

/-- The fields of a STATUS word read back (R21), and its reserved bits read 0. -/
theorem packStatus_fields (b m : Bool) (e : BitVec 4) (p : BitVec 3) :
    (packStatus b m e p).getLsbD 0 = b ∧ packStatus b m e p &&& 0xFFFFF80C#32 = 0
      ∧ (packStatus b m e p).extractLsb' 4 4 = e ∧ (packStatus b m e p).getLsbD 1 = m
      ∧ (packStatus b m e p).extractLsb' 8 3 = p := by
  revert p e
  cases b <;> cases m <;> decide

/-- STATUS shows BUSY in bit 0 (R21). -/
theorem readReg_status_busy (s : State) : (readReg s .status).getLsbD 0 = s.busy := (packStatus_fields ..).1

/-- A block that reads the same is BUSY or idle alike. -/
theorem SameBlock.busy {s t : State} (h : SameBlock s t) : t.busy = s.busy := by
  rw [← readReg_status_busy, h.1, readReg_status_busy]

theorem SameBlock.trans {s t u : State} (h : SameBlock s t) (h' : SameBlock t u) : SameBlock s u :=
  ⟨fun r => (h'.1 r).trans (h.1 r), fun hb => (h'.2.1 (h.busy.trans hb)).trans (h.2.1 hb), h'.2.2.trans h.2.2⟩

end Sys2Proof.Machine
end

