-- ==== Sys2Proof/Laws/Exec.lean ====
section
/-! SUPPORT. One lemma per command that says once everything its completion can do (R80 to R97). Later proofs cite these
and do not unfold the meanings. -/

namespace Sys2Proof.Machine

/-- What GEN, VALIDATE and PROBE_STEP write when they recompute a code (R82): the values, not how they are found. -/
def Recomputed (s t : State) : Prop :=
  ∃ off v r, t = (s.withTrunc off v).withCode r s.digits (codeBytes (valueNat s % 10 ^ digitsNat s) (digitsNat s))
    ∧ off.toNat = offsetNat s ∧ v.toNat = valueNat s ∧ r.toNat = valueNat s % 10 ^ digitsNat s

theorem execTrunc_cases (s : State) :
    (PastDigest s ∧ exec .trunc s = .next (s.completed .truncRange)) ∨
    (¬ PastDigest s ∧ ∃ off v, exec .trunc s = .next ((s.withTrunc off v).completed .none)
      ∧ off.toNat = offsetNat s ∧ v.toNat = valueNat s) := by
  obtain ⟨hp, h⟩ | ⟨hp, off, v, h, ho, hv⟩ := dt_cases s
  · exact .inl ⟨hp, by simp [exec, execTrunc, h]⟩
  · exact .inr ⟨hp, off, v, by simp [exec, execTrunc, h], ho, hv⟩

theorem execModfmt_cases (s : State) :
    (¬ DigitsLegal s ∧ exec .modfmt s = .next (s.completed .invalidDigits)) ∨
    (DigitsLegal s ∧ ∃ r, exec .modfmt s = .next ((s.withCode r s.digits
        (codeBytes (s.truncVal.toNat % 10 ^ digitsNat s) (digitsNat s))).completed .none)
      ∧ r.toNat = s.truncVal.toNat % 10 ^ digitsNat s) := by
  obtain ⟨hd, h⟩ | ⟨hd, r, h, hr⟩ := fmt_cases s.truncVal s.digits
  · exact .inl ⟨by simp [← digitsOk_iff, hd], by simp [exec, execModfmt, h]⟩
  · exact .inr ⟨(digitsOk_iff s).mp hd, r, by simp [exec, execModfmt, h, digitsNat], hr⟩

theorem execGen_cases (s : State) :
    (¬ DigitsLegal s ∧ exec .gen s = .next (s.completed .invalidDigits)) ∨
    (DigitsLegal s ∧ PastDigest s ∧ exec .gen s = .next (s.completed .truncRange)) ∨
    (DigitsLegal s ∧ ¬ PastDigest s ∧ ∃ t, Recomputed s t ∧ exec .gen s = .next (t.completed .none)) := by
  by_cases hd : DigitsLegal s
  · have hk := (digitsOk_iff s).mpr hd
    obtain ⟨hp, h⟩ | ⟨hp, off, v, r, h, hs⟩ := recompute_cases s hd
    · exact .inr (.inl ⟨hd, hp, by simp [exec, execGen, hk, h]⟩)
    · exact .inr (.inr ⟨hd, hp, _, ⟨off, v, r, rfl, hs⟩, by simp [exec, execGen, hk, h]⟩)
  · exact .inl ⟨hd, by simp [exec, execGen, mt (digitsOk_iff s).mp hd]⟩

theorem execCmp_cases (s : State) :
    (¬ DigitsLegal s ∧ exec .cmp s = .next ((s.withMatch false).completed .invalidDigits)) ∨
    (DigitsLegal s ∧ ¬ CandLenIsDigits s ∧ exec .cmp s = .next ((s.withMatch false).completed .invalidInputLength)) ∨
    (DigitsLegal s ∧ CandLenIsDigits s ∧ s.codeLen ≠ s.digits
      ∧ exec .cmp s = .next ((s.withMatch false).completed .codeStale)) ∨
    (DigitsLegal s ∧ CandLenIsDigits s ∧ s.codeLen = s.digits
      ∧ exec .cmp s = .next ((s.withMatch (ctEq s.cand s.code (digitsNat s))).completed .none)) := by
  by_cases hd : DigitsLegal s
  · have hk := (digitsOk_iff s).mpr hd
    by_cases hc : CandLenIsDigits s
    · have hl := (candLenOk_iff s).mpr hc
      by_cases he : s.codeLen = s.digits
      · exact .inr (.inr (.inr ⟨hd, hc, he, by simp [exec, execCmp, hk, hl, he, digitsNat]⟩))
      · exact .inr (.inr (.inl ⟨hd, hc, he, by simp [exec, execCmp, hk, hl, he]⟩))
    · exact .inr (.inl ⟨hd, hc, by simp [exec, execCmp, hk, mt (candLenOk_iff s).mp hc]⟩)
  · exact .inl ⟨hd, by simp [exec, execCmp, mt (digitsOk_iff s).mp hd]⟩

theorem execValidate_cases (s : State) :
    (¬ DigitsLegal s ∧ exec .validate s = .next ((s.withMatch false).completed .invalidDigits)) ∨
    (DigitsLegal s ∧ ¬ CandLenIsDigits s
      ∧ exec .validate s = .next ((s.withMatch false).completed .invalidInputLength)) ∨
    (DigitsLegal s ∧ CandLenIsDigits s ∧ PastDigest s
      ∧ exec .validate s = .next ((s.withMatch false).completed .truncRange)) ∨
    (DigitsLegal s ∧ CandLenIsDigits s ∧ ¬ PastDigest s ∧ ∃ t, Recomputed s t
      ∧ exec .validate s = .next ((t.withMatch (ctEq s.cand t.code (digitsNat s))).completed .none)) := by
  by_cases hd : DigitsLegal s
  · have hk := (digitsOk_iff s).mpr hd
    by_cases hc : CandLenIsDigits s
    · have hl := (candLenOk_iff s).mpr hc
      obtain ⟨hp, h⟩ | ⟨hp, off, v, r, h, hs⟩ := recompute_cases s hd
      · exact .inr (.inr (.inl ⟨hd, hc, hp, by simp [exec, execValidate, hk, hl, h]⟩))
      · exact .inr (.inr (.inr ⟨hd, hc, hp, _, ⟨off, v, r, rfl, hs⟩, by
          simp [exec, execValidate, hk, hl, h, digitsNat]⟩))
    · exact .inr (.inl ⟨hd, hc, by simp [exec, execValidate, hk, mt (candLenOk_iff s).mp hc]⟩)
  · exact .inl ⟨hd, by simp [exec, execValidate, mt (digitsOk_iff s).mp hd]⟩

theorem execTdiv_eq (s : State) : exec .tdiv s =
    .next ((s.withCounter (s.time / (effPeriod s.period).setWidth 64)).completed .none) := rfl

theorem execProbeStart_eq (s : State) : exec .probeStart s =
    .next (((((s.withProbe s.counter 0 s.skew).withCounter (probeCtr s.counter 0)).withPState .active).withMatch
      false).completed .none) := rfl

/-- R94: what a PROBE_STEP that has recomputed its code decides. -/
theorem probeDecide_cases (s : State) :
    (ctEq s.cand s.code s.digits.toNat = true ∧ probeDecide s = (s.withMatch true).withPState .hit) ∨
    (ctEq s.cand s.code s.digits.toNat = false ∧ s.pidx.toNat = 2 * s.pskew.toNat
      ∧ probeDecide s = (s.withMatch false).withPState .miss) ∨
    (ctEq s.cand s.code s.digits.toNat = false ∧ s.pidx.toNat ≠ 2 * s.pskew.toNat
      ∧ probeDecide s = ((s.withMatch false).withPidx (s.pidx + 1)).withCounter
          (probeCtr s.probeBase (s.pidx.toNat + 1))) := by
  unfold probeDecide
  cases h : ctEq s.cand s.code s.digits.toNat with
  | true => exact .inl ⟨rfl, by simp⟩
  | false =>
    by_cases he : s.pidx.toNat = 2 * s.pskew.toNat
    · exact .inr (.inl ⟨rfl, he, by simp [he]⟩)
    · exact .inr (.inr ⟨rfl, he, by simp [he]⟩)

theorem execProbeStep_cases (s : State) :
    (s.pstate ≠ .active ∧ exec .probeStep s = .next (s.completed .probeState)) ∨
    (s.pstate = .active ∧ ¬ DigitsLegal s
      ∧ exec .probeStep s = .next (((s.withMatch false).withPState .aborted).completed .invalidDigits)) ∨
    (s.pstate = .active ∧ DigitsLegal s ∧ ¬ CandLenIsDigits s
      ∧ exec .probeStep s = .next (((s.withMatch false).withPState .aborted).completed .invalidInputLength)) ∨
    (s.pstate = .active ∧ DigitsLegal s ∧ CandLenIsDigits s ∧ PastDigest s
      ∧ exec .probeStep s = .next (((s.withMatch false).withPState .aborted).completed .truncRange)) ∨
    (s.pstate = .active ∧ DigitsLegal s ∧ CandLenIsDigits s ∧ ¬ PastDigest s ∧ ∃ t, Recomputed s t
      ∧ exec .probeStep s = .next ((probeDecide t).completed .none)) := by
  by_cases ha : s.pstate = .active
  · by_cases hd : DigitsLegal s
    · have hk := (digitsOk_iff s).mpr hd
      by_cases hc : CandLenIsDigits s
      · have hl := (candLenOk_iff s).mpr hc
        obtain ⟨hp, h⟩ | ⟨hp, off, v, r, h, hs⟩ := recompute_cases s hd
        · exact .inr (.inr (.inr (.inl ⟨ha, hd, hc, hp, by simp [exec, execProbeStep, ha, hk, hl, h]⟩)))
        · exact .inr (.inr (.inr (.inr ⟨ha, hd, hc, hp, _, ⟨off, v, r, rfl, hs⟩, by
            simp [exec, execProbeStep, ha, hk, hl, h]⟩)))
      · exact .inr (.inr (.inl ⟨ha, hd, hc, by simp [exec, execProbeStep, ha, hk, mt (candLenOk_iff s).mp hc]⟩))
    · exact .inr (.inl ⟨ha, hd, by simp [exec, execProbeStep, ha, mt (digitsOk_iff s).mp hd]⟩)
  · exact .inl ⟨ha, by simp [exec, execProbeStep, ha]⟩

theorem execProbeClear_eq (s : State) :
    exec .probeClear s = .next (((s.withProbe 0 0 0).withPState .idle).completed .none) := rfl

theorem execSrst_eq (s : State) : exec .srst s = .next (s.softReset.completed .none) := rfl

theorem completeIllegal_eq (s : State) : completeIllegal s = .next (s.completed .illegalCmd) := rfl

end Sys2Proof.Machine
end

