-- ==== Sys2Proof/Laws/Step.lean ====
section
/-! SUPPORT. What one step does, event by event, and what a host access can do (R48, R49, R65 to R71). -/

namespace Sys2Proof.Machine

theorem step_nil (s : State) (h : s.inbox = []) : step s = completionStep s := by simp [step, h]

theorem step_cons (s : State) (e : Event) (rest : List Event) (h : s.inbox = e :: rest) :
    step s = handle e (s.withInbox rest) := by simp [step, h]

@[simp] theorem withInbox_self (s : State) : s.withInbox s.inbox = s := rfl

/-- A pending command's completion applies it (R70). -/
theorem completionStep_busy (s : State) (hb : s.busy = true) (hr : s.rst = false) :
    completionStep s = runPending s := by simp [completionStep, completionEnabled, hb, hr]

/-- With no command pending, or while reset is asserted, no completion happens (R65, R115). -/
theorem completionStep_idle (s : State) (h : s.busy = false ∨ s.rst = true) : completionStep s = .next s := by
  rcases h with h | h <;> simp [completionStep, completionEnabled, h]

theorem step_completion (s : State) (rest : List Event) (h : CompletionNext s rest) :
    step s = runPending (s.withInbox rest) := by
  obtain ⟨hb, hr, h | ⟨h, rfl⟩⟩ := h
  · rw [step_cons s _ _ h]
    exact completionStep_busy _ hb hr
  · rw [step_nil s h, completionStep_busy s hb hr, ← h, withInbox_self]

/-- A host read that comes next and reaches the block. -/
theorem step_read (s : State) (off : Nat) (lanes : BitVec 4) (rest : List Event)
    (h : s.inbox = .read off lanes :: rest) (hr : s.rst = false) (ho : off < 0x200) :
    step s = .next (readWindow (s.withInbox rest) off lanes) := by
  have : ¬ windowSize ≤ off := by simpa [windowSize] using ho
  simp [step_cons s _ _ h, handle, hostRead, this, hr]

/-- A host write that comes next and reaches the block. -/
theorem step_write (s : State) (off : Nat) (lanes : BitVec 4) (v : Word) (rest : List Event)
    (h : s.inbox = .write off lanes v :: rest) (hr : s.rst = false) (ho : off < 0x200) :
    step s = .next (writeWindow (s.withInbox rest) off lanes v) := by
  have : ¬ windowSize ≤ off := by simpa [windowSize] using ho
  simp [step_cons s _ _ h, handle, hostWrite, this, hr]

/-! ## Runs -/

@[simp] theorem steps_zero (s : State) : steps 0 s = .next s := rfl

/-- The first step of a run. -/
theorem steps_succ (s t : State) (n : Nat) (h : step s = .next t) : steps (n + 1) s = steps n t := by
  simp [steps, h]

/-- A run in two parts. -/
theorem steps_add (a b : Nat) (s t : State) (h : steps a s = .next t) : steps (a + b) s = steps b t := by
  induction a generalizing s with
  | zero =>
    rw [steps_zero] at h
    cases h
    simp
  | succ a ih =>
    rw [show a + 1 + b = a + b + 1 by omega]
    simp only [steps] at h ⊢
    split at h
    · exact ih _ h
    · cases h
    · cases h

end Sys2Proof.Machine
end

