-- ==== Sys2Proof/Laws/Frames.lean ====
section
/-! SUPPORT. Frames: how `Keeps` composes, the frame of each named update, and of what the truncating commands have in
common (R71, R72). -/

namespace Sys2Proof.Machine

variable {s t u : State} {w w' : Reg → Bool}

theorem Keeps.trans (h : Keeps w s t) (h' : Keeps w t u) : Keeps w s u where
  regs r a b c := by rw [h'.regs r a b c, h.regs r a b c]
  ovr := by rw [h'.ovr, h.ovr]
  rst := by rw [h'.rst, h.rst]
  inbox := by rw [h'.inbox, h.inbox]
  busOut := by rw [h'.busOut, h.busOut]
  draws := by rw [h'.draws, h.draws]

/-- A frame may be weakened to more registers. -/
theorem Keeps.mono (hw : ∀ r, w' r = false → w r = false) (h : Keeps w s t) : Keeps w' s t :=
  ⟨fun r a b c => h.regs r (hw r a) b c, h.ovr, h.rst, h.inbox, h.busOut, h.draws⟩

theorem Keeps.of_none (h : Keeps (fun _ => false) s t) : Keeps w s t := h.mono (by simp)

theorem keeps_completed (s : State) (e : ErrCode) : Keeps (fun _ => false) s (s.completed e) :=
  ⟨fun r _ h h' => readReg_completed s r e h h', rfl, rfl, rfl, rfl, rfl⟩

/-- A completion adds nothing to a frame. -/
theorem Keeps.completed (h : Keeps w s t) (e : ErrCode) : Keeps w s (t.completed e) :=
  h.trans (keeps_completed t e).of_none

theorem ends_completed (s : State) (e : ErrCode) : Ends (s.completed e) e := ⟨rfl, rfl, rfl⟩

theorem keeps_withTrunc (s : State) (off : BitVec 4) (v : BitVec 31) : Keeps isTruncReg s (s.withTrunc off v) :=
  ⟨fun r h _ _ => readReg_withTrunc s r off v h, rfl, rfl, rfl, rfl, rfl⟩

theorem keeps_withCode (s : State) (x : BitVec 30) (l : BitVec 4) (c : Vector Byte 16) :
    Keeps isCodeReg s (s.withCode x l c) :=
  ⟨fun r h _ _ => readReg_withCode s r x l c h, rfl, rfl, rfl, rfl, rfl⟩

theorem keeps_withMatch (s : State) (b : Bool) : Keeps (fun _ => false) s (s.withMatch b) :=
  ⟨fun r _ h _ => readReg_withMatch s r b h, rfl, rfl, rfl, rfl, rfl⟩

theorem keeps_withPState (s : State) (p : PState) : Keeps (fun _ => false) s (s.withPState p) :=
  ⟨fun r _ h _ => readReg_withPState s r p h, rfl, rfl, rfl, rfl, rfl⟩

theorem keeps_withCounter (s : State) (c : Word64) : Keeps isCounterReg s (s.withCounter c) :=
  ⟨fun r h _ _ => readReg_withCounter s r c h, rfl, rfl, rfl, rfl, rfl⟩

theorem keeps_withProbe (s : State) (b : Word64) (i : BitVec 10) (k : BitVec 8) :
    Keeps (fun r => isProbeBaseReg r || r == .probeIdx) s (s.withProbe b i k) :=
  ⟨fun r h _ _ => by
    simp only [Bool.or_eq_false_iff, beq_eq_false_iff_ne] at h
    exact readReg_withProbe s r b i k h.1 h.2, rfl, rfl, rfl, rfl, rfl⟩

theorem keeps_withPidx (s : State) (i : BitVec 10) : Keeps (fun r => r == .probeIdx) s (s.withPidx i) :=
  ⟨fun r h _ _ => readReg_withPidx s r i (by simpa using h), rfl, rfl, rfl, rfl, rfl⟩

/-- R82: a recomputed code writes the GEN set. -/
theorem Recomputed.keeps (h : Recomputed s t) : Keeps (fun r => isTruncReg r || isCodeReg r) s t := by
  obtain ⟨off, v, r, rfl, -⟩ := h
  exact ((keeps_withTrunc s off v).mono (by simp +contextual)).trans
    ((keeps_withCode _ _ _ _).mono (by simp +contextual))

/-- The fields a recomputed code leaves alone. -/
theorem Recomputed.fields (h : Recomputed s t) : t.matched = s.matched ∧ t.pstate = s.pstate ∧ t.cand = s.cand
    ∧ t.digits = s.digits ∧ t.pidx = s.pidx ∧ t.pskew = s.pskew ∧ t.probeBase = s.probeBase
    ∧ t.counter = s.counter := by
  obtain ⟨off, v, r, rfl, -⟩ := h
  simp

theorem keeps_probeDecide (s : State) : Keeps (fun r => r == .probeIdx || isCounterReg r) s (probeDecide s) := by
  obtain ⟨-, h⟩ | ⟨-, -, h⟩ | ⟨-, -, h⟩ := probeDecide_cases s <;> rw [h]
  · exact ((keeps_withMatch s _).trans (keeps_withPState _ _)).of_none
  · exact ((keeps_withMatch s _).trans (keeps_withPState _ _)).of_none
  · exact ((keeps_withMatch s _).of_none.trans ((keeps_withPidx _ _).mono (by simp +contextual))).trans
      ((keeps_withCounter _ _).mono (by simp +contextual))

end Sys2Proof.Machine
end

