-- ==== Sys2Proof/Laws/PerInstr.lean ====
section
/-! SUPPORT. Statements made per command: one lemma for each constructor of Instr. -/

namespace Sys2Proof.Laws.OpcodeIsLegal

/-- R58, R59: the command's word is legal. -/
def Statement (i : Instr) : Prop := legalWord (encode i) = true

theorem trunc : Statement .trunc := rfl
theorem modfmt : Statement .modfmt := rfl
theorem gen : Statement .gen := rfl
theorem cmp : Statement .cmp := rfl
theorem validate : Statement .validate := rfl
theorem tdiv : Statement .tdiv := rfl
theorem probeStart : Statement .probeStart := rfl
theorem probeStep : Statement .probeStep := rfl
theorem probeClear : Statement .probeClear := rfl
theorem srst : Statement .srst := rfl

end Sys2Proof.Laws.OpcodeIsLegal
end

