-- ==== Sys2Proof/Tests/Slice0.lean ====
section
/-! SUPPORT. Tests on fixed values, and for every statement with hypotheses a state that meets them. Expected values are
those of spec/95_test_vectors.md (V..), of the examples in the commands' rules, or computed by hand from a rule. -/

namespace Sys2Proof.Tests

open Sys2Proof Sys2Proof.Machine

/-! ## Small states -/

/-- The outcome is a next state for which `p` holds. -/
def after (o : Host.Outcome State Fault Refusal) (p : State → Bool) : Bool :=
  match o with
  | .next t => p t
  | .fault _ => false
  | .refused _ => false

/-- A byte buffer, its missing bytes 0x00. -/
def bytes (n : Nat) (l : List Byte) : Vector Byte n := Vector.ofFn fun i => l.getD i.val 0

/-- Reset with a CTRL, a digest and a candidate. -/
def st (a : Alg) (d : BitVec 4) (g c : List Byte) : State :=
  { State.reset with alg := a, digits := d, digest := bytes 64 g, cand := bytes 16 c, candLen := BitVec.ofNat 32 c.length }

/-- Idle, and busy with a command, with events to come. -/
def idle (l : List Event) : State := { State.reset with inbox := l }
def busy (i : Instr) (l : List Event) : State := { State.reset with busy := true, pendOp := encode i, inbox := l }

/-- The HMAC-SHA1 digests of counters 0, 1 and 7 (V section 1.1). -/
def digest0 : List Byte := [0xcc, 0x93, 0xcf, 0x18, 0x50, 0x8d, 0x94, 0x93, 0x4c, 0x64, 0xb6, 0x5d, 0x8b, 0xa7, 0x66, 0x7f,
  0xb7, 0xcd, 0xe4, 0xb0]
def digest1 : List Byte := [0x75, 0xa4, 0x8a, 0x19, 0xd4, 0xcb, 0xe1, 0x00, 0x64, 0x4e, 0x8a, 0xc1, 0x39, 0x7e, 0xea, 0x74,
  0x7a, 0x2d, 0x33, 0xab]
def digest7 : List Byte := [0xa4, 0xfb, 0x96, 0x0c, 0x0b, 0xc0, 0x6e, 0x1e, 0xab, 0xb8, 0x04, 0xe5, 0xb3, 0x97, 0xcd, 0xc4,
  0xb4, 0x55, 0x96, 0xfa]

/-- MD5 digests whose offset is 12, 13 and 15 (V1.8 to V1.10). -/
def md5At12 : List Byte := [0, 0, 0, 0, 0, 0, 0, 0, 0, 0, 0, 0, 0x8a, 0x0b, 0x0c, 0x0c]
def md5At13 : List Byte := [0, 0, 0, 0, 0, 0, 0, 0, 0, 0, 0, 0, 0, 0xaa, 0xbb, 0x0d]
def md5At15 : List Byte := [0, 0, 0, 0, 0, 0, 0, 0, 0, 0, 0, 0, 0, 0, 0, 0xff]

/-- "287082", the code of counter 1, and "abcdef". -/
def code1 : List Byte := [0x32, 0x38, 0x37, 0x30, 0x38, 0x32]
def letters : List Byte := [0x61, 0x62, 0x63, 0x64, 0x65, 0x66]

/-- The state after GEN of counter 1 with a candidate of six bytes (V section 2.2). -/
def coded (c : List Byte) : State :=
  { st .sha1 6 digest1 c with truncOff := 0xB, truncVal := 0x41397EEA, result := 0x4616A, codeLen := 6, code := bytes 16 code1 }

/-- An active scan from `base` at index `i` with skew `k`. -/
def scan (base : Word64) (i : BitVec 10) (k : BitVec 8) (s : State) : State :=
  { s with pstate := .active, probeBase := base, pidx := i, pskew := k, counter := probeCtr base i.toNat }

/-! ## Well-formed words: an ill-formed term for each check -/

theorem test_wf_reserved_bits_refused : rsvZero 0x00000103#32 = false ∧ legalWord 0x00000103#32 = false := by decide
theorem test_wf_opcode_zero_refused : opAssigned 0x00000000#32 = false ∧ legalWord 0x00000000#32 = false := by decide
theorem test_wf_opcode_0B_refused : opAssigned 0x0000000B#32 = false ∧ legalWord 0x0000000B#32 = false := by decide
theorem test_wf_srst_legal : legalWord 0x0000000A#32 = true := by decide

/-! ## Decoding: the word of each command, bit 31 first (R57, R59) -/

theorem test_decode_trunc : decode 0b00000000000000000000000000000001#32 = .ok .trunc := by decide
theorem test_decode_modfmt : decode 0b00000000000000000000000000000010#32 = .ok .modfmt := by decide
theorem test_decode_gen : decode 0b00000000000000000000000000000011#32 = .ok .gen := by decide
theorem test_decode_cmp : decode 0b00000000000000000000000000000100#32 = .ok .cmp := by decide
theorem test_decode_validate : decode 0b00000000000000000000000000000101#32 = .ok .validate := by decide
theorem test_decode_tdiv : decode 0b00000000000000000000000000000110#32 = .ok .tdiv := by decide
theorem test_decode_probe_start : decode 0b00000000000000000000000000000111#32 = .ok .probeStart := by decide
theorem test_decode_probe_step : decode 0b00000000000000000000000000001000#32 = .ok .probeStep := by decide
theorem test_decode_probe_clear : decode 0b00000000000000000000000000001001#32 = .ok .probeClear := by decide
theorem test_decode_srst : decode 0b00000000000000000000000000001010#32 = .ok .srst := by decide
theorem test_decode_illegal : decode 0x000000FF#32 = .error .reservedOpcode ∧ decode 0x80000001#32 = .error .reservedBits := by
  decide
theorem test_decode_table_word : decodeTableWord 32 0x3 = some .gen ∧ decodeTableWord 32 0x10003 = none := by decide
/-- The map of R14, its offsets written out. -/
theorem test_register_map : ∀ p ∈ [(0x000, Reg.id), (0x004, .ctrl), (0x008, .status), (0x00C, .cmd), (0x010, .intStatus),
    (0x014, .intEnable), (0x020, .timeLo), (0x024, .timeHi), (0x028, .period), (0x030, .counterLo), (0x034, .counterHi),
    (0x038, .ctrBe0), (0x03C, .ctrBe1), (0x040, .probeBaseLo), (0x044, .probeBaseHi), (0x048, .probeIdx), (0x050, .truncOff),
    (0x054, .truncVal), (0x058, .result), (0x05C, .codeLen), (0x060, .code 0), (0x06C, .code 3), (0x070, .candLen),
    (0x080, .cand 0), (0x08C, .cand 3), (0x100, .digest 0), (0x13C, .digest 15)], regAt p.1 = some p.2 := by decide
theorem test_fetch_word_runs :
    step (State.reset.withFetchWord 32 0x6) = exec .tdiv { State.reset with pendOp := 0x6, busy := true } := rfl

/-! ## One completion of each command -/

/-- V1.4: offset 15 reads bytes 15 to 18. -/
theorem test_trunc_offset_15 : after (exec .trunc (st .sha1 6 [0, 0, 0, 0, 0, 0, 0, 0, 0, 0, 0, 0, 0, 0, 0, 0x12, 0x34, 0x56,
    0x78, 0x0f] [])) (fun t => readReg t .truncOff == 0xF && readReg t .truncVal == 0x12345678 && readReg t .status == 0)
    = true := by decide

/-- V1.9: MD5 offset 13 is TRUNC_RANGE and writes nothing else. -/
theorem test_trunc_range : after (exec .trunc (st .md5 6 md5At13 [])) (fun t => readReg t .truncOff == 0 &&
    readReg t .truncVal == 0 && readReg t .status == 0x30) = true := by decide

/-- V1.21: nine digits of 2147483647. -/
theorem test_modfmt_nine : after (exec .modfmt { st .sha1 9 [] [] with truncVal := 0x7FFFFFFF }) (fun t =>
    readReg t .result == 0x08CA6BFF && readReg t .codeLen == 9 && readReg t (.code 0) == 0x34373431 &&
    readReg t (.code 1) == 0x34363338 && readReg t (.code 2) == 0x37) = true := by decide

/-- V1.22: ten digits are illegal. -/
theorem test_modfmt_ten : after (exec .modfmt { st .sha1 10 [] [] with truncVal := 0x7FFFFFFF }) (fun t =>
    readReg t .result == 0 && readReg t .codeLen == 0 && readReg t .status == 0x20) = true := by decide

/-- V1.24: the leading zero of counter 7's nine digits is kept. -/
theorem test_gen_leading_zero : after (exec .gen (st .sha1 9 digest7 [])) (fun t => readReg t .truncOff == 0xA &&
    readReg t .result == 0x04E5B397 && readReg t (.code 0) == 0x31323830 && readReg t (.code 1) == 0x38353236 &&
    readReg t (.code 2) == 0x33) = true := by decide

/-- V1.26: INVALID_DIGITS comes before TRUNC_RANGE. -/
theorem test_gen_digits_first : after (exec .gen (st .md5 0 md5At13 [])) (fun t => readReg t .status == 0x20 &&
    readReg t .codeLen == 0) = true := by decide

/-- V2.2: a match. -/
theorem test_cmp_match : after (exec .cmp (coded code1)) (fun t => readReg t .status == 0x2) = true := by decide

/-- V2.5: the length is compared as 32 bits. -/
theorem test_cmp_long_length : after (exec .cmp { coded code1 with candLen := 0x106 }) (fun t => readReg t .status == 0x40)
    = true := by decide

/-- V2.12: counter 1. -/
theorem test_validate_match : after (exec .validate (st .sha1 6 digest1 code1)) (fun t => readReg t .status == 0x2 &&
    readReg t .truncOff == 0xB && readReg t .truncVal == 0x41397EEA && readReg t .result == 0x4616A) = true := by decide

/-- V2.16: TRUNC_RANGE after the length check. -/
theorem test_validate_range : after (exec .validate (st .md5 6 md5At13 code1)) (fun t => readReg t .status == 0x30 &&
    readReg t .codeLen == 0) = true := by decide

/-- V3.6: the default period, and the big-endian view. -/
theorem test_tdiv_default : after (exec .tdiv { State.reset with time := 1111111109 }) (fun t =>
    readReg t .counterLo == 0x023523EC && readReg t .counterHi == 0 && readReg t .ctrBe1 == 0xEC233502) = true := by decide

/-- V3.9: the widest period. -/
theorem test_tdiv_widest : after (exec .tdiv { State.reset with time := 0xFFFFFFFFFFFFFFFF, period := 0xFFFFFFFF }) (fun t =>
    readReg t .counterLo == 1 && readReg t .counterHi == 1 && readReg t .ctrBe0 == 0x01000000) = true := by decide

/-- R93's example. -/
theorem test_probe_start : after (exec .probeStart { State.reset with counter := 2, skew := 1 }) (fun t =>
    readReg t .probeBaseLo == 2 && readReg t .probeIdx == 0x00010000 && readReg t .counterLo == 2 &&
    readReg t .status == 0x100) = true := by decide

/-- V3.14: base - 1 wraps. -/
theorem test_probe_step_wraps : after (exec .probeStep (scan 0 1 1 (st .sha1 6 digest1 letters))) (fun t =>
    readReg t .probeIdx == 0x00010002 && readReg t .counterLo == 0xFFFFFFFF && readReg t .counterHi == 0xFFFFFFFF &&
    readReg t .status == 0x100) = true := by decide

/-- V3.22: an MD5 offset of 14 aborts the scan. -/
theorem test_probe_step_aborts : after (exec .probeStep (scan 7 0 1 (st .md5 6 [0, 0, 0, 0, 0, 0, 0, 0, 0, 0, 0, 0, 0, 0, 0,
    0x0e] code1))) (fun t => readReg t .status == 0x430 && readReg t .probeIdx == 0x00010000 && readReg t .counterLo == 7)
    = true := by decide

/-- V3.26: from HIT, MATCH and COUNTER are kept. -/
theorem test_probe_clear : after (exec .probeClear { scan 2 2 1 State.reset with pstate := .hit, matched := true })
    (fun t => readReg t .status == 0x2 && readReg t .probeIdx == 0 && readReg t .probeBaseLo == 0 &&
    readReg t .counterLo == 1) = true := by decide

/-- V5.5: SRST keeps INT_ENABLE and sets DONE. -/
theorem test_srst : after (exec .srst { st .md5 8 [] [] with skew := 2, doneEn := true, counter := 5 }) (fun t =>
    readReg t .ctrl == 0x60 && readReg t .status == 0 && readReg t .counterLo == 0 && readReg t .intStatus == 1 &&
    readReg t .intEnable == 1 && irq t) = true := by decide

/-- V5.4: the word 0x103 is illegal, though its OP field is GEN's. -/
theorem test_illegal_word : after (step (State.reset.withFetchWord 32 0x103)) (fun t => readReg t .status == 0x10 &&
    readReg t .codeLen == 0 && readReg t .intStatus == 1) = true := by decide

/-! ## The bus -/

/-- V4.1: a DIGEST write while BUSY is dropped. -/
theorem test_bus_busy_write_dropped : after (step { busy .gen [wr 0x100 0] with digest := bytes 64 digest0 }) (fun t =>
    readReg t (.digest 0) == 0x18CF93CC && readReg t .intStatus == 2) = true := by decide

/-- V4.3: CTRL reads exactly while GEN is pending; CODE0 reads draw(). -/
theorem test_bus_busy_reads : after (step (busy .gen [rd 0x004])) (fun t => t.busOut == .readOkay 0x60) = true := by decide
theorem test_bus_busy_draw : step (busy .gen [rd 0x060]) =
    .next { busy .gen [] with busOut := .readOkay (Config.draw 0), draws := 1 } := rfl

/-- V4.7: the reserved bits of CTRL. -/
theorem test_bus_ctrl_reserved : after (step (idle [wr 0x004 0xFFFFFFFF])) (fun t => readReg t .ctrl == 0x0000FFF3) = true := by
  decide

/-- V4.8, V4.9, V4.10: a reserved offset, a byte write, and a misaligned read. -/
theorem test_bus_reserved_offset : after (step (idle [rd 0x018])) (fun t => t.busOut == .readOkay 0) = true := by decide
theorem test_bus_byte_write : after (step (idle [.write 0x004 0x1 0x01])) (fun t => t.busOut == .writeError &&
    readReg t .ctrl == 0x60 && readReg t .intStatus == 0) = true := by decide
theorem test_bus_misaligned_read : step (idle [.read 0x006 0xF#4]) =
    .next { idle [] with busOut := .readError (Config.draw 0), draws := 1 } := rfl

/-- V4.11, V4.12: CMD and ID. -/
theorem test_bus_read_cmd : after (step (idle [rd 0x00C])) (fun t => t.busOut == .readOkay 0) = true := by decide
/-- R71: CMD is in W(SRST). -/
theorem test_bus_read_cmd_srst : step (busy .srst [rd 0x00C]) =
    .next { busy .srst [] with busOut := .readOkay (Config.draw 0), draws := 1 } := rfl
theorem test_bus_read_id : after (step (idle [rd 0x000])) (fun t => t.busOut == .readOkay 0x4F545031) = true := by decide

/-- V4.5: clearing DONE. -/
theorem test_bus_w1c : after (step { idle [wr 0x010 0x1] with done := true, ovr := true, doneEn := true }) (fun t =>
    readReg t .intStatus == 2 && !irq t) = true := by decide

/-- V4.13: power-on reset discards a pending command. -/
theorem test_reset_discards : step { busy .gen [.resetPin (!Config.resetLevel)] with rst := true } =
    .next { State.reset with inbox := [] } := by
  cases h : Config.resetLevel <;> simp [step, handle, setResetPin, busy, h] <;> rfl

/-- R49: offset 0x200 is outside the window. -/
theorem test_outside_window : step (idle [rd 0x200]) = .fault .outsideWindow := rfl

/-! ## Host notation (R63, V section 1.1, program P3) -/

theorem test_lddig : lddig digest0 = [wr 0x100 0x18CF93CC, wr 0x104 0x93948D50, wr 0x108 0x5DB6644C, wr 0x10C 0x7F66A78B,
    wr 0x110 0xB0E4CDB7] := by decide
theorem test_ldcand : ldcand code1 = [wr 0x080 0x30373832, wr 0x084 0x00003238, wr 0x088 0, wr 0x08C 0, wr 0x070 6] := by
  decide
theorem test_cfg : cfg 0 6 1 = [wr 0x004 0x00000160] := by decide
theorem test_run_gen : run .gen 1 = [wr 0x00C 0x00000003, rd 0x008, .completion, rd 0x008] := by decide
theorem test_ldtime : ldtime 20000000000 = [wr 0x020 0xA817C800, wr 0x024 0x00000004] := by decide

/-! ## Witnesses: states that meet the hypotheses of the statements, each named after its statement -/

theorem witness_StepRunsTheDecodedCommand : CompletionNext (busy .gen [.completion]) [] ∧ CompletionNext (busy .gen []) []
    ∧ decode (busy .gen []).pendOp = .ok .gen := ⟨⟨rfl, rfl, .inl rfl⟩, ⟨rfl, rfl, .inr ⟨rfl, rfl⟩⟩, by decide⟩

/-- The three kinds of illegal word, at their bounds; and an idle block about to take a CMD write. -/
theorem witness_IllegalWordsCompleteWithIllegalCmd :
    (∀ w ∈ [0x00000101#32, 0x00000000#32, 0x0000000B#32, 0x000000FF#32],
      CompletionNext { busy .gen [.completion] with pendOp := w } []
        ∧ (w.toNat / 256 ≠ 0 ∨ w.toNat % 256 = 0 ∨ 0x0B ≤ w.toNat % 256))
    ∧ WriteNext (idle [wr 0x00C 0xFF]) 0x00C 0xFF [] ∧ (idle [wr 0x00C 0xFF]).busy = false := by
  refine ⟨fun w h => ⟨⟨rfl, rfl, .inl rfl⟩, ?_⟩, ⟨rfl, rfl⟩, rfl⟩
  simp only [List.mem_cons, List.not_mem_nil, or_false] at h
  obtain rfl | rfl | rfl | rfl := h <;> decide

theorem witness_AcceptanceLatchesTheWord :
    WriteNext (idle [wr 0x00C 3, rd 0x008]) 0x00C 3 [rd 0x008] ∧ (idle [wr 0x00C 3, rd 0x008]).busy = false :=
  ⟨⟨rfl, rfl⟩, rfl⟩

theorem witness_BusyCommandWriteIsDropped :
    WriteNext (busy .gen [wr 0x00C 1]) 0x00C 1 [] ∧ (busy .gen [wr 0x00C 1]).busy = true := ⟨⟨rfl, rfl⟩, rfl⟩

/-- The first and the last operand register. -/
theorem witness_BusyOperandWriteIsDropped :
    (OperandRegister .ctrl ∧ WriteNext (busy .gen [wr 0x004 1]) (regOffset .ctrl) 1 [])
      ∧ (OperandRegister (.digest 15) ∧ WriteNext (busy .gen [wr 0x13C 1]) (regOffset (.digest 15)) 1 []) :=
  ⟨⟨.inl rfl, rfl, rfl⟩, by simp [OperandRegister], rfl, rfl⟩

/-- The bounds of the reserved offsets, and that each is one. -/
theorem witness_reserved_offsets : ∀ off ∈ [0x018, 0x01C, 0x02C, 0x04C, 0x074, 0x07C, 0x090, 0x0FC, 0x140, 0x1FC],
    ReservedOffset off := by
  intro off h
  simp only [List.mem_cons, List.not_mem_nil, or_false] at h
  unfold ReservedOffset
  omega

/-- BUSY, and idle. -/
theorem witness_BusyWritesThatAreNotDropped :
    WriteNext (busy .gen [wr 0x010 3]) 0x010 3 [] ∧ WriteNext (busy .gen [wr 0x014 3]) 0x014 3 []
      ∧ (ReadOnlyRegister .id ∧ WriteNext (busy .gen [wr 0x000 3]) (regOffset .id) 3 [])
      ∧ (ReadOnlyRegister (.code 3) ∧ WriteNext (busy .gen [wr 0x06C 3]) (regOffset (.code 3)) 3 [])
      ∧ (ReservedOffset 0x1FC ∧ WriteNext (busy .gen [wr 0x1FC 3]) 0x1FC 3 [])
      ∧ WriteNext { idle [wr 0x010 1] with done := true } 0x010 1 [] ∧ WriteNext (idle [wr 0x014 3]) 0x014 3 []
      ∧ (ReadOnlyRegister .status ∧ WriteNext (idle [wr 0x008 3]) (regOffset .status) 3 [])
      ∧ WriteNext (idle [wr 0x018 3]) 0x018 3 [] :=
  ⟨⟨rfl, rfl⟩, ⟨rfl, rfl⟩, ⟨.inl rfl, rfl, rfl⟩, ⟨by simp [ReadOnlyRegister], rfl, rfl⟩,
    ⟨witness_reserved_offsets _ (by decide), rfl, rfl⟩, ⟨rfl, rfl⟩, ⟨rfl, rfl⟩, ⟨by simp [ReadOnlyRegister], rfl, rfl⟩,
    rfl, rfl⟩

theorem witness_LatchedWordStaysAfterCompletion : (∃ t, exec .srst (busy .srst []) = .next t)
    ∧ CompletionNext (busy .srst []) [] := ⟨⟨_, rfl⟩, rfl, rfl, .inr ⟨rfl, rfl⟩⟩

/-- While GEN is pending: CTRL is outside its write set, CODE3 inside; STATUS with MATCH and PSTATE outside, and inside
while PROBE_STEP is pending. CMD is inside while SRST is pending. -/
theorem witness_BusyReadsAreExactOutsideTheWriteSet :
    (ReadNext (busy .gen [rd 0x004]) (regOffset .ctrl) [] ∧ writeSet (commandOf (busy .gen []).pendOp) .ctrl = false)
      ∧ (ReadNext (busy .gen [rd 0x06C]) (regOffset (.code 3)) []
        ∧ writeSet (commandOf (busy .gen []).pendOp) (.code 3) = true)
      ∧ (ReadNext (busy .gen [rd 0x008]) (regOffset .status) [] ∧ matchInWriteSet (commandOf (busy .gen []).pendOp) = false
        ∧ pstateInWriteSet (commandOf (busy .gen []).pendOp) = false)
      ∧ (ReadNext (busy .probeStep [rd 0x008]) (regOffset .status) []
        ∧ matchInWriteSet (commandOf (busy .probeStep []).pendOp) = true
        ∧ pstateInWriteSet (commandOf (busy .probeStep []).pendOp) = true)
      ∧ (ReadNext (busy .srst [rd 0x00C]) (regOffset .cmd) [] ∧ writeSet (commandOf (busy .srst []).pendOp) .cmd = true) :=
  ⟨⟨⟨rfl, rfl⟩, by decide⟩, ⟨⟨rfl, rfl⟩, by decide⟩, ⟨⟨rfl, rfl⟩, by decide, by decide⟩,
    ⟨⟨rfl, rfl⟩, by decide, by decide⟩, ⟨rfl, rfl⟩, by decide⟩

/-- A PROBE_STEP with no scan, and a CMP with no code, end in an error. -/
theorem witness_ErrorsWriteNoDataRegister :
    (∃ t, exec .probeStep State.reset = .next t ∧ t.err ≠ .none)
      ∧ ∃ t, exec .cmp (st .sha1 6 [] code1) = .next t ∧ t.err ≠ .none :=
  ⟨⟨_, rfl, by decide⟩, _, rfl, by decide⟩

/-- A CTRL write, an INT_ENABLE write and a read land before the completion. -/
theorem witness_OperandsAreStableWhileBusy :
    (busy .gen ([wr 0x004 0, wr 0x014 3, rd 0x1FC] ++ [.completion])).inbox
        = [wr 0x004 0, wr 0x014 3, rd 0x1FC] ++ .completion :: []
      ∧ ∀ e ∈ [wr 0x004 0, wr 0x014 3, rd 0x1FC], e.isAccess ∧ e.inWindow := by
  refine ⟨rfl, ?_⟩
  simp [wr, rd, Event.isAccess, Event.inWindow]

theorem witness_PendingCommandCompletes :
    SafeInputs (busy .gen [rd 0x008, wr 0x00C 1]) ∧ ∀ e ∈ (busy .gen [rd 0x008, wr 0x00C 1]).inbox, e.isNoReset := by
  simp [SafeInputs, busy, wr, rd, Event.inWindow, Event.isNoReset]

theorem witness_IdleBlockKeepsItsState : State.reset.busy = false ∧ State.reset.inbox = [] := ⟨rfl, rfl⟩

theorem witness_SafeInputsNeverStop : SafeInputs (idle [rd 0x1FC, .read 0x1FF 0x3, .completion, .resetPin true]) := by
  simp [SafeInputs, idle, rd, Event.inWindow]

theorem witness_OutsideWindowStops : 0x200 ≤ 0x200 ∧ (idle [rd 0x200]).inbox = .read 0x200 0xF#4 :: []
    ∧ (idle [wr 0x200 0]).inbox = .write 0x200 0xF#4 0 :: [] := ⟨Nat.le_refl _, rfl, rfl⟩

/-! ### The operands of the commands -/

/-- DIGITS at its bounds. -/
theorem witness_digits : DigitsLegal (st .sha1 1 [] []) ∧ DigitsLegal (st .sha1 9 [] []) ∧ ¬ DigitsLegal (st .sha1 0 [] [])
    ∧ ¬ DigitsLegal (st .sha1 10 [] []) := by
  simp only [DigitsLegal, digitsNat]
  decide

/-- MD5 offsets at the bounds of TRUNC_RANGE, and offset 15 of a longer digest. -/
theorem witness_past_digest : PastDigest (st .md5 6 md5At13 []) ∧ PastDigest (st .md5 6 md5At15 [])
    ∧ ¬ PastDigest (st .md5 6 md5At12 []) ∧ ¬ PastDigest (st .sha1 6 (List.replicate 20 0xFF) []) := by
  simp only [PastDigest, offsetNat]
  decide

theorem witness_TruncWritesOffsetAndValue : ¬ PastDigest (st .md5 6 md5At12 []) ∧ PastDigest (st .md5 6 md5At13 []) :=
  ⟨witness_past_digest.2.2.1, witness_past_digest.1⟩

/-- Offsets 12 and 13, and another digest with the same five bytes. -/
theorem witness_TruncRangeOnlyForMd5 : offsetNat (st .md5 6 md5At12 []) + 3 ≤ digestLen .md5 - 1
    ∧ offsetNat (st .md5 6 md5At13 []) + 3 > digestLen .md5 - 1
    ∧ byteAt (st .md5 6 (md5At12 ++ [1]) []).digest 15 = byteAt (st .md5 6 md5At12 []).digest 15
    ∧ ∀ k < 4, byteAt (st .md5 6 (md5At12 ++ [1]) []).digest (12 + k) = byteAt (st .md5 6 md5At12 []).digest (12 + k) := by
  unfold offsetNat
  decide

theorem witness_ModfmtFormatsTruncVal : DigitsLegal (st .sha1 9 [] []) ∧ ¬ DigitsLegal (st .sha1 10 [] []) :=
  ⟨witness_digits.2.1, witness_digits.2.2.2⟩

theorem witness_CodeReadsBackAsResult : DigitsLegal (st .sha1 9 [] []) ∧ ∃ t, exec .modfmt (st .sha1 9 [] []) = .next t :=
  ⟨witness_digits.2.1, _, rfl⟩

theorem witness_GenWritesTheCode :
    (DigitsLegal (st .md5 9 md5At12 []) ∧ ¬ PastDigest (st .md5 9 md5At12 [])) ∧ ¬ DigitsLegal (st .md5 0 md5At13 [])
      ∧ (DigitsLegal (st .md5 1 md5At15 []) ∧ PastDigest (st .md5 1 md5At15 [])) := by
  simp only [DigitsLegal, digitsNat, PastDigest, offsetNat]
  decide

theorem witness_GenEqualsTruncThenModfmt :
    (¬ PastDigest (st .sha1 6 digest0 []) ∧ DigitsLegal (st .sha1 6 digest0 []))
      ∧ (¬ PastDigest (st .sha1 10 digest0 []) ∧ ¬ DigitsLegal (st .sha1 10 digest0 [])) := by
  simp only [DigitsLegal, digitsNat, PastDigest, offsetNat]
  decide

/-- The four outcomes of CMP: no legal DIGITS, another length, another CODE_LEN, and the comparison. -/
theorem witness_CmpComparesWithTheStoredCode :
    ¬ DigitsLegal (st .sha1 0 [] code1)
      ∧ (DigitsLegal (coded [0x32]) ∧ ¬ CandLenIsDigits (coded [0x32]))
      ∧ (DigitsLegal (st .sha1 6 [] code1) ∧ CandLenIsDigits (st .sha1 6 [] code1)
        ∧ (st .sha1 6 [] code1).codeLen.toNat ≠ digitsNat (st .sha1 6 [] code1))
      ∧ (DigitsLegal (coded code1) ∧ CandLenIsDigits (coded code1)
        ∧ (coded code1).codeLen.toNat = digitsNat (coded code1)) := by
  simp only [DigitsLegal, CandLenIsDigits, digitsNat]
  decide

/-- The four outcomes of VALIDATE. -/
theorem witness_ValidateRecomputesAndCompares :
    (DigitsLegal (st .md5 6 md5At12 code1) ∧ CandLenIsDigits (st .md5 6 md5At12 code1)
        ∧ ¬ PastDigest (st .md5 6 md5At12 code1))
      ∧ ¬ DigitsLegal (st .md5 15 md5At13 code1)
      ∧ (DigitsLegal (st .md5 5 md5At13 code1) ∧ ¬ CandLenIsDigits (st .md5 5 md5At13 code1))
      ∧ (DigitsLegal (st .md5 6 md5At13 code1) ∧ CandLenIsDigits (st .md5 6 md5At13 code1)
        ∧ PastDigest (st .md5 6 md5At13 code1)) := by
  simp only [DigitsLegal, CandLenIsDigits, digitsNat, PastDigest, offsetNat]
  decide

theorem witness_GeneratedCodeValidates : ∃ g, exec .gen (st .sha1 6 digest1 []) = .next g ∧ g.err = .none
    ∧ (∀ i < digitsNat g, byteAt (bytes 16 code1) i = byteAt g.code i) ∧ (6#32).toNat = digitsNat g :=
  ⟨_, rfl, rfl, by decide, by decide⟩

/-- A candidate of two bytes, in an ACTIVE scan and with none, and a well-formed one that is not the code. -/
theorem witness_WrongLengthIsNeverAMatch :
    (DigitsLegal (scan 2 0 1 (coded [0x32, 0x38])) ∧ (scan 2 0 1 (coded [0x32, 0x38])).pstate = .active
        ∧ ¬ CandLenIsDigits (scan 2 0 1 (coded [0x32, 0x38])))
      ∧ (DigitsLegal (coded [0x32, 0x38]) ∧ (Instr.cmp = .probeStep → (coded [0x32, 0x38]).pstate = .active)
        ∧ (Instr.validate = .probeStep → (coded [0x32, 0x38]).pstate = .active) ∧ (coded [0x32, 0x38]).pstate = .idle
        ∧ ¬ CandLenIsDigits (coded [0x32, 0x38]))
      ∧ (∃ t, exec .cmp (scan 2 0 1 (coded letters)) = .next t ∧ t.err = .none
        ∧ ¬ CandEquals (scan 2 0 1 (coded letters)) t.code (digitsNat (scan 2 0 1 (coded letters)))) := by
  refine ⟨⟨by simp only [DigitsLegal, digitsNat]; decide, rfl, by simp only [CandLenIsDigits, digitsNat]; decide⟩,
    ⟨by simp only [DigitsLegal, digitsNat]; decide, nofun, nofun, rfl, by simp only [CandLenIsDigits, digitsNat]; decide⟩,
    _, rfl, rfl, ?_⟩
  unfold CandEquals
  decide

/-- Steps at the first and the last index of a scan of skew 1: with the code, and with another candidate. -/
theorem witness_ProbeStepDecidesOneCounter :
    ∀ c ∈ [code1, letters], ∀ i ∈ [0#10, 2#10], (scan 2 i 1 (st .sha1 6 digest1 c)).pstate = .active
      ∧ DigitsLegal (scan 2 i 1 (st .sha1 6 digest1 c)) ∧ CandLenIsDigits (scan 2 i 1 (st .sha1 6 digest1 c))
      ∧ ¬ PastDigest (scan 2 i 1 (st .sha1 6 digest1 c))
      ∧ (scan 2 i 1 (st .sha1 6 digest1 c)).pidx.toNat ≤ 2 * (scan 2 i 1 (st .sha1 6 digest1 c)).pskew.toNat := by
  simp only [DigitsLegal, CandLenIsDigits, digitsNat, PastDigest, offsetNat]
  decide

/-- That step writes the code of counter 1, so the first candidate equals it and the second does not. -/
theorem witness_ProbeStepDecidesOneCounter_code :
    ∃ t u, exec .probeStep (scan 2 0 1 (st .sha1 6 digest1 code1)) = .next t
      ∧ CandEquals (scan 2 0 1 (st .sha1 6 digest1 code1)) t.code 6
      ∧ exec .probeStep (scan 2 0 1 (st .sha1 6 digest1 letters)) = .next u
      ∧ ¬ CandEquals (scan 2 0 1 (st .sha1 6 digest1 letters)) u.code 6 := by
  refine ⟨_, _, rfl, ?_, rfl, ?_⟩ <;> unfold CandEquals <;> decide

/-- The four errors of PROBE_STEP. -/
theorem witness_ProbeStepDecidesOneCounter_errors :
    State.reset.pstate ≠ .active
      ∧ ¬ DigitsLegal (scan 2 0 1 (st .md5 10 md5At13 code1))
      ∧ (DigitsLegal (scan 2 0 1 (st .md5 5 md5At13 code1)) ∧ ¬ CandLenIsDigits (scan 2 0 1 (st .md5 5 md5At13 code1)))
      ∧ (DigitsLegal (scan 2 0 1 (st .md5 6 md5At13 code1)) ∧ CandLenIsDigits (scan 2 0 1 (st .md5 6 md5At13 code1))
        ∧ PastDigest (scan 2 0 1 (st .md5 6 md5At13 code1))) := by
  simp only [DigitsLegal, CandLenIsDigits, digitsNat, PastDigest, offsetNat]
  decide

/-- A scan of skew 1 from counter 2 whose candidate is no code: its state after `k` steps on one digest. -/
def scanned (k : Nat) : State :=
  match k with
  | 0 => match exec .probeStart { st .sha1 6 digest1 letters with counter := 2, skew := 1 } with
    | .next t => t
    | .fault _ => State.reset
    | .refused _ => State.reset
  | k + 1 => match exec .probeStep (scanned k) with
    | .next t => t
    | .fault _ => State.reset
    | .refused _ => State.reset

theorem witness_scan : exec .probeStart { st .sha1 6 digest1 letters with counter := 2, skew := 1 } = .next (scanned 0)
    ∧ ScanSteps 3 scanned (fun k => scanned (k + 1)) := by
  refine ⟨rfl, ⟨fun k h => ?_, fun k _ => ⟨rfl, rfl, rfl, rfl⟩⟩⟩
  obtain rfl | rfl | rfl : k = 0 ∨ k = 1 ∨ k = 2 := by omega
  · exact ⟨by decide, rfl⟩
  · exact ⟨by decide, rfl⟩
  · exact ⟨by decide, rfl⟩

/-- The three steps of that scan meet the premises of both statements about a scan: it ends in MISS. -/
theorem witness_ScanIsBounded : ScanSteps 3 scanned (fun k => scanned (k + 1)) ∧ (scanned 3).pstate = .miss :=
  ⟨witness_scan.2, by decide⟩

theorem witness_ScanFindsTheFirstMatch : ScanSteps (2 + 1) scanned (fun k => scanned (k + 1))
    ∧ ∀ k ≤ 2, (scanned (k + 1)).err = .none :=
  ⟨witness_scan.2, by decide⟩

/-- Times 29 and 61 seconds apart, with the default period and with 30. -/
theorem witness_SkewOneToleratesOneWindow :
    (∃ a a', exec .tdiv { State.reset with time := 150 } = .next a
      ∧ exec .tdiv { State.reset with time := 179, period := 30 } = .next a')
    ∧ (179 ≤ 150 + 29 ∧ 150 ≤ 179 + 29) ∧ (121 ≤ 150 + 29 ∧ 150 ≤ 121 + 29) ∧ 211 = 150 + 61 ∧ 150 = 89 + 61 :=
  ⟨⟨_, _, rfl, rfl⟩, by decide⟩

/-! ### Reset, the bus and interrupts -/

theorem witness_ErrorPriority : CompletionNext { busy .gen [] with pendOp := 0xB } []
    ∧ decode { busy .gen [] with pendOp := 0xB }.pendOp = .error .reservedOpcode := ⟨⟨rfl, rfl, .inr ⟨rfl, rfl⟩⟩, by decide⟩

theorem witness_PowerOnResetDiscardsThePendingCommand :
    (busy .gen [.resetPin Config.resetLevel]).inbox = .resetPin Config.resetLevel :: []
      ∧ ({ busy .gen [rd 0x008] with rst := true }.rst = true ∧ (rd 0x008).isNoReset ∧ (rd 0x008).inWindow)
      ∧ { busy .gen [.resetPin (!Config.resetLevel)] with rst := true }.inbox = .resetPin (!Config.resetLevel) :: [] :=
  ⟨rfl, ⟨rfl, trivial, show 8 < 0x200 by decide⟩, rfl⟩

theorem witness_IdReadsItsConstant : ReadNext (busy .srst [rd 0x000]) 0x000 [] ∧ WriteNext (idle [wr 0x000 1]) 0x000 1 [] :=
  ⟨⟨rfl, rfl⟩, rfl, rfl⟩

/-- The last words of DIGEST and CAND. -/
theorem witness_BufferWordsAreLittleEndian :
    (WriteNext (idle [wr 0x13C 1]) (0x100 + 4 * (15 : Fin 16).val) 1 [] ∧ (idle [wr 0x13C 1]).busy = false)
      ∧ (WriteNext (idle [wr 0x08C 1]) (0x080 + 4 * (3 : Fin 4).val) 1 [] ∧ (idle [wr 0x08C 1]).busy = false) :=
  ⟨⟨⟨rfl, rfl⟩, rfl⟩, ⟨rfl, rfl⟩, rfl⟩

/-- A narrow access, and misaligned ones at the ends of the window. -/
theorem witness_RefusedAccessHasNoEffect :
    ((idle [.write 0x004 0x7#4 1]).inbox = .write 0x004 0x7#4 1 :: [] ∧ 0x7#4 ≠ 0xF#4)
      ∧ ((idle [.read 0x1FF 0xF#4]).inbox = .read 0x1FF 0xF#4 :: [] ∧ 0x1FF < 0x200 ∧ 0x1FF % 4 ≠ 0) :=
  ⟨⟨rfl, by decide⟩, rfl, by decide⟩

theorem witness_ReservedOffsetsReadZero : ReservedOffset 0x018 ∧ ReadNext (idle [rd 0x018]) 0x018 []
    ∧ WriteNext (busy .gen [wr 0x018 1]) 0x018 1 [] := ⟨witness_reserved_offsets _ (by decide), ⟨rfl, rfl⟩, rfl, rfl⟩

theorem witness_RegisterMapIsComplete : regAt 0x13C = some (.digest 15) ∧ regAt 0x1FC = none := ⟨rfl, rfl⟩

theorem witness_OperandWriteReadsBack : OperandRegister .ctrl ∧ WriteNext (idle [wr 0x004 0xFFFFFFFF]) (regOffset .ctrl)
    0xFFFFFFFF [] ∧ (idle [wr 0x004 0xFFFFFFFF]).busy = false := ⟨.inl rfl, ⟨rfl, rfl⟩, rfl⟩

theorem witness_ReadsHaveNoSideEffects : (busy .gen [.read 0x1FF 0x1]).inbox = .read 0x1FF 0x1 :: [] ∧ 0x1FF < 0x200
    ∧ ReadNext (idle [rd 0x13C]) (regOffset (.digest 15)) []
    ∧ (ReadNext (busy .gen [rd 0x00C]) 0x00C [] ∧ commandOf (busy .gen []).pendOp ≠ some .srst)
    ∧ ReadNext (idle [rd 0x00C]) 0x00C [] ∧ (idle [rd 0x00C]).busy = false :=
  ⟨rfl, by decide, ⟨rfl, rfl⟩, ⟨⟨rfl, rfl⟩, by decide⟩, ⟨rfl, rfl⟩, rfl⟩

theorem witness_PseudoInstructionsLoadTheirRegisters :
    Idle (idle (ldctr 7 ++ [])) ∧ (idle (ldctr 7 ++ [])).inbox = ldctr 7 ++ []
      ∧ (idle (ldtime 59 ++ [])).inbox = ldtime 59 ++ [] ∧ (idle (ldcand code1 ++ [])).inbox = ldcand code1 ++ []
      ∧ (digest0.length ≤ 64 ∧ (idle (lddig digest0 ++ [])).inbox = lddig digest0 ++ [])
      ∧ (idle (cfg (Alg.sha512.bits.setWidth 32) ((8#4).setWidth 32) ((2#8).setWidth 32) ++ [])).inbox
        = cfg (Alg.sha512.bits.setWidth 32) ((8#4).setWidth 32) ((2#8).setWidth 32) ++ [] :=
  ⟨⟨rfl, rfl⟩, rfl, rfl, rfl, ⟨by decide, rfl⟩, rfl⟩

theorem witness_RunAppliesTheCommandOnce : Idle (idle (run .gen 2 ++ [])) ∧ (idle (run .gen 2 ++ [])).inbox = run .gen 2 ++ [] :=
  ⟨⟨rfl, rfl⟩, rfl⟩

/-- Steps that clear a bit, and steps that set one. -/
theorem witness_InterruptBitsAreSticky :
    (∃ t, step { idle [wr 0x010 3] with done := true, ovr := true } = .next t ∧ t.done = false ∧ t.ovr = false)
      ∧ (∃ t, step (busy .gen []) = .next t ∧ (busy .gen []).done = false ∧ t.done = true)
      ∧ ∃ t, step (busy .gen [wr 0x00C 1]) = .next t ∧ (busy .gen []).ovr = false ∧ t.ovr = true :=
  ⟨⟨_, rfl, rfl, rfl⟩, ⟨_, rfl, rfl, rfl⟩, _, rfl, rfl, rfl⟩

theorem witness_IrqIsTheMaskedPendingLevel : WriteNext (busy .gen [wr 0x014 3]) 0x014 3 [] := ⟨rfl, rfl⟩

/-- The invariant in a state with a code and a scan at its last index. -/
theorem witness_StepKeepsTheInvariant : Inv (scan 2 2 1 (coded code1)) ∧ ∃ t, step (scan 2 2 1 (coded code1)) = .next t :=
  ⟨⟨by decide, by decide, by decide, by decide, by decide, fun h => by cases h⟩, _, rfl⟩

/-- Two states that differ outside what VALIDATE reads: in the digest past L and the candidate past d. -/
theorem witness_CommandsDependOnTheirOperandsOnly :
    AgreeOnReads .validate (st .sha1 6 digest1 code1)
      { st .sha1 6 (digest1 ++ [1]) (code1 ++ [1]) with candLen := 6, counter := 5 }
    ∧ byteAt (bytes 64 digest1) 20 ≠ byteAt (bytes 64 (digest1 ++ [1])) 20 := by
  unfold AgreeOnReads SameDigest SameCand
  decide

/-- The three comparing commands match. -/
theorem witness_MatchMeansExactMatch :
    (∃ t, exec .cmp (coded code1) = .next t ∧ t.matched = true)
      ∧ (∃ t, exec .validate (st .sha1 6 digest1 code1) = .next t ∧ t.matched = true)
      ∧ ∃ t, exec .probeStep (scan 2 0 1 (st .sha1 6 digest1 code1)) = .next t ∧ t.matched = true :=
  ⟨⟨_, rfl, by decide⟩, ⟨_, rfl, by decide⟩, _, rfl, by decide⟩

end Sys2Proof.Tests
end

section
/-! The invariant (R31, R34 to R36, R95), and what a step can do to the block (R65, R115). -/

namespace Sys2Proof.Machine

/-! ## What a step can do -/

/-- The state with everything outside the registers and the command cycle replaced: the events to come, the last answer,
the count of free values and the level of the reset input. -/
def State.withOutside (s : State) (l : List Event) (b : BusOut) (n : Nat) (x : Bool) : State :=
  { s with inbox := l, busOut := b, draws := n, rst := x }

/-- Nothing but what is outside the registers and the command cycle differs, and an asserted reset is not released. -/
def Quiet (s t : State) : Prop := ∃ l b n x, (s.rst = true → x = true) ∧ t = s.withOutside l b n x

/-- A register read answers, and may use up a free value. -/
theorem busRead_quiet (s : State) (l : List Event) (r : Reg) : Quiet s (busRead (s.withInbox l) r) := by
  unfold busRead
  split
  · split
    · exact ⟨_, _, _, _, id, rfl⟩
    · split <;> exact ⟨_, _, _, _, id, rfl⟩
  · exact ⟨_, _, _, _, id, rfl⟩

theorem readWindow_quiet (s : State) (l : List Event) (off : Nat) (lanes : BitVec 4) :
    Quiet s (readWindow (s.withInbox l) off lanes) := by
  unfold readWindow
  split
  · split
    · exact ⟨_, _, _, _, id, rfl⟩
    · exact busRead_quiet s l _
  · exact ⟨_, _, _, _, id, rfl⟩

/-- A write in the window reaches a register, or has no effect (R48, R49). -/
theorem writeWindow_cases (s : State) (l : List Event) (off : Nat) (lanes : BitVec 4) (v : Word) :
    (∃ r, lanes = 0xF#4 ∧ regAt off = some r
      ∧ writeWindow (s.withInbox l) off lanes v = (busWrite (s.withInbox l) r v).answer .writeOkay) ∨
    Quiet s (writeWindow (s.withInbox l) off lanes v) := by
  unfold writeWindow
  split
  next ha =>
    cases hr : regAt off with
    | none => exact .inr ⟨_, _, _, _, id, rfl⟩
    | some r =>
      simp only [accessOk, Bool.and_eq_true, beq_iff_eq] at ha
      exact .inl ⟨r, ha.1, rfl, rfl⟩
  next => exact .inr ⟨_, _, _, _, id, rfl⟩

/-- A change of the reset pin releases an asserted reset, or touches no register (R115). -/
theorem setResetPin_cases (s : State) (l : List Event) (level : Bool) :
    (s.rst = true ∧ setResetPin (s.withInbox l) level = (s.withInbox l).powerOnReset) ∨
    Quiet s (setResetPin (s.withInbox l) level) := by
  unfold setResetPin
  split
  · exact .inr ⟨_, _, _, _, fun _ => rfl, rfl⟩
  · split
    next hr => exact .inl ⟨hr, rfl⟩
    next => exact .inr ⟨_, _, _, _, id, rfl⟩

/-- The completion step applies the pending command, or touches no register (R65, R70). -/
theorem completionStep_cases {s t : State} {l : List Event} (h : completionStep (s.withInbox l) = .next t) :
    (s.busy = true ∧ s.rst = false ∧ runPending (s.withInbox l) = .next t) ∨ Quiet s t := by
  by_cases hc : s.busy = true ∧ s.rst = false
  · exact .inl ⟨hc.1, hc.2, (completionStep_busy (s.withInbox l) hc.1 hc.2).symm.trans h⟩
  · have hi : s.busy = false ∨ s.rst = true := by simpa [imp_iff_not_or] using hc
    cases (completionStep_idle (s.withInbox l) hi).symm.trans h
    exact .inr ⟨_, _, _, _, id, rfl⟩

/-- Everything a step can do: complete the pending command, write a register, release reset, or touch neither a register
nor the command cycle. -/
theorem step_cases {s t : State} (h : step s = .next t) :
    (∃ l, s.busy = true ∧ s.rst = false ∧ runPending (s.withInbox l) = .next t) ∨
    (∃ off v rest r, s.inbox = .write off 0xF#4 v :: rest ∧ regAt off = some r
      ∧ t = (busWrite (s.withInbox rest) r v).answer .writeOkay) ∨
    (s.rst = true ∧ ∃ l, t = (s.withInbox l).powerOnReset) ∨
    Quiet s t := by
  cases hi : s.inbox with
  | nil =>
    rw [step_nil s hi, ← withInbox_self s] at h
    obtain hc | hq := completionStep_cases h
    · exact .inl ⟨_, hc⟩
    · exact .inr (.inr (.inr hq))
  | cons e rest =>
    rw [step_cons s e rest hi] at h
    cases e with
    | completion =>
      obtain hc | hq := completionStep_cases h
      · exact .inl ⟨_, hc⟩
      · exact .inr (.inr (.inr hq))
    | resetPin level =>
      cases h
      obtain ⟨hr, ht⟩ | hq := setResetPin_cases s rest level
      · exact .inr (.inr (.inl ⟨hr, _, ht⟩))
      · exact .inr (.inr (.inr hq))
    | read off lanes =>
      simp only [handle, hostRead] at h
      split at h
      · cases h
      · split at h <;> cases h
        · exact .inr (.inr (.inr ⟨_, _, _, _, id, rfl⟩))
        · exact .inr (.inr (.inr (readWindow_quiet s rest off lanes)))
    | write off lanes v =>
      simp only [handle, hostWrite] at h
      split at h
      · cases h
      · split at h <;> cases h
        · exact .inr (.inr (.inr ⟨_, _, _, _, id, rfl⟩))
        · obtain ⟨r, rfl, hr, ht⟩ | hq := writeWindow_cases s rest off lanes v
          · exact .inr (.inl ⟨off, v, rest, r, rfl, hr, ht⟩)
          · exact .inr (.inr (.inr hq))

/-- The completion of a pending word is a command's, or that of an illegal word (R70, R75). -/
theorem runPending_cases {s t : State} (h : runPending s = .next t) :
    (∃ i, exec i s = .next t) ∨ t = s.completed .illegalCmd := by
  unfold runPending at h
  split at h
  next i _ => exact .inl ⟨i, h⟩
  next => exact .inr (by cases h; rfl)

/-! ## The invariant as a fact about the code registers and one about the scan -/

/-- A code buffer holds the decimal form of a result (R34 to R36, R78). -/
def CodeText (r : BitVec 30) (l : BitVec 4) (c : Vector Byte 16) : Prop :=
  l.toNat ≤ 9 ∧ r.toNat < 10 ^ l.toNat ∧ ∀ i < 16, (byteAt c i).toNat =
    if i < l.toNat then 0x30 + r.toNat / 10 ^ (l.toNat - 1 - i) % 10 else 0

/-- A probe index stays in its scan, is its last one after a MISS, and an IDLE block has no scan (R22, R31, R97). -/
def ScanOk (p : PState) (base : Word64) (idx : BitVec 10) (skew : BitVec 8) : Prop :=
  idx.toNat ≤ 2 * skew.toNat ∧ (p = .miss → idx.toNat = 2 * skew.toNat)
    ∧ (p = .idle → base = 0 ∧ idx = 0 ∧ skew = 0)

theorem inv_iff {s : State} :
    Inv s ↔ CodeText s.result s.codeLen s.code ∧ ScanOk s.pstate s.probeBase s.pidx s.pskew :=
  ⟨fun ⟨hl, hr, hc, hi, hm, h0⟩ => ⟨⟨hl, hr, hc⟩, hi, hm, h0⟩,
    fun ⟨⟨hl, hr, hc⟩, hi, hm, h0⟩ => ⟨hl, hr, hc, hi, hm, h0⟩⟩

/-- The fields the invariant speaks of. -/
def State.invFields (s : State) : BitVec 30 × BitVec 4 × Vector Byte 16 × PState × Word64 × BitVec 10 × BitVec 8 :=
  (s.result, s.codeLen, s.code, s.pstate, s.probeBase, s.pidx, s.pskew)

/-- An update that leaves the fields of the invariant alone keeps it. -/
theorem Inv.of_fields {s t : State} (hs : Inv s) (h : t.invFields = s.invFields) : Inv t := by
  simp only [State.invFields, Prod.mk.injEq] at h
  obtain ⟨hr, hl, hc, hp, hb, hi, hk⟩ := h
  rw [inv_iff, hr, hl, hc, hp, hb, hi, hk]
  exact inv_iff.mp hs

theorem inv_reset : Inv State.reset :=
  inv_iff.mpr ⟨by unfold CodeText; decide, by unfold ScanOk; decide⟩

/-- R78: formatting leaves the decimal form of the code value. -/
theorem codeText_codeBytes {s : State} (hd : DigitsLegal s) {v : Nat} {r : BitVec 30}
    (hr : r.toNat = v % 10 ^ digitsNat s) :
    CodeText r s.digits (codeBytes (v % 10 ^ digitsNat s) (digitsNat s)) := by
  refine ⟨hd.2, ?_, fun i hi => ?_⟩
  · rw [hr]
    exact Nat.mod_lt _ (Nat.pow_pos (by decide))
  · rw [codeBytes_toNat _ _ _ hi, hr]
    rfl

/-- A recomputed code is the decimal form of its value, and the scan is left alone (R82). -/
theorem Recomputed.inv {s t : State} (h : Recomputed s t) (hd : DigitsLegal s) (hs : Inv s) : Inv t := by
  obtain ⟨off, v, r, rfl, -, -, hr⟩ := h
  exact inv_iff.mpr ⟨codeText_codeBytes hd hr, (inv_iff.mp hs).2⟩

/-- A scan that has ended in HIT or ABORTED, or is ACTIVE, needs its index in range only. -/
theorem ScanOk.of_le {p : PState} {base : Word64} {idx : BitVec 10} {skew : BitVec 8}
    (h : idx.toNat ≤ 2 * skew.toNat) (hm : p ≠ .miss) (hi : p ≠ .idle) : ScanOk p base idx skew :=
  ⟨h, fun hp => absurd hp hm, fun hp => absurd hp hi⟩

/-- The index after one that is not the last is in range: ten bits hold twice an eight-bit skew (R31). -/
theorem pidx_succ_le {idx : BitVec 10} {skew : BitVec 8} (h : idx.toNat ≤ 2 * skew.toNat)
    (hn : idx.toNat ≠ 2 * skew.toNat) : (idx + 1).toNat ≤ 2 * skew.toNat := by
  have := skew.isLt
  rw [BitVec.toNat_add, show (1 : BitVec 10).toNat = 1 from rfl]
  omega

/-- A PROBE_STEP's decision keeps the invariant of an active scan (R94, R95). -/
theorem inv_probeDecide {s : State} (hs : Inv s) (ha : s.pstate = .active) : Inv (probeDecide s) := by
  obtain ⟨hc, hi, -⟩ := inv_iff.mp hs
  obtain ⟨-, h⟩ | ⟨-, he, h⟩ | ⟨-, hn, h⟩ := probeDecide_cases s <;> rw [h] <;> refine inv_iff.mpr ⟨hc, ?_⟩
  · exact .of_le hi nofun nofun
  · exact ⟨hi, fun _ => he, nofun⟩
  · have ha' : s.pstate ≠ .miss ∧ s.pstate ≠ .idle := by simp [ha]
    exact .of_le (pidx_succ_le hi hn) ha'.1 ha'.2

/-- Every command keeps the invariant. -/
theorem exec_inv {i : Instr} {s t : State} (hs : Inv s) (h : exec i s = .next t) : Inv t := by
  obtain ⟨hc, hp⟩ := inv_iff.mp hs
  have hi := hp.1
  cases i with
  | trunc =>
    obtain ⟨-, hx⟩ | ⟨-, off, v, hx, -⟩ := execTrunc_cases s <;> cases hx.symm.trans h <;> exact hs.of_fields rfl
  | modfmt =>
    obtain ⟨-, hx⟩ | ⟨hd, r, hx, hr⟩ := execModfmt_cases s <;> cases hx.symm.trans h
    · exact hs.of_fields rfl
    · exact inv_iff.mpr ⟨codeText_codeBytes hd hr, hp⟩
  | gen =>
    obtain ⟨-, hx⟩ | ⟨-, -, hx⟩ | ⟨hd, -, u, hu, hx⟩ := execGen_cases s <;> cases hx.symm.trans h
    · exact hs.of_fields rfl
    · exact hs.of_fields rfl
    · exact (hu.inv hd hs).of_fields rfl
  | cmp =>
    obtain ⟨-, hx⟩ | ⟨-, -, hx⟩ | ⟨-, -, -, hx⟩ | ⟨-, -, -, hx⟩ := execCmp_cases s <;> cases hx.symm.trans h <;>
      exact hs.of_fields rfl
  | validate =>
    obtain ⟨-, hx⟩ | ⟨-, -, hx⟩ | ⟨-, -, -, hx⟩ | ⟨hd, -, -, u, hu, hx⟩ := execValidate_cases s <;>
      cases hx.symm.trans h
    · exact hs.of_fields rfl
    · exact hs.of_fields rfl
    · exact hs.of_fields rfl
    · exact (hu.inv hd hs).of_fields rfl
  | tdiv =>
    cases (execTdiv_eq s).symm.trans h
    exact hs.of_fields rfl
  | probeStart =>
    cases (execProbeStart_eq s).symm.trans h
    exact inv_iff.mpr ⟨hc, .of_le (Nat.zero_le _) nofun nofun⟩
  | probeStep =>
    obtain ⟨-, hx⟩ | ⟨-, -, hx⟩ | ⟨-, -, -, hx⟩ | ⟨-, -, -, -, hx⟩ | ⟨ha, hd, -, -, u, hu, hx⟩ :=
      execProbeStep_cases s <;> cases hx.symm.trans h
    · exact hs.of_fields rfl
    · exact inv_iff.mpr ⟨hc, .of_le hi nofun nofun⟩
    · exact inv_iff.mpr ⟨hc, .of_le hi nofun nofun⟩
    · exact inv_iff.mpr ⟨hc, .of_le hi nofun nofun⟩
    · obtain ⟨-, hpst, -⟩ := hu.fields
      exact (inv_probeDecide (hu.inv hd hs) (hpst.trans ha)).of_fields rfl
  | probeClear =>
    cases (execProbeClear_eq s).symm.trans h
    exact inv_iff.mpr ⟨hc, Nat.zero_le _, nofun, fun _ => ⟨rfl, rfl, rfl⟩⟩
  | srst =>
    cases (execSrst_eq s).symm.trans h
    exact inv_reset.of_fields rfl

/-- Every register write keeps the invariant: the registers it speaks of are read-only (R15). -/
theorem busWrite_inv {s : State} (hs : Inv s) (r : Reg) (v : Word) : Inv (busWrite s r v) := by
  obtain ⟨-, -, h⟩ | ⟨-, -, h⟩ | ⟨-, -, h⟩ | ⟨-, h⟩ | ⟨-, h⟩ | h := busWrite_cases s r v <;> rw [h]
  · exact hs.of_fields rfl
  · exact hs.of_fields rfl
  · exact hs.of_fields (by simp [State.invFields])
  · exact hs.of_fields rfl
  · exact hs.of_fields rfl
  · exact hs

/-- Settles O54: a completion, a register write and a release of reset keep the invariant, and no other step touches the
registers it speaks of. -/
theorem stepKeepsTheInvariant : Obligations.StepKeepsTheInvariant := by
  intro s t hs h
  obtain ⟨l, -, -, hp⟩ | ⟨-, v, rest, r, -, -, rfl⟩ | ⟨-, l, rfl⟩ | ⟨l, b, n, x, -, rfl⟩ := step_cases h
  · have hl : Inv (s.withInbox l) := hs.of_fields rfl
    obtain ⟨i, he⟩ | rfl := runPending_cases hp
    · exact exec_inv hl he
    · exact hs.of_fields rfl
  · have hw : Inv (s.withInbox rest) := hs.of_fields rfl
    exact (busWrite_inv hw r v).of_fields rfl
  · exact inv_reset.of_fields rfl
  · exact hs.of_fields rfl

end Sys2Proof.Machine
end

section
/-! Registers as words: their lanes, their halves and their reserved bits (R15, R17, R29, R46, R47). -/

namespace Sys2Proof.Machine

/-! ## Bits and lanes of a word -/

/-- Two words with the same lanes are the same word. -/
theorem word_ext_lanes {x y : Word} (h : ∀ j < 4, x.extractLsb' (8 * j) 8 = y.extractLsb' (8 * j) 8) : x = y := by
  refine BitVec.eq_of_getLsbD_eq fun i hi => ?_
  have hb := congrArg (·.getLsbD (i % 8)) (h (i / 8) (by omega))
  simpa [BitVec.getLsbD_extractLsb', Nat.mod_lt, Nat.div_add_mod] using hb

/-- A lane of four joined bytes is its byte (R46). -/
theorem lane_join (f : Nat → Byte) (j : Nat) (h : j < 4) :
    (f 3 ++ f 2 ++ f 1 ++ f 0 : Word).extractLsb' (8 * j) 8 = f j := by
  refine BitVec.eq_of_getLsbD_eq fun i hi => ?_
  rw [BitVec.getLsbD_extractLsb']
  simp only [BitVec.getLsbD_append, hi, decide_true, Bool.true_and]
  interval_cases j <;> grind

/-- R46: the lanes of a buffer word are its bytes. -/
theorem lane_bufWord {n : Nat} (b : Vector Byte n) (k j : Nat) (h : j < 4) :
    (bufWord b k).extractLsb' (8 * j) 8 = byteAt b (4 * k + j) :=
  lane_join (fun j => byteAt b (4 * k + j)) j h

theorem bufWord_setBufWord {n : Nat} (b : Vector Byte n) (k q : Nat) (v : Word) (hq : 4 * q + 3 < n) :
    bufWord (setBufWord b k v) q = if q = k then v else bufWord b q := by
  refine word_ext_lanes fun j hj => ?_
  rw [lane_bufWord _ _ _ hj, byteAt_setBufWord _ _ _ _ (by omega), show (4 * q + j) / 4 = q by omega,
    show (4 * q + j) % 4 = j by omega]
  split
  · rfl
  · rw [lane_bufWord _ _ _ hj]

/-! ## Halves and views of 64-bit registers -/

@[simp] theorem loHalf_setLo (x : Word64) (v : Word) : loHalf (setLo x v) = v := loHalf_join _ _
@[simp] theorem hiHalf_setLo (x : Word64) (v : Word) : hiHalf (setLo x v) = hiHalf x := hiHalf_join _ _
@[simp] theorem loHalf_setHi (x : Word64) (v : Word) : loHalf (setHi x v) = loHalf x := loHalf_join _ _
@[simp] theorem hiHalf_setHi (x : Word64) (v : Word) : hiHalf (setHi x v) = v := hiHalf_join _ _

theorem counterByte_hi (c : Word64) (k : Nat) (h : k < 4) : counterByte c k = (hiHalf c).extractLsb' (24 - 8 * k) 8 := by
  rw [← counterByte_join_hi (hiHalf c) (loHalf c) k h, join_halves]

theorem counterByte_lo (c : Word64) (k : Nat) (h : 4 ≤ k) : counterByte c k = (loHalf c).extractLsb' (56 - 8 * k) 8 := by
  rw [← counterByte_join_lo (hiHalf c) (loHalf c) k h, join_halves]

/-- R29: byte `k` of the serialisation, on natural numbers. -/
theorem counterByte_toNat (c : Word64) (k : Nat) : (counterByte c k).toNat = c.toNat / 2 ^ (56 - 8 * k) % 256 := by
  rw [counterByte, BitVec.extractLsb'_toNat, Nat.shiftRight_eq_div_pow]

theorem lane_ctrBe0 (c : Word64) (j : Nat) (h : j < 4) : (ctrBe0 c).extractLsb' (8 * j) 8 = counterByte c j :=
  lane_join (counterByte c) j h

theorem lane_ctrBe1 (c : Word64) (j : Nat) (h : j < 4) : (ctrBe1 c).extractLsb' (8 * j) 8 = counterByte c (4 + j) :=
  lane_join (fun j => counterByte c (4 + j)) j h

/-- CTR_BE0 is a view of the high half. -/
theorem ctrBe0_congr {c d : Word64} (h : hiHalf c = hiHalf d) : ctrBe0 c = ctrBe0 d :=
  word_ext_lanes fun j hj => by rw [lane_ctrBe0 c j hj, lane_ctrBe0 d j hj, counterByte_hi c j hj, counterByte_hi d j hj, h]

/-- CTR_BE1 is a view of the low half. -/
theorem ctrBe1_congr {c d : Word64} (h : loHalf c = loHalf d) : ctrBe1 c = ctrBe1 d :=
  word_ext_lanes fun j hj => by
    rw [lane_ctrBe1 c j hj, lane_ctrBe1 d j hj, counterByte_lo c _ (by omega), counterByte_lo d _ (by omega), h]

/-- Settles O42: a lane of a view is a byte of the serialisation, which is a byte of one half. -/
theorem counterViewsAreBigEndian : Obligations.CounterViewsAreBigEndian := by
  intro s
  simp only [readReg]
  refine ⟨fun k hk => ?_, fun k hk => ?_, fun j hj => ?_, fun j hj => ?_⟩
  · rw [lane_ctrBe0 _ k hk, counterByte_toNat]
  · rw [lane_ctrBe1 _ k hk, counterByte_toNat, show 56 - 8 * (4 + k) = 24 - 8 * k by omega]
  · rw [lane_ctrBe0 _ j hj, counterByte_hi _ j hj]
  · rw [lane_ctrBe1 _ j hj, counterByte_lo _ _ (by omega), show 56 - 8 * (4 + j) = 24 - 8 * j by omega]

/-! ## The register map -/

theorem regAt_regOffset (r : Reg) : regAt (regOffset r) = some r := by
  cases r with
  | code k => revert k; decide
  | cand k => revert k; decide
  | digest k => revert k; decide
  | _ => rfl

theorem regOffset_aligned (r : Reg) : regOffset r % 4 = 0 := by
  cases r <;> simp [regOffset]

theorem regOffset_lt (r : Reg) : regOffset r < 0x200 := by
  cases r <;> simp [regOffset] <;> omega

theorem eq_regOffset_of_regAt {off : Nat} {r : Reg} (h : regAt off = some r) : off = regOffset r := by
  unfold regAt at h
  split at h <;> cases h <;> rfl

/-- R49: the offsets without a register, word by word. -/
theorem regAt_mul_four_eq_none_iff : ∀ k < 128, regAt (4 * k) = none ↔ ReservedOffset (4 * k) := by
  unfold ReservedOffset
  decide

/-- Settles O46: the map is read off register by register one way and offset by offset the other. -/
theorem registerMapIsComplete : Obligations.RegisterMapIsComplete := by
  refine ⟨fun r => ⟨regAt_regOffset r, regOffset_aligned r, regOffset_lt r⟩, fun _ _ => eq_regOffset_of_regAt,
    fun off hlt hal => ?_⟩
  obtain ⟨k, rfl⟩ := Nat.dvd_of_mod_eq_zero hal
  exact regAt_mul_four_eq_none_iff k (by omega)

/-! ## Reserved bits -/

/-- A field of at most `w` bits has no bit above them. -/
theorem setWidth_and_eq_zero {n : Nat} (x : BitVec n) (m : Word) (h : ∀ i < n, m.getLsbD i = false) :
    x.setWidth 32 &&& m = 0 := by
  refine BitVec.eq_of_getLsbD_eq fun i hi => ?_
  rw [BitVec.getLsbD_and, BitVec.getLsbD_setWidth]
  by_cases hn : i < n
  · simp [h i hn]
  · simp [BitVec.getLsbD_of_ge x i (by omega)]

/-- The bits of CTRL (R17). -/
theorem ctrlWord_getLsbD (s : State) (i : Nat) : (ctrlWord s).getLsbD i =
    if i < 2 then s.alg.bits.getLsbD i else if i < 4 then false else if i < 8 then s.digits.getLsbD (i - 4)
    else if i < 16 then s.skew.getLsbD (i - 8) else false := by
  change (0#16 ++ s.skew ++ s.digits ++ 0#2 ++ s.alg.bits).getLsbD i = _
  simp only [BitVec.getLsbD_append]
  grind

/-- The bits of PROBE_IDX (R31). -/
theorem probeIdxWord_getLsbD (s : State) (i : Nat) : (probeIdxWord s).getLsbD i =
    if i < 10 then s.pidx.getLsbD i else if i < 16 then false else if i < 24 then s.pskew.getLsbD (i - 16)
    else false := by
  change (0#8 ++ s.pskew ++ 0#6 ++ s.pidx).getLsbD i = _
  simp only [BitVec.getLsbD_append]
  grind

theorem ctrlWord_reserved (s : State) : ctrlWord s &&& 0xFFFF000C#32 = 0 := by
  refine BitVec.eq_of_getLsbD_eq fun i hi => ?_
  rw [BitVec.getLsbD_and, ctrlWord_getLsbD]
  interval_cases i <;> simp

theorem probeIdxWord_reserved (s : State) : probeIdxWord s &&& 0xFF00FC00#32 = 0 := by
  refine BitVec.eq_of_getLsbD_eq fun i hi => ?_
  rw [BitVec.getLsbD_and, probeIdxWord_getLsbD]
  interval_cases i <;> simp

/-- INT_STATUS and INT_ENABLE have two bits (R24, R25). -/
theorem bitPair_reserved (a b : Bool) : (0#30 ++ bit a ++ bit b : Word) &&& 0xFFFFFFFC#32 = 0 := by
  revert a b; decide

/-- Settles O47, register by register: a reserved bit lies outside every field. -/
theorem reservedFieldsReadZero : Obligations.ReservedFieldsReadZero := by
  intro s r
  cases r with
  | ctrl => exact ctrlWord_reserved s
  | status => exact (packStatus_fields ..).2.1
  | intStatus => exact bitPair_reserved _ _
  | intEnable => exact bitPair_reserved _ _
  | probeIdx => exact probeIdxWord_reserved s
  | truncOff => exact setWidth_and_eq_zero s.truncOff _ (by decide)
  | truncVal => exact setWidth_and_eq_zero s.truncVal _ (by decide)
  | result => exact setWidth_and_eq_zero s.result _ (by decide)
  | codeLen => exact setWidth_and_eq_zero s.codeLen _ (by decide)
  | _ => simp [reservedBits]

end Sys2Proof.Machine
end

section
/-! Host accesses to a register (R15, R16, R25, R47), the interrupt bits (R24, R104) and MATCH (R21). -/

namespace Sys2Proof.Machine

/-! ## Accesses that reach a register -/

theorem accessOk_regOffset (r : Reg) : accessOk (regOffset r) 0xF#4 = true := by
  simp [accessOk, regOffset_aligned]

/-- A read of a register answers with what `busRead` gives. -/
theorem step_readNext {s : State} {r : Reg} {rest : List Event} (h : ReadNext s (regOffset r) rest) :
    step s = .next (busRead (s.withInbox rest) r) := by
  rw [step_read s _ _ rest h.1 h.2 (regOffset_lt r), readWindow, if_pos (accessOk_regOffset r), regAt_regOffset]

/-- A write of a register is answered OKAY, whether it is stored, dropped or ignored (R103). -/
theorem step_writeNext {s : State} {r : Reg} {v : Word} {rest : List Event} (h : WriteNext s (regOffset r) v rest) :
    step s = .next ((busWrite (s.withInbox rest) r v).answer .writeOkay) := by
  rw [step_write s _ _ v rest h.1 h.2 (regOffset_lt r), writeWindow, if_pos (accessOk_regOffset r), regAt_regOffset]

theorem sameBlock_withInbox (s : State) (l : List Event) : SameBlock s (s.withInbox l) := by simp [SameBlock]

theorem sameBlock_answer (s : State) (b : BusOut) : SameBlock s (s.answer b) := by simp [SameBlock]

/-- ID is in no command's write set, so it reads exact while BUSY too (R71). -/
theorem writesReg_id (op : Option Instr) : writesReg op .id = false := by
  cases op with
  | none => rfl
  | some i => cases i <;> rfl

theorem busRead_id (s : State) : (busRead s .id).busOut = .readOkay 0x4F545031#32 := by
  simp [busRead, writesReg_id, readReg, idValue]

/-- Settles O41: no command's write set holds ID, and ID is read-only. -/
theorem idReadsItsConstant : Obligations.IdReadsItsConstant := by
  refine ⟨fun s rest h => ?_, fun s v rest h => ?_⟩
  · exact ⟨_, step_readNext (r := .id) h, busRead_id _, (sameBlock_withInbox s rest).trans (busRead_same _ _).1⟩
  · exact ⟨_, step_writeNext (r := .id) h, (sameBlock_withInbox s rest).trans (sameBlock_answer _ _)⟩

/-! ## A write to an operand register -/

theorem OperandRegister.isOperandReg {r : Reg} (h : OperandRegister r) : isOperandReg r = true := by
  obtain rfl | rfl | rfl | rfl | rfl | rfl | rfl | ⟨k, rfl⟩ | ⟨k, rfl⟩ := h <;> rfl

/-- Every code of ALG is legal, and reads back (R17, R18). -/
theorem algBits_ofBits (b : BitVec 2) : (Alg.ofBits b).bits = b := by
  revert b; decide

theorem ctrlWord_withCtrl (s : State) (v : Word) :
    ctrlWord (s.withCtrl (Alg.ofBits (v.extractLsb' 0 2)) (v.extractLsb' 4 4) (v.extractLsb' 8 8))
      = v &&& ~~~ 0xFFFF000C#32 := by
  refine BitVec.eq_of_getLsbD_eq fun i hi => ?_
  rw [BitVec.getLsbD_and, ctrlWord_getLsbD]
  interval_cases i <;> simp [algBits_ofBits]

/-- R15, R17, R47: an operand register reads back what was stored, but for its reserved bits. -/
theorem readReg_storeOperand_same {r : Reg} (s : State) (v : Word) (h : OperandRegister r) :
    readReg (storeOperand s r v) r = v &&& ~~~ (reservedBits r) := by
  obtain rfl | rfl | rfl | rfl | rfl | rfl | rfl | ⟨k, rfl⟩ | ⟨k, rfl⟩ := h <;>
    simp only [storeOperand, readReg, reservedBits]
  · exact ctrlWord_withCtrl s v
  all_goals rw [BitVec.ofNat_eq_ofNat, BitVec.not_zero, BitVec.and_allOnes]
  · exact loHalf_setLo _ _
  · exact hiHalf_setHi _ _
  · rfl
  · exact loHalf_setLo _ _
  · exact hiHalf_setHi _ _
  · rfl
  · exact (bufWord_setBufWord _ _ _ _ (by omega)).trans (if_pos rfl)
  · exact (bufWord_setBufWord _ _ _ _ (by omega)).trans (if_pos rfl)

/-- A write of TIME that keeps a half leaves that half's register. -/
theorem readReg_withTime_half {s : State} {q : Reg} {x : Word64} (hl : q = .timeLo → loHalf x = loHalf s.time)
    (hh : q = .timeHi → hiHalf x = hiHalf s.time) : readReg (s.withTime x) q = readReg s q := by
  by_cases h1 : q = .timeLo
  · subst h1; exact hl rfl
  by_cases h2 : q = .timeHi
  · subst h2; exact hh rfl
  exact readReg_withTime s q x h1 h2

/-- A write of COUNTER that keeps the half a register shows leaves that register (R29). -/
theorem readReg_withCounter_half {s : State} {q : Reg} {x : Word64}
    (hl : q = .counterLo ∨ q = .ctrBe1 → loHalf x = loHalf s.counter)
    (hh : q = .counterHi ∨ q = .ctrBe0 → hiHalf x = hiHalf s.counter) :
    readReg (s.withCounter x) q = readReg s q := by
  cases hq : isCounterReg q with
  | false => exact readReg_withCounter s q x hq
  | true =>
    cases q <;> simp [isCounterReg] at hq
    · exact hl (.inl rfl)
    · exact hh (.inl rfl)
    · exact ctrBe0_congr (hh (.inr rfl))
    · exact ctrBe1_congr (hl (.inr rfl))

/-- A write of one word of CAND leaves the others (R46). -/
theorem readReg_withCand_ne {s : State} {q : Reg} {k : Fin 4} {v : Word} (h : q ≠ .cand k) :
    readReg (s.withCand (setBufWord s.cand k v)) q = readReg s q := by
  by_cases hq : ∃ j, q = .cand j
  · obtain ⟨j, rfl⟩ := hq
    have hj : j.val ≠ k.val := fun e => h (by rw [Fin.ext e])
    simp [readReg, bufWord_setBufWord _ _ _ _ (show 4 * j.val + 3 < 16 by omega), hj]
  · exact readReg_withCand s q _ (by simpa using hq)

/-- A write of one word of DIGEST leaves the others (R46). -/
theorem readReg_withDigest_ne {s : State} {q : Reg} {k : Fin 16} {v : Word} (h : q ≠ .digest k) :
    readReg (s.withDigest (setBufWord s.digest k v)) q = readReg s q := by
  by_cases hq : ∃ j, q = .digest j
  · obtain ⟨j, rfl⟩ := hq
    have hj : j.val ≠ k.val := fun e => h (by rw [Fin.ext e])
    simp [readReg, bufWord_setBufWord _ _ _ _ (show 4 * j.val + 3 < 64 by omega), hj]
  · exact readReg_withDigest s q _ (by simpa using hq)

/-- A store changes its own register, and the view of the half of COUNTER it writes; no other (R15, R29, R47). -/
theorem readReg_storeOperand_other {r q : Reg} (s : State) (v : Word) (hq : q ≠ r)
    (hlo : ¬ (r = .counterLo ∧ q = .ctrBe1)) (hhi : ¬ (r = .counterHi ∧ q = .ctrBe0)) :
    readReg (storeOperand s r v) q = readReg s q := by
  obtain ⟨rfl, h⟩ | ⟨rfl, h⟩ | ⟨rfl, h⟩ | ⟨rfl, h⟩ | ⟨rfl, h⟩ | ⟨rfl, h⟩ | ⟨rfl, h⟩ | ⟨k, rfl, h⟩ | ⟨k, rfl, h⟩ | ⟨-, h⟩ :=
    storeOperand_cases s r v <;> rw [h]
  · exact readReg_withCtrl s q _ _ _ hq
  · exact readReg_withTime_half (fun e => absurd e hq) (fun _ => hiHalf_setLo _ _)
  · exact readReg_withTime_half (fun _ => loHalf_setHi _ _) (fun e => absurd e hq)
  · exact readReg_withPeriod s q _ hq
  · exact readReg_withCounter_half (fun e => absurd e (by simpa [hq] using hlo)) (fun _ => hiHalf_setLo _ _)
  · exact readReg_withCounter_half (fun _ => loHalf_setHi _ _) (fun e => absurd e (by simpa [hq] using hhi))
  · exact readReg_withCandLen s q _ hq
  · exact readReg_withCand_ne hq
  · exact readReg_withDigest_ne hq

/-- Settles O48: the write reaches `storeOperand`, which stores its register and the view of its half of COUNTER. -/
theorem operandWriteReadsBack : Obligations.OperandWriteReadsBack := by
  intro s r v rest hr h hb
  have hw : busWrite (s.withInbox rest) r v = storeOperand (s.withInbox rest) r v := by
    simp [busWrite_operand _ _ _ hr.isOperandReg, hb]
  refine ⟨_, step_writeNext h, ?_, fun q hq => ?_, ?_, ?_, ?_, ?_, ?_⟩ <;> rw [hw]
  · rw [readReg_answer, readReg_storeOperand_same _ _ hr]
  · simp only [not_or] at hq
    obtain ⟨hne, hlo, hhi⟩ := hq
    rw [readReg_answer, readReg_storeOperand_other _ _ hne hlo hhi, readReg_withInbox]
  all_goals simp [h.2]

/-! ## Interrupts -/

/-- The bits INT_STATUS and INT_ENABLE have in common (R25). -/
theorem bitPair_and (a b c d : Bool) :
    (((0#30 ++ bit a ++ bit b : Word) &&& (0#30 ++ bit c ++ bit d : Word)) != 0) = ((b && d) || (a && c)) := by
  revert a b c d; decide

/-- INT_ENABLE stores bits 1:0 (R25). -/
theorem bitPair_of_word (v : Word) : (0#30 ++ bit (v.getLsbD 1) ++ bit (v.getLsbD 0) : Word) = v &&& 3#32 := by
  refine BitVec.eq_of_getLsbD_eq fun i hi => ?_
  simp only [BitVec.getLsbD_append, BitVec.getLsbD_and, bit]
  interval_cases i <;> simp

/-- Settles O53: irq is the common bits of the two words, and INT_ENABLE takes its write whether BUSY or not. -/
theorem irqIsTheMaskedPendingLevel : Obligations.IrqIsTheMaskedPendingLevel := by
  refine ⟨fun s => (bitPair_and ..).symm, rfl, fun s v rest h => ⟨_, step_writeNext (r := .intEnable) h, ?_, ?_⟩⟩
  · exact bitPair_of_word v
  · intro q hq
    rw [readReg_answer, busWrite, storeIntEnable, readReg_withIntEnable _ _ _ _ hq, readReg_withInbox]

theorem Keeps.refl {w : Reg → Bool} (s : State) : Keeps w s s := ⟨fun _ _ _ _ => rfl, rfl, rfl, rfl, rfl, rfl⟩

/-- SRST's frame: ID and INT_ENABLE (R76). -/
theorem keeps_softReset (s : State) : Keeps (writesReg (some .srst)) s s.softReset where
  regs r h hs hi := by
    simp only [writesReg, Bool.not_eq_false', Bool.or_eq_true, beq_iff_eq, hs, hi, or_false] at h
    obtain rfl | rfl := h <;> rfl
  ovr := rfl
  rst := rfl
  inbox := rfl
  busOut := rfl
  draws := rfl

/-- R70, R71: every command ends BUSY, sets DONE, and writes no register outside its write set. -/
theorem exec_frame {i : Instr} {s t : State} (h : exec i s = .next t) :
    (∃ e, Ends t e) ∧ Keeps (writesReg (some i)) s t := by
  cases i with
  | trunc =>
    obtain ⟨-, hx⟩ | ⟨-, off, v, hx, -⟩ := execTrunc_cases s <;> cases hx.symm.trans h <;>
      refine ⟨⟨_, ends_completed _ _⟩, .completed ?_ _⟩
    · exact .refl s
    · exact keeps_withTrunc s off v
  | modfmt =>
    obtain ⟨-, hx⟩ | ⟨-, r, hx, -⟩ := execModfmt_cases s <;> cases hx.symm.trans h <;>
      refine ⟨⟨_, ends_completed _ _⟩, .completed ?_ _⟩
    · exact .refl s
    · exact keeps_withCode s r _ _
  | gen =>
    obtain ⟨-, hx⟩ | ⟨-, -, hx⟩ | ⟨-, -, u, hu, hx⟩ := execGen_cases s <;> cases hx.symm.trans h <;>
      refine ⟨⟨_, ends_completed _ _⟩, .completed ?_ _⟩
    · exact .refl s
    · exact .refl s
    · exact hu.keeps
  | cmp =>
    obtain ⟨-, hx⟩ | ⟨-, -, hx⟩ | ⟨-, -, -, hx⟩ | ⟨-, -, -, hx⟩ := execCmp_cases s <;> cases hx.symm.trans h <;>
      exact ⟨⟨_, ends_completed _ _⟩, (keeps_withMatch s _).of_none.completed _⟩
  | validate =>
    obtain ⟨-, hx⟩ | ⟨-, -, hx⟩ | ⟨-, -, -, hx⟩ | ⟨-, -, -, u, hu, hx⟩ := execValidate_cases s <;>
      cases hx.symm.trans h <;> refine ⟨⟨_, ends_completed _ _⟩, .completed ?_ _⟩
    · exact (keeps_withMatch s _).of_none
    · exact (keeps_withMatch s _).of_none
    · exact (keeps_withMatch s _).of_none
    · exact hu.keeps.trans (keeps_withMatch u _).of_none
  | tdiv =>
    cases (execTdiv_eq s).symm.trans h
    exact ⟨⟨_, ends_completed _ _⟩, (keeps_withCounter s _).completed _⟩
  | probeStart =>
    cases (execProbeStart_eq s).symm.trans h
    refine ⟨⟨_, ends_completed _ _⟩, .completed ?_ _⟩
    exact ((((keeps_withProbe s _ _ _).mono (by simp +contextual [writesReg])).trans
      ((keeps_withCounter _ _).mono (by simp +contextual [writesReg]))).trans
        (keeps_withPState _ _).of_none).trans (keeps_withMatch _ _).of_none
  | probeStep =>
    have abort : Keeps (fun _ => false) s ((s.withMatch false).withPState .aborted) :=
      (keeps_withMatch s _).trans (keeps_withPState _ _)
    obtain ⟨-, hx⟩ | ⟨-, -, hx⟩ | ⟨-, -, -, hx⟩ | ⟨-, -, -, -, hx⟩ | ⟨-, -, -, -, u, hu, hx⟩ :=
      execProbeStep_cases s <;> cases hx.symm.trans h <;> refine ⟨⟨_, ends_completed _ _⟩, .completed ?_ _⟩
    · exact .refl s
    · exact abort.of_none
    · exact abort.of_none
    · exact abort.of_none
    · exact (hu.keeps.mono (by simp +contextual [writesReg])).trans
        ((keeps_probeDecide u).mono (by simp +contextual [writesReg]))
  | probeClear =>
    cases (execProbeClear_eq s).symm.trans h
    exact ⟨⟨_, ends_completed _ _⟩, ((keeps_withProbe s _ _ _).trans (keeps_withPState _ _).of_none).completed _⟩
  | srst =>
    cases (execSrst_eq s).symm.trans h
    exact ⟨⟨_, ends_completed _ _⟩, (keeps_softReset s).completed _⟩

/-- A completion ends BUSY, sets DONE and leaves OVR, whatever the pending word (R70, R75, R104). -/
theorem runPending_interrupts {s t : State} (h : runPending s = .next t) :
    t.busy = false ∧ t.done = true ∧ t.ovr = s.ovr := by
  obtain ⟨i, he⟩ | rfl := runPending_cases h
  · obtain ⟨⟨e, hend⟩, hk⟩ := exec_frame he
    exact ⟨hend.busy, hend.done, hk.ovr⟩
  · exact ⟨rfl, rfl, rfl⟩

/-- What a register write does to DONE and OVR: nothing, or OVR is set while BUSY, or INT_STATUS takes its W1C write
(R24, R67, R68). -/
theorem busWrite_interrupts (s : State) (r : Reg) (v : Word) :
    ((busWrite s r v).done = s.done ∧ (busWrite s r v).ovr = s.ovr) ∨
    (s.busy = true ∧ (busWrite s r v).done = s.done ∧ (busWrite s r v).ovr = true) ∨
    (r = .intStatus ∧ (busWrite s r v).done = (s.done && !v.getLsbD 0)
      ∧ (busWrite s r v).ovr = (s.ovr && !v.getLsbD 1)) := by
  obtain ⟨-, -, h⟩ | ⟨hb, -, h⟩ | ⟨-, -, h⟩ | ⟨hr, h⟩ | ⟨-, h⟩ | h := busWrite_cases s r v <;> rw [h]
  · exact .inl ⟨rfl, rfl⟩
  · exact .inr (.inl ⟨hb, rfl, rfl⟩)
  · exact .inl ⟨storeOperand_done s r v, storeOperand_ovr s r v⟩
  · exact .inr (.inr ⟨hr, rfl, rfl⟩)
  · exact .inl ⟨rfl, rfl⟩
  · exact .inl ⟨rfl, rfl⟩

/-- Everything a step does to DONE and OVR (R24, R104, R115): a completion sets DONE, a write while BUSY sets OVR, a write
of INT_STATUS clears the bits it holds, the release of reset clears both, and no other step touches them. -/
theorem step_interrupts {s t : State} (h : step s = .next t) :
    (s.busy = true ∧ t.busy = false ∧ t.done = true ∧ t.ovr = s.ovr) ∨
    (s.busy = true ∧ (∃ off v rest, s.inbox = .write off 0xF#4 v :: rest) ∧ t.done = s.done ∧ t.ovr = true) ∨
    (∃ v rest, s.inbox = .write 0x010 0xF#4 v :: rest ∧ t.done = (s.done && !v.getLsbD 0)
      ∧ t.ovr = (s.ovr && !v.getLsbD 1)) ∨
    (s.rst = true ∧ t.rst = false ∧ t.done = false ∧ t.ovr = false) ∨
    (t.done = s.done ∧ t.ovr = s.ovr) := by
  obtain ⟨l, hb, -, hp⟩ | ⟨off, v, rest, r, hi, hoff, rfl⟩ | ⟨hr, l, rfl⟩ | ⟨l, b, n, x, -, rfl⟩ := step_cases h
  · obtain ⟨hbusy, hdone, hovr⟩ := runPending_interrupts hp
    exact .inl ⟨hb, hbusy, hdone, hovr⟩
  · obtain ⟨hd, ho⟩ | ⟨hb, hd, ho⟩ | ⟨rfl, hd, ho⟩ := busWrite_interrupts (s.withInbox rest) r v
    · exact .inr (.inr (.inr (.inr ⟨hd, ho⟩)))
    · exact .inr (.inl ⟨hb, ⟨_, _, _, hi⟩, hd, ho⟩)
    · cases eq_regOffset_of_regAt hoff
      exact .inr (.inr (.inl ⟨v, rest, hi, hd, ho⟩))
  · exact .inr (.inr (.inr (.inl ⟨hr, rfl, rfl, rfl⟩)))
  · exact .inr (.inr (.inr (.inr ⟨rfl, rfl⟩)))

/-- Settles O52, by what each kind of step does to the two bits. -/
theorem interruptBitsAreSticky : Obligations.InterruptBitsAreSticky := by
  intro s t h
  obtain ⟨hb, hb', hd, ho⟩ | ⟨hb, hw, hd, ho⟩ | ⟨v, rest, hi, hd, ho⟩ | ⟨hr, hr', hd, ho⟩ | ⟨hd, ho⟩ :=
    step_interrupts h <;> rw [hd, ho]
  · exact ⟨nofun, by grind, fun _ _ => ⟨hb, hb'⟩, by grind⟩
  · exact ⟨by grind, nofun, by grind, fun _ _ => ⟨hb, hw⟩⟩
  · exact ⟨fun h1 h0 => .inl ⟨v, rest, hi, by simpa [h1] using h0⟩, fun h1 h0 => .inl ⟨v, rest, hi, by simpa [h1] using h0⟩,
      by simp +contextual, by simp +contextual⟩
  · exact ⟨fun _ _ => .inr ⟨hr, hr'⟩, fun _ _ => .inr ⟨hr, hr'⟩, nofun, nofun⟩
  · simp +contextual

/-! ## MATCH -/

/-- R85: `ct_eq` is 1 exactly on equality. -/
theorem ctEq_iff (a b : Vector Byte 16) (n : Nat) : ctEq a b n = true ↔ ∀ i < n, byteAt a i = byteAt b i := by
  rw [ctEq, beq_iff_eq]
  induction n with
  | zero => simp
  | succ n ih => rw [ctAcc_succ, byte_or_eq_zero, ih, BitVec.ofNat_eq_ofNat, BitVec.xor_eq_zero_iff, Nat.forall_lt_succ_right]

theorem Recomputed.codeLen {s t : State} (h : Recomputed s t) : t.codeLen = s.digits := by
  obtain ⟨off, v, r, rfl, -⟩ := h
  rfl

/-- A PROBE_STEP's decision sets MATCH only on equal bytes (R94). -/
theorem probeDecide_matched {s : State} (h : (probeDecide s).matched = true) :
    ctEq s.cand s.code s.digits.toNat = true := by
  obtain ⟨hc, -⟩ | ⟨-, -, hd⟩ | ⟨-, -, hd⟩ := probeDecide_cases s
  · exact hc
  · simp [hd] at h
  · simp [hd] at h

/-- The code registers a PROBE_STEP's decision leaves alone. -/
theorem probeDecide_code (s : State) : (probeDecide s).code = s.code ∧ (probeDecide s).codeLen = s.codeLen := by
  obtain ⟨-, hd⟩ | ⟨-, -, hd⟩ | ⟨-, -, hd⟩ := probeDecide_cases s <;> simp [hd]

/-- Settles O57: each error path leaves MATCH 0, and each success path sets it by `ct_eq` over the first DIGITS bytes. -/
theorem matchMeansExactMatch : Obligations.MatchMeansExactMatch := by
  intro i s t hi h hm
  obtain rfl | rfl | ⟨rfl, ha⟩ := hi
  · obtain ⟨-, hx⟩ | ⟨-, -, hx⟩ | ⟨-, -, -, hx⟩ | ⟨-, hc, hl, hx⟩ := execCmp_cases s <;> cases hx.symm.trans h
    · cases hm
    · cases hm
    · cases hm
    · exact ⟨rfl, hc, hl, (ctEq_iff _ _ _).mp hm⟩
  · obtain ⟨-, hx⟩ | ⟨-, -, hx⟩ | ⟨-, -, -, hx⟩ | ⟨-, hc, -, u, hu, hx⟩ := execValidate_cases s <;>
      cases hx.symm.trans h
    · cases hm
    · cases hm
    · cases hm
    · exact ⟨rfl, hc, hu.codeLen, (ctEq_iff _ _ _).mp hm⟩
  · obtain ⟨hn, -⟩ | ⟨-, -, hx⟩ | ⟨-, -, -, hx⟩ | ⟨-, -, -, -, hx⟩ | ⟨-, -, hc, -, u, hu, hx⟩ := execProbeStep_cases s
    · exact absurd ha hn
    all_goals cases hx.symm.trans h
    · cases hm
    · cases hm
    · cases hm
    · obtain ⟨-, -, hcand, hdigits, -⟩ := hu.fields
      obtain ⟨hcode, hlen⟩ := probeDecide_code u
      have heq := (ctEq_iff _ _ _).mp (probeDecide_matched hm)
      rw [hcand, hdigits] at heq
      refine ⟨rfl, hc, hlen.trans hu.codeLen, ?_⟩
      rw [CandEquals, State.completed_code, hcode]
      exact heq

end Sys2Proof.Machine
end

section
/-! Host accesses to the register window: outside it, refused, reserved and read (R46 to R50), and that the machine stops
on none inside it (R49, R99). -/

namespace Sys2Proof.Machine

/-! ## What an access does, by where it falls -/

/-- R115: inside the window, a read reaches the block unless reset is asserted. -/
theorem hostRead_inWindow (s : State) {off : Nat} (lanes : BitVec 4) (h : off < 0x200) :
    hostRead s off lanes = .next (if s.rst then s.answer .ignored else readWindow s off lanes) := by
  rw [hostRead, if_neg (show ¬ windowSize ≤ off from Nat.not_le.mpr h)]
  split <;> rfl

theorem hostWrite_inWindow (s : State) {off : Nat} (lanes : BitVec 4) (v : Word) (h : off < 0x200) :
    hostWrite s off lanes v = .next (if s.rst then s.answer .ignored else writeWindow s off lanes v) := by
  rw [hostWrite, if_neg (show ¬ windowSize ≤ off from Nat.not_le.mpr h)]
  split <;> rfl

theorem hostRead_outside (s : State) {off : Nat} (lanes : BitVec 4) (h : 0x200 ≤ off) :
    hostRead s off lanes = .fault .outsideWindow := if_pos h

theorem hostWrite_outside (s : State) {off : Nat} (lanes : BitVec 4) (v : Word) (h : 0x200 ≤ off) :
    hostWrite s off lanes v = .fault .outsideWindow := if_pos h

/-- R48: an access is refused when it is narrow or misaligned. -/
theorem accessOk_eq_false {off : Nat} {lanes : BitVec 4} (h : lanes ≠ 0xF#4 ∨ off % 4 ≠ 0) :
    accessOk off lanes = false := by
  simpa [accessOk, imp_iff_not_or] using h

theorem readWindow_refused (s : State) {off : Nat} {lanes : BitVec 4} (h : accessOk off lanes = false) :
    readWindow s off lanes = (s.answer (.readError (Config.draw s.draws))).drew := by
  simp [readWindow, h]

theorem writeWindow_refused (s : State) {off : Nat} {lanes : BitVec 4} (v : Word) (h : accessOk off lanes = false) :
    writeWindow s off lanes v = s.answer .writeError := by
  simp [writeWindow, h]

theorem ReservedOffset.lt {off : Nat} (h : ReservedOffset off) : off < 0x200 := by
  unfold ReservedOffset at h
  omega

theorem ReservedOffset.accessOk_eq_true {off : Nat} (h : ReservedOffset off) : accessOk off 0xF#4 = true := by
  simp [accessOk, h.1]

theorem ReservedOffset.regAt_eq_none {off : Nat} (h : ReservedOffset off) : regAt off = none := by
  have hlt := h.lt
  obtain ⟨k, rfl⟩ := Nat.dvd_of_mod_eq_zero h.1
  exact (regAt_mul_four_eq_none_iff k (by omega)).mpr h

theorem readWindow_reserved (s : State) {off : Nat} (h : ReservedOffset off) :
    readWindow s off 0xF#4 = s.answer (.readOkay 0) := by
  simp [readWindow, h.accessOk_eq_true, h.regAt_eq_none]

theorem writeWindow_reserved (s : State) {off : Nat} (v : Word) (h : ReservedOffset off) :
    writeWindow s off 0xF#4 v = s.answer .writeOkay := by
  simp [writeWindow, h.accessOk_eq_true, h.regAt_eq_none]

theorem sameBlock_drew (s : State) : SameBlock s s.drew := by simp [SameBlock]

/-- An access that is only answered leaves the block as it was. -/
theorem sameBlock_withInbox_answer (s : State) (l : List Event) (b : BusOut) :
    SameBlock s ((s.withInbox l).answer b) := (sameBlock_withInbox s l).trans (sameBlock_answer _ b)

/-- Settles O18, by the check that comes first in an access (log 17). -/
theorem outsideWindowStops : Obligations.OutsideWindowStops := by
  intro s off lanes v rest ho h
  obtain h | h := h <;> rw [step_cons s _ rest h]
  · exact hostRead_outside _ lanes ho
  · exact hostWrite_outside _ lanes v ho

/-- Settles O44: a refused access is answered before any register is looked up. -/
theorem refusedAccessHasNoEffect : Obligations.RefusedAccessHasNoEffect := by
  intro s off lanes v rest hr ho hbad
  have ha := accessOk_eq_false hbad
  refine ⟨fun h => ⟨_, step_read s off lanes rest h hr ho, ?_⟩, fun h => ⟨_, step_write s off lanes v rest h hr ho, ?_⟩⟩
  · rw [readWindow_refused _ ha]
    exact ⟨(sameBlock_withInbox_answer s rest _).trans (sameBlock_drew _), rfl, rfl, rfl⟩
  · rw [writeWindow_refused _ v ha]
    exact ⟨sameBlock_withInbox_answer s rest _, rfl, rfl⟩

/-- Settles O45: the register map has nothing at a reserved offset, so an access there is only answered. -/
theorem reservedOffsetsReadZero : Obligations.ReservedOffsetsReadZero := by
  intro s off v rest ho
  refine ⟨fun h => ⟨_, step_read s off _ rest h.1 h.2 ho.lt, ?_⟩, fun h => ⟨_, step_write s off _ v rest h.1 h.2 ho.lt, ?_⟩⟩
  · rw [readWindow_reserved _ ho]
    exact ⟨sameBlock_withInbox_answer s rest _, rfl⟩
  · rw [writeWindow_reserved _ v ho]
    exact ⟨sameBlock_withInbox_answer s rest _, rfl⟩

/-! ## Reads -/

/-- R71: a read is exact while idle, and while BUSY of a register but STATUS that the pending command does not write. -/
theorem busRead_exact {s : State} {r : Reg}
    (h : s.busy = false ∨ r ≠ .status ∧ writesReg (commandOf s.pendOp) r = false) :
    busRead s r = s.answer (.readOkay (readReg s r)) := by
  obtain hb | ⟨hs, hw⟩ := h
  · simp [busRead, hb]
  · simp [busRead, hs, hw]

/-- SRST alone has CMD in its write set (R71; log 6). -/
theorem writesReg_cmd {op : Option Instr} (h : op ≠ some .srst) : writesReg op .cmd = false := by
  cases op with
  | none => rfl
  | some i =>
    cases i with
    | srst => exact absurd rfl h
    | _ => rfl

/-- Settles O49: whatever a read finds, it changes the answer and the count of free values only. -/
theorem readsHaveNoSideEffects : Obligations.ReadsHaveNoSideEffects := by
  refine ⟨fun s off lanes rest h ho => ?_, fun s r rest h hb => ?_, fun s rest h hc => ?_⟩
  · refine ⟨_, (step_cons s _ rest h).trans (hostRead_inWindow _ lanes ho), ?_⟩
    split
    · exact ⟨sameBlock_withInbox_answer s rest _, rfl⟩
    · obtain ⟨hsame, hinbox⟩ := readWindow_same (s.withInbox rest) off lanes
      exact ⟨(sameBlock_withInbox s rest).trans hsame, hinbox⟩
  · refine ⟨_, step_readNext h, ?_⟩
    rw [busRead_exact (s := s.withInbox rest) (.inl hb), readReg_withInbox]
    exact ⟨rfl, rfl⟩
  · refine ⟨_, step_readNext (r := .cmd) h, ?_⟩
    rw [busRead_exact (s := s.withInbox rest) (r := .cmd) (hc.imp_right fun hn => ⟨nofun, writesReg_cmd hn⟩)]
    rfl

/-! ## Buffer words -/

/-- While idle, a write of an operand register is stored (R68). -/
theorem step_operandWrite {s : State} {r : Reg} {v : Word} {rest : List Event} (h : WriteNext s (regOffset r) v rest)
    (hr : isOperandReg r = true) (hb : s.busy = false) :
    step s = .next ((storeOperand (s.withInbox rest) r v).answer .writeOkay) := by
  rw [step_writeNext h, busWrite_operand _ _ _ hr, if_neg (by simp [hb])]

/-- Settles O43: a lane of a word is its byte, and a store replaces one word of its buffer. -/
theorem bufferWordsAreLittleEndian : Obligations.BufferWordsAreLittleEndian := by
  refine ⟨fun s j hj => ?_, fun s k v rest h hb => ?_, fun s k v rest h hb => ?_⟩
  · exact ⟨fun k => lane_bufWord _ _ _ hj, fun k => lane_bufWord _ _ _ hj, fun k => lane_bufWord _ _ _ hj,
      lane_ctrBe0 _ _ hj, lane_ctrBe1 _ _ hj⟩
  · refine ⟨_, step_operandWrite (r := .digest k) h rfl hb, fun q hq => ?_, fun i hi => byteAt_setBufWord _ _ _ _ hi⟩
    rw [readReg_answer, storeOperand, readReg_withDigest_ne hq, readReg_withInbox]
  · refine ⟨_, step_operandWrite (r := .cand k) h rfl hb, fun q hq => ?_, fun i hi => byteAt_setBufWord _ _ _ _ hi⟩
    rw [readReg_answer, storeOperand, readReg_withCand_ne hq, readReg_withInbox]

/-! ## The machine never stops on safe inputs -/

/-- Every command completes, on every path (R70, R99). -/
theorem exec_answers (i : Instr) (s : State) : ∃ t, exec i s = .next t := by
  cases i with
  | trunc => obtain ⟨-, h⟩ | ⟨-, _, _, h, -⟩ := execTrunc_cases s <;> exact ⟨_, h⟩
  | modfmt => obtain ⟨-, h⟩ | ⟨-, _, h, -⟩ := execModfmt_cases s <;> exact ⟨_, h⟩
  | gen => obtain ⟨-, h⟩ | ⟨-, -, h⟩ | ⟨-, -, _, -, h⟩ := execGen_cases s <;> exact ⟨_, h⟩
  | cmp => obtain ⟨-, h⟩ | ⟨-, -, h⟩ | ⟨-, -, -, h⟩ | ⟨-, -, -, h⟩ := execCmp_cases s <;> exact ⟨_, h⟩
  | validate =>
    obtain ⟨-, h⟩ | ⟨-, -, h⟩ | ⟨-, -, -, h⟩ | ⟨-, -, -, _, -, h⟩ := execValidate_cases s <;> exact ⟨_, h⟩
  | tdiv => exact ⟨_, execTdiv_eq s⟩
  | probeStart => exact ⟨_, execProbeStart_eq s⟩
  | probeStep =>
    obtain ⟨-, h⟩ | ⟨-, -, h⟩ | ⟨-, -, -, h⟩ | ⟨-, -, -, -, h⟩ | ⟨-, -, -, -, _, -, h⟩ := execProbeStep_cases s <;>
      exact ⟨_, h⟩
  | probeClear => exact ⟨_, execProbeClear_eq s⟩
  | srst => exact ⟨_, execSrst_eq s⟩

/-- A pending word completes and takes nothing off the inbox, legal or not (R70, R75). -/
theorem runPending_answers (s : State) : ∃ t, runPending s = .next t ∧ t.inbox = s.inbox := by
  unfold runPending
  split
  next i _ =>
    obtain ⟨t, h⟩ := exec_answers i s
    exact ⟨t, h, (exec_frame h).2.inbox⟩
  next => exact ⟨_, completeIllegal_eq s, rfl⟩

theorem completionStep_answers (s : State) : ∃ t, completionStep s = .next t ∧ t.inbox = s.inbox := by
  unfold completionStep
  split
  · exact runPending_answers s
  · exact ⟨s, rfl, rfl⟩

theorem setResetPin_inbox (s : State) (level : Bool) : (setResetPin s level).inbox = s.inbox := by
  unfold setResetPin
  split
  · rfl
  · split <;> rfl

/-- An event is answered and leaves the later ones, unless it is an access outside the window (R49). -/
theorem handle_answers {e : Event} (h : e.inWindow) (s : State) : ∃ t, handle e s = .next t ∧ t.inbox = s.inbox := by
  cases e with
  | read off lanes =>
    refine ⟨_, hostRead_inWindow s lanes h, ?_⟩
    split
    · rfl
    · exact (readWindow_same s off lanes).2
  | write off lanes v =>
    refine ⟨_, hostWrite_inWindow s lanes v h, ?_⟩
    split
    · rfl
    · exact writeWindow_inbox s v off lanes
  | completion => exact completionStep_answers s
  | resetPin level => exact ⟨_, rfl, setResetPin_inbox s level⟩

/-- Settles O17: a step handles the first event or completes the pending command, and either leaves the later events. -/
theorem safeInputsNeverStop : Obligations.SafeInputsNeverStop := by
  intro s hs
  unfold SafeInputs at hs ⊢
  cases hi : s.inbox with
  | nil =>
    obtain ⟨t, ht, hinbox⟩ := completionStep_answers s
    exact ⟨t, (step_nil s hi).trans ht, by rwa [hinbox]⟩
  | cons e rest =>
    rw [hi, List.forall_mem_cons] at hs
    obtain ⟨he, hrest⟩ := hs
    obtain ⟨t, ht, hinbox⟩ := handle_answers he (s.withInbox rest)
    exact ⟨t, (step_cons s e rest hi).trans ht, by rwa [hinbox]⟩

end Sys2Proof.Machine
end

section
/-! The command words: decoding and encoding (R57 to R60), and what an illegal word does (R58, R75). -/

namespace Sys2Proof.Machine

/-! ## Decoding -/

/-- R57: the two fields make the word. -/
theorem rsvField_append_opField (w : Word) : rsvField w ++ opField w = w :=
  BitVec.extractLsb'_append_extractLsb' (w := 24) (len := 8)

theorem rsvField_encode (i : Instr) : rsvField (encode i) = 0 := BitVec.extractLsb'_append_eq_left

theorem opField_encode (i : Instr) : opField (encode i) = opcode i := BitVec.extractLsb'_append_eq_right

/-- R59: the opcode map, read either way. -/
theorem decodeOp_eq_ok_iff {op : BitVec 8} {i : Instr} : decodeOp op = .ok i ↔ op = opcode i := by
  constructor
  · intro h
    unfold decodeOp at h
    split at h <;> cases h <;> exact BitVec.eq_of_toNat_eq ‹_›
  · rintro rfl
    cases i <;> rfl

/-- R58: the whole word is decoded, RSV included. -/
theorem decode_eq_ok_iff {w : Word} {i : Instr} :
    decode w = .ok i ↔ rsvField w = 0 ∧ decodeOp (opField w) = .ok i := by
  unfold decode
  split
  next h => simp [h]
  next h => exact ⟨nofun, fun hd => absurd hd.1 h⟩

theorem decode_encode (i : Instr) : decode (encode i) = .ok i :=
  decode_eq_ok_iff.mpr ⟨rsvField_encode i, decodeOp_eq_ok_iff.mpr (opField_encode i)⟩

/-- Settles O2: a word is its two fields, and those of a command's word are 0 and its opcode. -/
theorem decodeAndEncodeAgree : Obligations.DecodeAndEncodeAgree := by
  refine fun w i => ⟨fun h => ?_, fun h => h ▸ decode_encode i⟩
  obtain ⟨hr, ho⟩ := decode_eq_ok_iff.mp h
  calc w = rsvField w ++ opField w := (rsvField_append_opField w).symm
    _ = encode i := by rw [hr, decodeOp_eq_ok_iff.mp ho]; rfl

/-- Settles O1: ten of the words are the encodings, and two have a reserved field. -/
theorem opcodeMapWords : Obligations.OpcodeMapWords :=
  ⟨decode_encode .trunc, decode_encode .modfmt, decode_encode .gen, decode_encode .cmp, decode_encode .validate,
    decode_encode .tdiv, decode_encode .probeStart, decode_encode .probeStep, decode_encode .probeClear,
    decode_encode .srst, rfl, rfl⟩

/-! ## Legal and illegal words -/

theorem rsvField_eq_zero_iff (w : Word) : rsvField w = 0 ↔ w.toNat / 256 = 0 := by
  have := w.isLt
  rw [← BitVec.toNat_inj, rsvField, BitVec.extractLsb'_toNat, Nat.shiftRight_eq_div_pow]
  simp only [BitVec.ofNat_eq_ofNat, BitVec.toNat_ofNat]
  omega

theorem opField_toNat (w : Word) : (opField w).toNat = w.toNat % 256 := by
  rw [opField, BitVec.extractLsb'_toNat, Nat.shiftRight_zero]

/-- R59: the assigned opcodes are 0x01 to 0x0A. -/
theorem decodeOp_isOk_iff (op : BitVec 8) : (∃ i, decodeOp op = .ok i) ↔ 1 ≤ op.toNat ∧ op.toNat ≤ 10 := by
  unfold decodeOp
  split
  case h_11 => grind
  all_goals simp [*]

/-- R58: the legal words. -/
theorem decode_isOk_iff (w : Word) :
    (∃ i, decode w = .ok i) ↔ w.toNat / 256 = 0 ∧ 1 ≤ w.toNat % 256 ∧ w.toNat % 256 ≤ 0x0A := by
  simp only [decode_eq_ok_iff, exists_and_left, decodeOp_isOk_iff, rsvField_eq_zero_iff, opField_toNat]

/-- R75: a word that is no command's completes as an illegal one. -/
theorem runPending_illegal {s : State} (h : ¬ ∃ i, decode s.pendOp = .ok i) :
    runPending s = .next (s.completed .illegalCmd) := by
  unfold runPending
  split
  next i hi => exact absurd ⟨i, hi⟩ h
  next => exact completeIllegal_eq s

/-- R66: a write of CMD while idle is accepted, whatever its word. -/
theorem step_cmdWrite {s : State} {w : Word} {rest : List Event} (h : WriteNext s 0x00C w rest) (hb : s.busy = false) :
    step s = .next (((s.withInbox rest).accept w).answer .writeOkay) := by
  rw [step_writeNext (r := .cmd) h, busWrite, if_neg (by simp [hb])]

/-- Settles O3: by the range of the opcodes, the completion of a word outside it, and acceptance, which does not decode. -/
theorem illegalWordsCompleteWithIllegalCmd : Obligations.IllegalWordsCompleteWithIllegalCmd := by
  refine ⟨decode_isOk_iff, fun s rest hc hw => ?_, fun s w rest h hb => ⟨_, step_cmdWrite h hb, rfl, rfl⟩⟩
  have hill : ¬ ∃ i, decode s.pendOp = .ok i := by
    rw [decode_isOk_iff]
    omega
  exact ⟨_, (step_completion s rest hc).trans (runPending_illegal hill), ends_completed _ _, ⟨rfl, rfl⟩,
    keeps_completed _ _⟩

end Sys2Proof.Machine
end

section
/-! Two runs of one command in states that agree on its operands (R11, R61): they take the same branches and write the
same values. -/

namespace Sys2Proof.Machine

/-! ## The same writes in two states -/

/-- A value ends the same in two runs, or keeps its old value in both. -/
def SameOrKept {α : Type} (old old' new new' : α) : Prop := new = new' ∨ (new = old ∧ new' = old')

theorem SameOrKept.trans {α : Type} {a a' b b' c c' : α} (h : SameOrKept a a' b b') (h' : SameOrKept b b' c c') :
    SameOrKept a a' c c' := by
  obtain h' | ⟨rfl, rfl⟩ := h'
  · exact .inl h'
  · exact h

/-- From an old value they had in common, two runs end in one value. -/
theorem SameOrKept.eq {α : Type} {a b b' : α} (h : SameOrKept a a b b') : b = b' := by
  obtain h | ⟨rfl, rfl⟩ := h
  · exact h
  · rfl

/-- From `s` to `t` and from `s'` to `t'`, the same values are written. -/
structure SameWrites (s s' t t' : State) : Prop where
  regs : ∀ r, r ≠ .status → r ≠ .intStatus → SameOrKept (readReg s r) (readReg s' r) (readReg t r) (readReg t' r)
  matched : SameOrKept s.matched s'.matched t.matched t'.matched
  pstate : SameOrKept s.pstate s'.pstate t.pstate t'.pstate

variable {s s' t t' u u' : State}

theorem SameWrites.trans (h : SameWrites s s' t t') (h' : SameWrites t t' u u') : SameWrites s s' u u' :=
  ⟨fun r hs hi => (h.regs r hs hi).trans (h'.regs r hs hi), h.matched.trans h'.matched, h.pstate.trans h'.pstate⟩

/-- Two updates with one frame make the same writes if they agree on the registers in it. -/
theorem SameWrites.of_keeps {w : Reg → Bool} (hk : Keeps w s t) (hk' : Keeps w s' t')
    (hw : ∀ r, w r = true → readReg t r = readReg t' r)
    (hm : SameOrKept s.matched s'.matched t.matched t'.matched)
    (hp : SameOrKept s.pstate s'.pstate t.pstate t'.pstate) : SameWrites s s' t t' where
  regs r hs hi := by
    cases h : w r with
    | true => exact .inl (hw r h)
    | false => exact .inr ⟨hk.regs r h hs hi, hk'.regs r h hs hi⟩
  matched := hm
  pstate := hp

theorem sameWrites_refl (s s' : State) : SameWrites s s' s s' :=
  ⟨fun _ _ _ => .inr ⟨rfl, rfl⟩, .inr ⟨rfl, rfl⟩, .inr ⟨rfl, rfl⟩⟩

theorem sameWrites_withTrunc (s s' : State) (off : BitVec 4) (v : BitVec 31) :
    SameWrites s s' (s.withTrunc off v) (s'.withTrunc off v) :=
  .of_keeps (keeps_withTrunc ..) (keeps_withTrunc ..)
    (fun r h => by cases r <;> simp [isTruncReg] at h <;> rfl) (.inr ⟨rfl, rfl⟩) (.inr ⟨rfl, rfl⟩)

theorem sameWrites_withCode (s s' : State) (x : BitVec 30) (l : BitVec 4) (c : Vector Byte 16) :
    SameWrites s s' (s.withCode x l c) (s'.withCode x l c) :=
  .of_keeps (keeps_withCode ..) (keeps_withCode ..)
    (fun r h => by cases r <;> simp [isCodeReg] at h <;> rfl) (.inr ⟨rfl, rfl⟩) (.inr ⟨rfl, rfl⟩)

theorem sameWrites_withMatch (s s' : State) {b b' : Bool} (hb : b = b') :
    SameWrites s s' (s.withMatch b) (s'.withMatch b') :=
  .of_keeps (keeps_withMatch ..) (keeps_withMatch ..) nofun (.inl hb) (.inr ⟨rfl, rfl⟩)

theorem sameWrites_withPState (s s' : State) (p : PState) : SameWrites s s' (s.withPState p) (s'.withPState p) :=
  .of_keeps (keeps_withPState ..) (keeps_withPState ..) nofun (.inr ⟨rfl, rfl⟩) (.inl rfl)

theorem sameWrites_withCounter (s s' : State) (c : Word64) : SameWrites s s' (s.withCounter c) (s'.withCounter c) :=
  .of_keeps (keeps_withCounter ..) (keeps_withCounter ..)
    (fun r h => by cases r <;> simp [isCounterReg] at h <;> rfl) (.inr ⟨rfl, rfl⟩) (.inr ⟨rfl, rfl⟩)

theorem sameWrites_withProbe (s s' : State) (b : Word64) (i : BitVec 10) (k : BitVec 8) :
    SameWrites s s' (s.withProbe b i k) (s'.withProbe b i k) :=
  .of_keeps (keeps_withProbe ..) (keeps_withProbe ..)
    (fun r h => by cases r <;> simp [isProbeBaseReg] at h <;> rfl) (.inr ⟨rfl, rfl⟩) (.inr ⟨rfl, rfl⟩)

/-- PROBE_IDX holds PSKEW beside PIDX (R31), so the two states must agree on it. -/
theorem sameWrites_withPidx (s s' : State) (hk : s.pskew = s'.pskew) (i : BitVec 10) :
    SameWrites s s' (s.withPidx i) (s'.withPidx i) :=
  .of_keeps (keeps_withPidx ..) (keeps_withPidx ..)
    (fun r h => by
      obtain rfl := eq_of_beq h
      simp [readReg, probeIdxWord, hk]) (.inr ⟨rfl, rfl⟩) (.inr ⟨rfl, rfl⟩)

theorem sameWrites_softReset (s s' : State) : SameWrites s s' s.softReset s'.softReset :=
  .of_keeps (keeps_softReset s) (keeps_softReset s')
    (fun r h => by
      simp only [writesReg, Bool.not_eq_true', Bool.or_eq_false_iff, beq_eq_false_iff_ne] at h
      obtain ⟨⟨⟨-, hi⟩, he⟩, hs⟩ := h
      rw [readReg_softReset s r hs hi he, readReg_softReset s' r hs hi he]) (.inl rfl) (.inl rfl)

theorem sameWrites_completed (s s' : State) (e : ErrCode) : SameWrites s s' (s.completed e) (s'.completed e) :=
  .of_keeps (keeps_completed ..) (keeps_completed ..) nofun (.inr ⟨rfl, rfl⟩) (.inr ⟨rfl, rfl⟩)

/-! ## The same completion in two states -/

/-- Two completions, from `s` and from `s'`, end in the same error and make the same writes. -/
def SameEnd (s s' : State) (o o' : Host.Outcome State Fault Refusal) : Prop :=
  ∃ t t' e, o = .next (t.completed e) ∧ o' = .next (t'.completed e) ∧ SameWrites s s' t t'

theorem SameWrites.complete (h : SameWrites s s' t t') : SameEnd s s' (complete t) (complete t') :=
  ⟨t, t', .none, rfl, rfl, h⟩

theorem sameEnd_raise (s s' : State) (e : ErrCode) : SameEnd s s' (raise s e) (raise s' e) :=
  ⟨s, s', e, rfl, rfl, sameWrites_refl s s'⟩

theorem sameEnd_raiseNoMatch (s s' : State) (e : ErrCode) : SameEnd s s' (raiseNoMatch s e) (raiseNoMatch s' e) :=
  ⟨_, _, e, rfl, rfl, sameWrites_withMatch s s' rfl⟩

theorem sameEnd_raiseAbort (s s' : State) (e : ErrCode) : SameEnd s s' (raiseAbort s e) (raiseAbort s' e) :=
  ⟨_, _, e, rfl, rfl, (sameWrites_withMatch s s' rfl).trans (sameWrites_withPState ..)⟩

/-- Two runs that take the same branch. -/
theorem rel_ite {α : Type} (R : α → α → Prop) {p p' : Prop} [Decidable p] [Decidable p'] {a a' b b' : α}
    (hp : p = p') (ht : R a a') (hf : R b b') : R (if p then a else b) (if p' then a' else b') := by
  subst hp
  by_cases h : p
  · rwa [if_pos h, if_pos h]
  · rwa [if_neg h, if_neg h]

/-! ## What is computed from the operands -/

/-- R77 reads the last of the first L bytes, for the offset. -/
theorem truncOffset_congr (h : SameDigest s s') : truncOffset s.alg s.digest = truncOffset s'.alg s'.digest := by
  obtain ⟨ha, hb⟩ := h
  have hl : digestLen s.alg - 1 < digestLen s.alg := by cases s.alg <;> decide
  rw [truncOffset, truncOffset, hb _ hl, ha]

theorem extract31_congr {g g' : Vector Byte 64} {off : Nat} (h : ∀ k ≤ off + 3, byteAt g k = byteAt g' k) :
    extract31 g off = extract31 g' off := by
  rw [extract31, extract31, h off (by omega), h (off + 1) (by omega), h (off + 2) (by omega), h (off + 3) (by omega)]

/-- The truncation depends on ALG and the first L bytes of DIGEST (R39, R77): past the range check, it reads no other. -/
theorem dt_congr (h : SameDigest s s') : dt s = dt s' := by
  simp only [dt]
  rw [← truncOffset_congr h, ← h.1]
  split
  · rfl
  next hr => rw [extract31_congr fun k hk => h.2 k (by omega)]

/-- A comparison over DIGITS bytes reads no candidate byte past them (R38, R85). -/
theorem SameCand.ctEq_eq (h : SameCand s s') {c c' : Vector Byte 16}
    (hc : ∀ i < digitsNat s, byteAt c i = byteAt c' i) :
    ctEq s.cand c s.digits.toNat = ctEq s'.cand c' s'.digits.toNat := by
  obtain ⟨hd, -, hb⟩ := h
  rw [← hd, Bool.eq_iff_iff, ctEq_iff, ctEq_iff]
  exact forall₂_congr fun i hi => by rw [hb i hi, hc i hi]

theorem candLenOk_congr (h : SameCand s s') : candLenOk s = candLenOk s' := by
  rw [candLenOk, candLenOk, h.1, h.2.1]

/-- Recomputing a code (R82) fails alike, or writes the same values. -/
theorem recompute_congr (hg : SameDigest s s') (hd : s.digits = s'.digits) :
    (∃ e, recompute s = .error e ∧ recompute s' = .error e) ∨
    (∃ off v r c, recompute s = .ok ((s.withTrunc off v).withCode r s.digits c)
      ∧ recompute s' = .ok ((s'.withTrunc off v).withCode r s.digits c)) := by
  simp only [recompute, ← dt_congr hg, ← hd]
  cases dt s with
  | error e => exact .inl ⟨e, rfl, rfl⟩
  | ok p =>
    cases hf : fmt p.2 s.digits with
    | error e => exact .inl ⟨e, by simp [hf], by simp [hf]⟩
    | ok q => exact .inr ⟨p.1, p.2, q.1, q.2, by simp [hf], by simp [hf]⟩

theorem sameWrites_recomputed (s s' : State) (off : BitVec 4) (v : BitVec 31) (r : BitVec 30) (l : BitVec 4)
    (c : Vector Byte 16) :
    SameWrites s s' ((s.withTrunc off v).withCode r l c) ((s'.withTrunc off v).withCode r l c) :=
  (sameWrites_withTrunc ..).trans (sameWrites_withCode ..)

/-! ## Each command -/

theorem execTrunc_sameEnd (h : SameDigest s s') : SameEnd s s' (execTrunc s) (execTrunc s') := by
  unfold execTrunc
  rw [← dt_congr h]
  split
  · exact sameEnd_raise s s' _
  · exact (sameWrites_withTrunc ..).complete

theorem execModfmt_sameEnd (hd : s.digits = s'.digits) (hv : s.truncVal = s'.truncVal) :
    SameEnd s s' (execModfmt s) (execModfmt s') := by
  unfold execModfmt
  rw [← hd, ← hv]
  split
  · exact sameEnd_raise s s' _
  · exact (sameWrites_withCode ..).complete

theorem execGen_sameEnd (hg : SameDigest s s') (hd : s.digits = s'.digits) :
    SameEnd s s' (execGen s) (execGen s') := by
  unfold execGen
  refine rel_ite (SameEnd s s') (by rw [hd]) ?_ (sameEnd_raise s s' _)
  obtain ⟨e, h, h'⟩ | ⟨off, v, r, c, h, h'⟩ := recompute_congr hg hd <;> rw [h, h']
  · exact sameEnd_raise s s' e
  · exact (sameWrites_recomputed ..).complete

theorem execCmp_sameEnd (hc : SameCand s s') (hl : s.codeLen = s'.codeLen)
    (hb : ∀ k < digitsNat s, byteAt s.code k = byteAt s'.code k) : SameEnd s s' (execCmp s) (execCmp s') := by
  unfold execCmp
  refine rel_ite (SameEnd s s') (by rw [hc.1]) (sameEnd_raiseNoMatch s s' _) ?_
  refine rel_ite (SameEnd s s') (by rw [candLenOk_congr hc]) (sameEnd_raiseNoMatch s s' _) ?_
  refine rel_ite (SameEnd s s') (by rw [hl, hc.1]) (sameEnd_raiseNoMatch s s' _) ?_
  exact (sameWrites_withMatch s s' (hc.ctEq_eq hb)).complete

theorem execValidate_sameEnd (hg : SameDigest s s') (hc : SameCand s s') :
    SameEnd s s' (execValidate s) (execValidate s') := by
  unfold execValidate
  refine rel_ite (SameEnd s s') (by rw [hc.1]) (sameEnd_raiseNoMatch s s' _) ?_
  refine rel_ite (SameEnd s s') (by rw [candLenOk_congr hc]) (sameEnd_raiseNoMatch s s' _) ?_
  obtain ⟨e, h, h'⟩ | ⟨off, v, r, c, h, h'⟩ := recompute_congr hg hc.1 <;> rw [h, h']
  · exact sameEnd_raiseNoMatch s s' e
  · exact ((sameWrites_recomputed s s' off v r s.digits c).trans
      (sameWrites_withMatch _ _ (hc.ctEq_eq fun _ _ => rfl))).complete

/-- R94: the decision reads the candidate, the code and the scan. -/
theorem sameWrites_probeDecide (heq : ctEq s.cand s.code s.digits.toNat = ctEq s'.cand s'.code s'.digits.toNat)
    (hb : s.probeBase = s'.probeBase) (hi : s.pidx = s'.pidx) (hk : s.pskew = s'.pskew) :
    SameWrites s s' (probeDecide s) (probeDecide s') := by
  have hm (b : Bool) := sameWrites_withMatch s s' (rfl : b = b)
  unfold probeDecide
  rw [← hb, ← hi]
  refine rel_ite (SameWrites s s') (by rw [heq]) ((hm true).trans (sameWrites_withPState ..)) ?_
  refine rel_ite (SameWrites s s') (by rw [hk]) ((hm false).trans (sameWrites_withPState ..)) ?_
  exact ((hm false).trans (sameWrites_withPidx (s.withMatch false) (s'.withMatch false) hk _)).trans
    (sameWrites_withCounter ..)

theorem execProbeStep_sameEnd (hp : s.pstate = s'.pstate) (hb : s.probeBase = s'.probeBase) (hi : s.pidx = s'.pidx)
    (hk : s.pskew = s'.pskew) (hg : SameDigest s s') (hc : SameCand s s') :
    SameEnd s s' (execProbeStep s) (execProbeStep s') := by
  unfold execProbeStep
  refine rel_ite (SameEnd s s') (by rw [hp]) (sameEnd_raise s s' _) ?_
  refine rel_ite (SameEnd s s') (by rw [hc.1]) (sameEnd_raiseAbort s s' _) ?_
  refine rel_ite (SameEnd s s') (by rw [candLenOk_congr hc]) (sameEnd_raiseAbort s s' _) ?_
  obtain ⟨e, h, h'⟩ | ⟨off, v, r, c, h, h'⟩ := recompute_congr hg hc.1 <;> rw [h, h']
  · exact sameEnd_raiseAbort s s' e
  · exact ((sameWrites_recomputed s s' off v r s.digits c).trans
      (sameWrites_probeDecide (hc.ctEq_eq fun _ _ => rfl) hb hi hk)).complete

theorem exec_sameEnd {i : Instr} (h : AgreeOnReads i s s') : SameEnd s s' (exec i s) (exec i s') := by
  cases i with
  | trunc => exact execTrunc_sameEnd h
  | modfmt => exact execModfmt_sameEnd h.1 h.2
  | gen => exact execGen_sameEnd h.1 h.2
  | cmp => exact execCmp_sameEnd h.1 h.2.1 h.2.2
  | validate => exact execValidate_sameEnd h.1 h.2
  | tdiv =>
    obtain ⟨ht, hp⟩ := h
    rw [execTdiv_eq, execTdiv_eq, ← ht, ← hp]
    exact (sameWrites_withCounter ..).complete
  | probeStart =>
    obtain ⟨hc, hk⟩ := h
    rw [execProbeStart_eq, execProbeStart_eq, ← hc, ← hk]
    exact ((((sameWrites_withProbe ..).trans (sameWrites_withCounter ..)).trans (sameWrites_withPState ..)).trans
      (sameWrites_withMatch _ _ rfl)).complete
  | probeStep =>
    obtain ⟨hp, hb, hi, hk, hg, hc⟩ := h
    exact execProbeStep_sameEnd hp hb hi hk hg hc
  | probeClear => exact ((sameWrites_withProbe ..).trans (sameWrites_withPState ..)).complete
  | srst => exact (sameWrites_softReset s s').complete

/-- Settles O56: the two runs end alike, command by command, and completion itself writes no other register. -/
theorem commandsDependOnTheirOperandsOnly : Obligations.CommandsDependOnTheirOperandsOnly := by
  intro i s s' h
  obtain ⟨t, t', e, ht, ht', hw⟩ := exec_sameEnd h
  obtain ⟨hregs, hmatch, hpstate⟩ := hw.trans (sameWrites_completed t t' e)
  exact ⟨_, _, ht, ht', rfl, hregs, hmatch, hpstate⟩

/-! ## What is outside the block is no operand -/

@[simp] theorem readReg_withOutside (s : State) (l : List Event) (b : BusOut) (n : Nat) (x : Bool) (r : Reg) :
    readReg (s.withOutside l b n x) r = readReg s r := by cases r <;> rfl

theorem readReg_completed_status (s : State) (e : ErrCode) :
    readReg (s.completed e) .status = packStatus false s.matched e.bits s.pstate.bits := rfl

theorem readReg_completed_intStatus (s : State) (e : ErrCode) :
    readReg (s.completed e) .intStatus = 0#30 ++ bit s.ovr ++ bit true := rfl

theorem agreeOnReads_self (i : Instr) (s : State) : AgreeOnReads i s s := by
  cases i <;> simp [AgreeOnReads, SameDigest, SameCand]

/-- R50, R65: a command leaves the same registers whatever is outside the block. -/
theorem readReg_exec_withOutside {i : Instr} {s t u : State} {l : List Event} {b : BusOut} {n : Nat} {x : Bool}
    (ht : exec i s = .next t) (hu : exec i (s.withOutside l b n x) = .next u) (r : Reg) :
    readReg u r = readReg t r := by
  have hovr : u.ovr = t.ovr := (exec_frame hu).2.ovr.trans (exec_frame ht).2.ovr.symm
  have hag : AgreeOnReads i s (s.withOutside l b n x) := agreeOnReads_self i s
  obtain ⟨t', u', e, ht', hu', hregs, hmatch, hpstate⟩ := exec_sameEnd hag
  cases ht.symm.trans ht'
  cases hu.symm.trans hu'
  by_cases hs : r = .status
  · subst hs
    rw [readReg_completed_status, readReg_completed_status, hmatch.eq, hpstate.eq]
  by_cases hi : r = .intStatus
  · subst hi
    rw [State.completed_ovr, State.completed_ovr] at hovr
    rw [readReg_completed_intStatus, readReg_completed_intStatus, hovr]
  have hnew := hregs r hs hi
  rw [readReg_withOutside] at hnew
  rw [readReg_completed _ _ _ hs hi, readReg_completed _ _ _ hs hi, hnew.eq]

end Sys2Proof.Machine
end

section
/-! Host programs (R62 to R64): the loads of the pseudo-instructions, and RUN. -/

namespace Sys2Proof.Machine

/-! ## Stores, one after another -/

/-- The host writes of a list of registers and values. -/
def wrAll (l : List (Reg × Word)) : List Event := l.map fun p => wr (regOffset p.1) p.2

/-- The state after a list of stores. -/
def storeAll (s : State) (l : List (Reg × Word)) : State := l.foldl (fun s p => storeOperand s p.1 p.2) s

theorem storeOperand_withInbox (s : State) (r : Reg) (v : Word) (l : List Event) :
    storeOperand (s.withInbox l) r v = (storeOperand s r v).withInbox l := by cases r <;> rfl

theorem storeOperand_answer (s : State) (r : Reg) (v : Word) (b : BusOut) :
    storeOperand (s.answer b) r v = (storeOperand s r v).answer b := by cases r <;> rfl

/-- What is stored depends neither on the events to come nor on the last answer. -/
theorem storeAll_withInbox_answer (s : State) (l : List Event) (b : BusOut) (ps : List (Reg × Word)) :
    storeAll ((s.withInbox l).answer b) ps = ((storeAll s ps).withInbox l).answer b := by
  induction ps generalizing s with
  | nil => rfl
  | cons p ps ih =>
    simp only [storeAll, List.foldl_cons] at ih ⊢
    rw [storeOperand_answer, storeOperand_withInbox, ih]

/-- R68: on an idle block, each of a list of operand writes is stored. -/
theorem steps_wrAll {s : State} {ps : List (Reg × Word)} {rest : List Event} (hi : Idle s)
    (hr : ∀ p ∈ ps, isOperandReg p.1 = true) (h : s.inbox = wrAll ps ++ rest) :
    ∃ b, steps ps.length s = .next (((storeAll s ps).withInbox rest).answer b) := by
  induction ps generalizing s with
  | nil => exact ⟨s.busOut, by rw [show rest = s.inbox from h.symm]; rfl⟩
  | cons p ps ih =>
    obtain ⟨hp, hps⟩ := List.forall_mem_cons.mp hr
    have hstep := step_operandWrite (v := p.2) (rest := wrAll ps ++ rest) ⟨h, hi.2⟩ hp hi.1
    rw [storeOperand_withInbox] at hstep
    obtain ⟨b, hb⟩ := ih (s := ((storeOperand s p.1 p.2).withInbox _).answer .writeOkay)
      (by simpa [Idle] using hi) hps rfl
    rw [storeAll_withInbox_answer] at hb
    exact ⟨b, (steps_succ s _ _ hstep).trans hb⟩

/-! ## Byte strings loaded word by word -/

/-- The buffer after its first `m` words are loaded with a byte string (R63). -/
def loadWords {n : Nat} (g : Vector Byte n) (b : List Byte) (m : Nat) : Vector Byte n :=
  (List.range m).foldl (fun g k => setBufWord g k (packBytes b k)) g

theorem loadWords_succ {n : Nat} (g : Vector Byte n) (b : List Byte) (m : Nat) :
    loadWords g b (m + 1) = setBufWord (loadWords g b m) m (packBytes b m) := by
  simp [loadWords, List.range_succ]

/-- R46, R63: lane `j` of word `k` is byte `4k + j` of the string, 0x00 past its end. -/
theorem lane_packBytes (b : List Byte) (k j : Nat) (h : j < 4) :
    (packBytes b k).extractLsb' (8 * j) 8 = b.getD (4 * k + j) 0 :=
  lane_join (fun j => b.getD (4 * k + j) 0) j h

theorem byteAt_loadWords {n : Nat} (g : Vector Byte n) (b : List Byte) (m i : Nat) (hi : i < n) :
    byteAt (loadWords g b m) i = if i < 4 * m then b.getD i 0 else byteAt g i := by
  induction m with
  | zero => simp [loadWords]
  | succ m ih =>
    rw [loadWords_succ, byteAt_setBufWord _ _ _ _ hi, lane_packBytes _ _ _ (by omega), ih]
    by_cases hm : i / 4 = m
    · rw [if_pos hm, if_pos (by omega), show 4 * m + i % 4 = i by omega]
    · simp only [if_neg hm, show i < 4 * (m + 1) ↔ i < 4 * m by omega]

/-- The DIGEST writes of `LDDIG`, for `m` words. -/
def digestWrites (b : List Byte) (m : Nat) : List (Reg × Word) :=
  (List.range m).map fun k => (.digest (Fin.ofNat 16 k), packBytes b k)

theorem length_digestWrites (b : List Byte) (m : Nat) : (digestWrites b m).length = m := by simp [digestWrites]

theorem lddig_eq {b : List Byte} (h : b.length ≤ 64) : lddig b = wrAll (digestWrites b ((b.length + 3) / 4)) := by
  rw [lddig, wrAll, digestWrites, List.map_map]
  refine List.map_congr_left fun k hk => ?_
  have hk := List.mem_range.mp hk
  simp [regOffset, Nat.mod_eq_of_lt (show k < 16 by omega)]

theorem digest_storeAll (s : State) (b : List Byte) {m : Nat} (hm : m ≤ 16) :
    (storeAll s (digestWrites b m)).digest = loadWords s.digest b m := by
  induction m with
  | zero => rfl
  | succ m ih =>
    have hm' : m % 16 = m := Nat.mod_eq_of_lt hm
    rw [loadWords_succ, ← ih (by omega)]
    simp [storeAll, digestWrites, List.range_succ, storeOperand, hm']

/-! ## CTRL -/

/-- R63: the word of `CFG` has its arguments in the fields of R17. -/
theorem cfgWord_fields (a : BitVec 2) (d : BitVec 4) (k : BitVec 8) :
    let v : Word := (k.setWidth 32 <<< 8) ||| (d.setWidth 32 <<< 4) ||| a.setWidth 32
    v.extractLsb' 0 2 = a ∧ v.extractLsb' 4 4 = d ∧ v.extractLsb' 8 8 = k := by
  refine ⟨?_, ?_, ?_⟩ <;> ext i hi <;> simp [BitVec.getLsbD_setWidth] <;> grind

theorem algOfBits_bits (a : Alg) : Alg.ofBits a.bits = a := by cases a <;> rfl

/-- Settles O50: each pseudo-instruction is a list of operand writes, which an idle block stores one by one. -/
theorem pseudoInstructionsLoadTheirRegisters : Obligations.PseudoInstructionsLoadTheirRegisters := by
  intro s v text rest hi
  refine ⟨fun h => ?_, fun h => ?_, fun h => ?_, fun b hb h => ?_, fun a d k h => ?_⟩
  · obtain ⟨o, ho⟩ := steps_wrAll (ps := [(.counterLo, loHalf v), (.counterHi, hiHalf v)]) hi (by simp [isOperandReg]) h
    exact ⟨_, ho, by simp [storeAll, storeOperand, setHi], rfl⟩
  · obtain ⟨o, ho⟩ := steps_wrAll (ps := [(.timeLo, loHalf v), (.timeHi, hiHalf v)]) hi (by simp [isOperandReg]) h
    exact ⟨_, ho, by simp [storeAll, storeOperand, setHi], rfl⟩
  · obtain ⟨o, ho⟩ := steps_wrAll (ps := [(.cand 0, packBytes text 0), (.cand 1, packBytes text 1),
      (.cand 2, packBytes text 2), (.cand 3, packBytes text 3), (.candLen, BitVec.ofNat 32 text.length)]) hi
      (by simp [isOperandReg]) h
    refine ⟨_, ho, rfl, fun i hi => ?_, rfl⟩
    exact (byteAt_loadWords s.cand text 4 i hi).trans (if_pos hi)
  · have hm : (b.length + 3) / 4 ≤ 16 := by omega
    rw [lddig_eq hb] at h
    obtain ⟨o, ho⟩ := steps_wrAll hi (by simp [digestWrites, isOperandReg]) h
    rw [length_digestWrites] at ho
    refine ⟨_, ho, rfl, fun i hi => ?_⟩
    rw [State.answer_digest, State.withInbox_digest, digest_storeAll s b hm, byteAt_loadWords _ _ _ _ hi]
  · obtain ⟨o, ho⟩ := steps_wrAll (ps := [(.ctrl, _)]) hi (by simp [isOperandReg]) h
    obtain ⟨ha, hd, hk⟩ := cfgWord_fields a.bits d k
    exact ⟨_, ho, rfl, (congrArg Alg.ofBits ha).trans (algOfBits_bits a), hd, hk⟩

/-! ## RUN -/

/-- R71: a STATUS read while BUSY answers, and may use up a free value; it touches nothing in the block. -/
theorem step_busyStatusRead {s : State} {rest : List Event} (h : ReadNext s 0x008 rest) (hb : s.busy = true) :
    ∃ b d, step s = .next (s.withOutside rest b d s.rst) := by
  rw [step_readNext (r := .status) h, busRead, if_pos (show (s.withInbox rest).busy = true from hb),
    if_pos rfl]
  exact ⟨_, _, rfl⟩

/-- R62: so does a `POLL` of any number of such reads. -/
theorem steps_busyPoll {s : State} {n : Nat} {rest : List Event} (h : s.inbox = poll n ++ rest) (hb : s.busy = true)
    (hr : s.rst = false) : ∃ b d, steps n s = .next (s.withOutside rest b d s.rst) := by
  induction n generalizing s with
  | zero => exact ⟨s.busOut, s.draws, by rw [show rest = s.inbox from h.symm]; rfl⟩
  | succ n ih =>
    obtain ⟨b, d, hstep⟩ := step_busyStatusRead (rest := poll n ++ rest) ⟨h, hr⟩ hb
    obtain ⟨b', d', hsteps⟩ := ih (s := s.withOutside (poll n ++ rest) b d s.rst) rfl hb hr
    exact ⟨b', d', (steps_succ s _ n hstep).trans hsteps⟩

theorem runPending_encode {s : State} {i : Instr} (h : s.pendOp = encode i) : runPending s = exec i s := by
  rw [runPending, h, decode_encode]

/-- Settles O51: acceptance, the reads that find the block BUSY, the completion, and the read that finds it idle. -/
theorem runAppliesTheCommandOnce : Obligations.RunAppliesTheCommandOnce := by
  intro s i n rest hi h
  have hrun : s.inbox = wr 0x00C (encode i) :: (poll n ++ .completion :: (poll 1 ++ rest)) := by
    simp [h, run, runWord, cmdWord]
  have haccept := step_cmdWrite ⟨hrun, hi.2⟩ hi.1
  obtain ⟨b, d, hpoll⟩ := steps_busyPoll (n := n) (rest := .completion :: (poll 1 ++ rest))
    (s := ((s.withInbox _).accept (encode i)).answer .writeOkay) rfl rfl hi.2
  obtain ⟨t, ht⟩ := exec_answers i (s.accept (encode i))
  obtain ⟨u, hu⟩ := exec_answers i ((s.accept (encode i)).withOutside (poll 1 ++ rest) b d s.rst)
  obtain ⟨⟨e, hend⟩, hkeeps⟩ := exec_frame hu
  have hregs := readReg_exec_withOutside ht hu
  have hnext : CompletionNext ((s.accept (encode i)).withOutside (.completion :: (poll 1 ++ rest)) b d s.rst)
      (poll 1 ++ rest) := ⟨rfl, hi.2, .inl rfl⟩
  have hcomplete := (step_completion _ _ hnext).trans ((runPending_encode (i := i) rfl).trans hu)
  have hread := step_readNext (r := .status) (rest := rest) ⟨hkeeps.inbox, hkeeps.rst.trans hi.2⟩
  rw [busRead_exact (s := u.withInbox rest) (.inl hend.busy), readReg_withInbox] at hread
  refine ⟨t, (u.withInbox rest).answer (.readOkay (readReg u .status)), ht, ?_, fun r => ?_, hend.busy, ?_, rfl⟩
  · calc steps (n + 3) s
        = steps (n + 2) _ := steps_succ s _ (n + 2) haccept
      _ = steps 2 _ := steps_add n 2 _ _ hpoll
      _ = steps 1 _ := steps_succ _ _ 1 hcomplete
      _ = steps 0 _ := steps_succ _ _ 0 hread
  · rw [readReg_answer, readReg_withInbox, hregs r]
  · rw [← hregs]
    rfl

end Sys2Proof.Machine
end

section
/-! The command cycle: acceptance, writes and reads while BUSY, and the completion step (R66 to R71). -/

namespace Sys2Proof.Machine

/-! ## The completion step -/

theorem runPending_legal {s : State} {i : Instr} (h : decode s.pendOp = .ok i) : runPending s = exec i s := by
  rw [runPending, h]

/-- Settles O4: the completion step runs the pending word, which is a command's. -/
theorem stepRunsTheDecodedCommand : Obligations.StepRunsTheDecodedCommand :=
  fun s rest _ hc hd => (step_completion s rest hc).trans (runPending_legal hd)

/-- A 32-bit word is its own opcode-table word. -/
theorem tableWord_toNat (w : Word) : tableWord 32 w.toNat = w := by
  rw [tableWord, Nat.mod_eq_of_lt w.isLt, BitVec.ofNat_toNat, BitVec.setWidth_eq]

/-- Settles O5: the placed word is the pending one, and its completion is the first event. -/
theorem fetchWordRunsNext : Obligations.FetchWordRunsNext := by
  intro s i
  rw [State.withFetchWord, tableWord_toNat]
  exact (step_completion _ s.inbox ⟨rfl, rfl, .inl rfl⟩).trans (runPending_encode rfl)

/-! ## Acceptance, and writes that are dropped -/

/-- Settles O6: acceptance sets BUSY, which STATUS shows, and the latched word, which no register shows. -/
theorem acceptanceLatchesTheWord : Obligations.AcceptanceLatchesTheWord := by
  intro s w rest h hb
  refine ⟨_, step_cmdWrite h hb, rfl, rfl, ⟨rfl, rfl⟩, rfl, fun r hr => ?_, h.2, rfl, rfl⟩
  rw [readReg_answer, readReg_accept _ _ _ hr, readReg_withInbox]

/-- R67, R68: while BUSY, a write of CMD or of an operand register sets OVR and is dropped. -/
theorem step_droppedWrite {s : State} {r : Reg} {v : Word} {rest : List Event} (h : WriteNext s (regOffset r) v rest)
    (hr : r = .cmd ∨ isOperandReg r = true) (hb : s.busy = true) :
    step s = .next ((s.withInbox rest).withOvr.answer .writeOkay) := by
  have hb' : (s.withInbox rest).busy = true := hb
  rw [step_writeNext h]
  obtain rfl | hr := hr
  · rw [busWrite, if_pos hb']
  · rw [busWrite_operand _ _ _ hr, if_pos hb']

/-- OVR is shown by INT_STATUS alone (R24). -/
theorem sameRegsBut_droppedWrite (s : State) (rest : List Event) (b : BusOut) :
    SameRegsBut (· = .intStatus) s ((s.withInbox rest).withOvr.answer b) := by
  intro r hr
  rw [readReg_answer, readReg_withOvr _ _ hr, readReg_withInbox]

/-- Settles O7: the write is dropped, and OVR is all it sets. -/
theorem busyCommandWriteIsDropped : Obligations.BusyCommandWriteIsDropped := by
  intro s w rest h hb
  exact ⟨_, step_droppedWrite (r := .cmd) h (.inl rfl) hb, rfl, hb, rfl, rfl, sameRegsBut_droppedWrite s rest _, h.2,
    rfl, rfl⟩

/-- Settles O8: as for CMD, for each operand register. -/
theorem busyOperandWriteIsDropped : Obligations.BusyOperandWriteIsDropped := by
  intro s r v rest hr h hb
  exact ⟨_, step_droppedWrite h (.inr hr.isOperandReg) hb, rfl, rfl, rfl, sameRegsBut_droppedWrite s rest _, h.2, rfl,
    rfl⟩

/-! ## Writes that BUSY does not change -/

/-- A write to a read-only register is ignored, BUSY or not (R15). -/
theorem busWrite_readOnly {r : Reg} (s : State) (v : Word) (h : ReadOnlyRegister r) : busWrite s r v = s := by
  obtain rfl | rfl | rfl | rfl | rfl | rfl | rfl | rfl | rfl | rfl | rfl | ⟨k, rfl⟩ := h <;> rfl

/-- Settles O9: none of these writes asks whether the block is BUSY. -/
theorem busyWritesThatAreNotDropped : Obligations.BusyWritesThatAreNotDropped := by
  refine fun s v rest => ⟨fun h => ?_, fun h => ?_, fun r hr h => ?_, fun off ho h => ?_⟩
  · refine ⟨_, step_writeNext (r := .intStatus) h, rfl, rfl, fun r hr => ?_, fun _ => rfl⟩
    rw [readReg_answer, busWrite, clearIntStatus, readReg_withIntStatus _ _ _ _ hr, readReg_withInbox]
  · refine ⟨_, step_writeNext (r := .intEnable) h, rfl, rfl, fun r hr => ?_, fun _ => rfl⟩
    rw [readReg_answer, busWrite, storeIntEnable, readReg_withIntEnable _ _ _ _ hr, readReg_withInbox]
  · refine ⟨_, step_writeNext h, ?_⟩
    rw [busWrite_readOnly _ v hr]
    exact sameBlock_withInbox_answer s rest _
  · refine ⟨_, step_write s off _ v rest h.1 h.2 ho.lt, ?_⟩
    rw [writeWindow_reserved _ v ho]
    exact sameBlock_withInbox_answer s rest _

/-! ## Reads while BUSY -/

/-- R71's table, as the statements write it out, is the one the machine uses. -/
theorem writeSet_eq (op : Option Instr) (r : Reg) : writeSet op r = writesReg op r := by
  cases op with
  | none => rfl
  | some i =>
    cases i with
    | srst => simp [writeSet, writesReg, bne]
    | _ => cases r <;> rfl

theorem matchInWriteSet_eq (op : Option Instr) : matchInWriteSet op = writesMatch op := by
  cases op with
  | none => rfl
  | some i => cases i <;> rfl

theorem pstateInWriteSet_eq (op : Option Instr) : pstateInWriteSet op = writesPState op := by
  cases op with
  | none => rfl
  | some i => cases i <;> rfl

/-- A busy read of STATUS uses one free value (R71; log 4). -/
theorem busRead_status_busy {s : State} (hb : s.busy = true) : busRead s .status =
    (s.answer (.readOkay (busyStatusWord s (commandOf s.pendOp) (Config.draw s.draws)))).drew := by
  rw [busRead, if_pos hb, if_pos rfl]

/-- A busy read of a register the pending command writes is one free value (R71; log 12). -/
theorem busRead_drawn {s : State} {r : Reg} (hb : s.busy = true) (hr : r ≠ .status)
    (hw : writesReg (commandOf s.pendOp) r = true) :
    busRead s r = (s.answer (.readOkay (Config.draw s.draws))).drew := by
  rw [busRead, if_pos hb, if_neg hr, if_pos hw]

/-- STATUS while BUSY, field by field (R71): a field is exact or a bit string of the free value `w`. -/
theorem busyStatusWord_fields (s : State) (op : Option Instr) (w : Word) :
    (busyStatusWord s op w).getLsbD 0 = true ∧ busyStatusWord s op w &&& 0xFFFFF80C#32 = 0
      ∧ (busyStatusWord s op w).extractLsb' 4 4 = w.extractLsb' 4 4
      ∧ (busyStatusWord s op w).getLsbD 1 = (if writesMatch op then w.getLsbD 1 else s.matched)
      ∧ (busyStatusWord s op w).extractLsb' 8 3 = if writesPState op then w.extractLsb' 8 3 else s.pstate.bits :=
  packStatus_fields ..

/-- Settles O11: STATUS is packed from exact and drawn fields, and any other register is exact or drawn. -/
theorem busyReadsAreExactOutsideTheWriteSet : Obligations.BusyReadsAreExactOutsideTheWriteSet := by
  intro s r rest h hb
  have hb' : (s.withInbox rest).busy = true := hb
  obtain ⟨hsame, hinbox⟩ := busRead_same (s.withInbox rest) r
  have hsame := (sameBlock_withInbox s rest).trans hsame
  rw [writeSet_eq, matchInWriteSet_eq, pstateInWriteSet_eq]
  by_cases hr : r = .status
  · subst hr
    have hread := busRead_status_busy hb'
    obtain ⟨hbusy, hreserved, herr, hmatch, hpstate⟩ :=
      busyStatusWord_fields (s.withInbox rest) (commandOf s.pendOp) (Config.draw s.draws)
    refine ⟨_, _, step_readNext h, hsame, hinbox, by rw [hread]; rfl, fun hn => absurd rfl hn,
      fun hn => absurd rfl hn, fun _ => ⟨by rw [hread]; rfl, hbusy, hreserved, herr, ?_⟩⟩
    refine ⟨fun hw => ?_, fun hw => ?_, fun hw => ?_, fun hw => ?_⟩
    · exact hmatch.trans (if_neg (by simp [hw]))
    · exact hmatch.trans (if_pos hw)
    · exact hpstate.trans (if_neg (by simp [hw]))
    · exact hpstate.trans (if_pos hw)
  cases hw : writesReg (commandOf s.pendOp) r with
  | false =>
    have hread : busRead (s.withInbox rest) r = (s.withInbox rest).answer (.readOkay (readReg s r)) := by
      rw [busRead_exact (s := s.withInbox rest) (.inr ⟨hr, hw⟩), readReg_withInbox]
    exact ⟨_, readReg s r, step_readNext h, hsame, hinbox, by rw [hread]; rfl, fun _ _ => ⟨rfl, by rw [hread]; rfl⟩,
      nofun, fun he => absurd he hr⟩
  | true =>
    have hread := busRead_drawn hb' hr hw
    exact ⟨_, Config.draw s.draws, step_readNext h, hsame, hinbox, by rw [hread]; rfl, nofun,
      fun _ _ => ⟨rfl, by rw [hread]; rfl⟩, fun he => absurd he hr⟩

end Sys2Proof.Machine
end

section
/-! What a completion writes (R70 to R72, R76). -/

namespace Sys2Proof.Machine

/-! ## Errors and successes -/

/-- What a command that ends in an error writes before it completes (R72, R87, R88, R94). -/
def errorWrites (i : Instr) (s : State) (e : ErrCode) : State :=
  if e = .probeState then s else
    match i with
    | .cmp | .validate => s.withMatch false
    | .probeStep => (s.withMatch false).withPState .aborted
    | _ => s

/-- The latched word is left (log 5), and so are MATCH and PSTATE where the command's write set does not hold them (R71). -/
structure KeepsFields (i : Instr) (s t : State) : Prop where
  pendOp : t.pendOp = s.pendOp
  matched : t.matched = s.matched ∨ writesMatch (some i) = true
  pstate : t.pstate = s.pstate ∨ writesPState (some i) = true

theorem Recomputed.pendOp {s t : State} (h : Recomputed s t) : t.pendOp = s.pendOp := by
  obtain ⟨off, v, r, rfl, -⟩ := h
  rfl

theorem probeDecide_pendOp (s : State) : (probeDecide s).pendOp = s.pendOp := by
  obtain ⟨-, h⟩ | ⟨-, -, h⟩ | ⟨-, -, h⟩ := probeDecide_cases s <;> rw [h] <;> rfl

theorem Recomputed.keepsFields {i : Instr} {s t : State} (h : Recomputed s t) : KeepsFields i s t := by
  obtain ⟨hm, hp, -⟩ := h.fields
  exact ⟨h.pendOp, .inl hm, .inl hp⟩

/-- Everything a command can end in: success, or an error that writes what R72 names. -/
theorem exec_ends {i : Instr} {s t : State} (h : exec i s = .next t) :
    (∃ u, t = u.completed .none ∧ KeepsFields i s u) ∨
    (∃ e, e ≠ .none ∧ t = (errorWrites i s e).completed e) := by
  cases i with
  | trunc =>
    obtain ⟨-, hx⟩ | ⟨-, off, v, hx, -⟩ := execTrunc_cases s <;> cases hx.symm.trans h
    · exact .inr ⟨.truncRange, nofun, rfl⟩
    · exact .inl ⟨_, rfl, rfl, .inl rfl, .inl rfl⟩
  | modfmt =>
    obtain ⟨-, hx⟩ | ⟨-, r, hx, -⟩ := execModfmt_cases s <;> cases hx.symm.trans h
    · exact .inr ⟨.invalidDigits, nofun, rfl⟩
    · exact .inl ⟨_, rfl, rfl, .inl rfl, .inl rfl⟩
  | gen =>
    obtain ⟨-, hx⟩ | ⟨-, -, hx⟩ | ⟨-, -, u, hu, hx⟩ := execGen_cases s <;> cases hx.symm.trans h
    · exact .inr ⟨.invalidDigits, nofun, rfl⟩
    · exact .inr ⟨.truncRange, nofun, rfl⟩
    · exact .inl ⟨u, rfl, hu.keepsFields⟩
  | cmp =>
    obtain ⟨-, hx⟩ | ⟨-, -, hx⟩ | ⟨-, -, -, hx⟩ | ⟨-, -, -, hx⟩ := execCmp_cases s <;> cases hx.symm.trans h
    · exact .inr ⟨.invalidDigits, nofun, rfl⟩
    · exact .inr ⟨.invalidInputLength, nofun, rfl⟩
    · exact .inr ⟨.codeStale, nofun, rfl⟩
    · exact .inl ⟨_, rfl, rfl, .inr rfl, .inl rfl⟩
  | validate =>
    obtain ⟨-, hx⟩ | ⟨-, -, hx⟩ | ⟨-, -, -, hx⟩ | ⟨-, -, -, u, hu, hx⟩ := execValidate_cases s <;>
      cases hx.symm.trans h
    · exact .inr ⟨.invalidDigits, nofun, rfl⟩
    · exact .inr ⟨.invalidInputLength, nofun, rfl⟩
    · exact .inr ⟨.truncRange, nofun, rfl⟩
    · obtain ⟨-, hp, -⟩ := hu.fields
      exact .inl ⟨_, rfl, hu.pendOp, .inr rfl, .inl hp⟩
  | tdiv =>
    cases (execTdiv_eq s).symm.trans h
    exact .inl ⟨_, rfl, rfl, .inl rfl, .inl rfl⟩
  | probeStart =>
    cases (execProbeStart_eq s).symm.trans h
    exact .inl ⟨_, rfl, rfl, .inr rfl, .inr rfl⟩
  | probeStep =>
    obtain ⟨-, hx⟩ | ⟨-, -, hx⟩ | ⟨-, -, -, hx⟩ | ⟨-, -, -, -, hx⟩ | ⟨-, -, -, -, u, hu, hx⟩ :=
      execProbeStep_cases s <;> cases hx.symm.trans h
    · exact .inr ⟨.probeState, nofun, rfl⟩
    · exact .inr ⟨.invalidDigits, nofun, rfl⟩
    · exact .inr ⟨.invalidInputLength, nofun, rfl⟩
    · exact .inr ⟨.truncRange, nofun, rfl⟩
    · exact .inl ⟨_, rfl, (probeDecide_pendOp u).trans hu.pendOp, .inr rfl, .inr rfl⟩
  | probeClear =>
    cases (execProbeClear_eq s).symm.trans h
    exact .inl ⟨_, rfl, rfl, .inl rfl, .inr rfl⟩
  | srst =>
    cases (execSrst_eq s).symm.trans h
    exact .inl ⟨_, rfl, rfl, .inr rfl, .inr rfl⟩

theorem errorWrites_matched (i : Instr) (s : State) (e : ErrCode) : (errorWrites i s e).matched =
    if (i = .cmp ∨ i = .validate ∨ i = .probeStep) ∧ e ≠ .probeState then false else s.matched := by
  by_cases he : e = .probeState
  · simp [errorWrites, he]
  · cases i <;> simp [errorWrites, he]

theorem errorWrites_pstate (i : Instr) (s : State) (e : ErrCode) : (errorWrites i s e).pstate =
    if i = .probeStep ∧ e ≠ .probeState then .aborted else s.pstate := by
  by_cases he : e = .probeState
  · simp [errorWrites, he]
  · cases i <;> simp [errorWrites, he]

theorem keeps_errorWrites (i : Instr) (s : State) (e : ErrCode) : Keeps (fun _ => false) s (errorWrites i s e) := by
  unfold errorWrites
  split
  · exact .refl s
  · split
    · exact keeps_withMatch s _
    · exact keeps_withMatch s _
    · exact (keeps_withMatch s _).trans (keeps_withPState _ _)
    · exact .refl s

theorem keepsFields_errorWrites (i : Instr) (s : State) (e : ErrCode) : KeepsFields i s (errorWrites i s e) := by
  unfold errorWrites
  split
  · exact ⟨rfl, .inl rfl, .inl rfl⟩
  · cases i with
    | cmp => exact ⟨rfl, .inr rfl, .inl rfl⟩
    | validate => exact ⟨rfl, .inr rfl, .inl rfl⟩
    | probeStep => exact ⟨rfl, .inr rfl, .inr rfl⟩
    | _ => exact ⟨rfl, .inl rfl, .inl rfl⟩

/-- Settles O12: an error writes `errorWrites` and completes, and a success has no error. -/
theorem errorsWriteNoDataRegister : Obligations.ErrorsWriteNoDataRegister := by
  intro i s t h herr
  obtain ⟨u, rfl, -⟩ | ⟨e, -, rfl⟩ := exec_ends h
  · exact absurd rfl herr
  · exact ⟨(keeps_errorWrites i s e).completed e, errorWrites_matched i s e, errorWrites_pstate i s e⟩

/-- Success or error, a command leaves the latched word, and MATCH and PSTATE outside its write set. -/
theorem exec_keepsFields {i : Instr} {s t : State} (h : exec i s = .next t) : KeepsFields i s t := by
  obtain ⟨u, rfl, hu⟩ | ⟨e, -, rfl⟩ := exec_ends h
  · exact ⟨hu.pendOp, hu.matched, hu.pstate⟩
  · obtain ⟨hop, hm, hp⟩ := keepsFields_errorWrites i s e
    exact ⟨hop, hm, hp⟩

/-- Settles O10: R71's table is the machine's, and the frame of each command lies inside its row. -/
theorem commandsWriteOnlyTheirWriteSet : Obligations.CommandsWriteOnlyTheirWriteSet := by
  intro i s
  obtain ⟨t, h⟩ := exec_answers i s
  obtain ⟨-, hk⟩ := exec_frame h
  obtain ⟨-, hm, hp⟩ := exec_keepsFields h
  rw [← matchInWriteSet_eq] at hm
  rw [← pstateInWriteSet_eq] at hp
  exact ⟨t, h, hk.mono fun r hr => by rw [← writeSet_eq, hr], hm, hp⟩

/-- Settles O58: no command writes the latched word, and an illegal word's completion writes ERR, BUSY and DONE alone. -/
theorem latchedWordStaysAfterCompletion : Obligations.LatchedWordStaysAfterCompletion := by
  refine ⟨fun i s t h => (exec_keepsFields h).pendOp, fun s rest hc => ?_⟩
  obtain ⟨t, ht, -⟩ := runPending_answers (s.withInbox rest)
  refine ⟨t, (step_completion s rest hc).trans ht, ?_, (runPending_interrupts ht).1⟩
  obtain ⟨i, hi⟩ | rfl := runPending_cases ht
  · exact (exec_keepsFields hi).pendOp
  · rfl

/-- Settles O39: the reset values stand in every register but two, and completion writes what they have in STATUS. -/
theorem softResetKeepsInterruptRegisters : Obligations.SoftResetKeepsInterruptRegisters := by
  refine ⟨rfl, fun s => ⟨_, execSrst_eq s, ends_completed _ _, fun r hi he => ?_, rfl, rfl, rfl, rfl, rfl, rfl⟩⟩
  by_cases hs : r = .status
  · subst hs
    rfl
  · rw [readReg_completed _ _ _ hs hi, readReg_softReset _ _ hs hi he]

end Sys2Proof.Machine
end

section
/-! From acceptance to completion: host accesses while BUSY leave the pending command and its operands alone (R73), and
the completion comes (R74). -/

namespace Sys2Proof.Machine

/-! ## Accesses while BUSY -/

/-- From `s` to `t` the oldest events have been taken off the inbox, which leaves `rest`, and besides the answer and the
count of free values only INT_STATUS and INT_ENABLE may differ. -/
def BusyAccesses (s : State) (rest : List Event) (t : State) : Prop :=
  ∃ d o de oe b n, t = ((s.withIntStatus d o).withIntEnable de oe).withOutside rest b n s.rst

section
variable {s t u : State} {l rest : List Event}

theorem BusyAccesses.trans (h : BusyAccesses s l t) (h' : BusyAccesses t rest u) : BusyAccesses s rest u := by
  obtain ⟨_, _, _, _, _, _, rfl⟩ := h
  obtain ⟨d, o, de, oe, b, n, rfl⟩ := h'
  exact ⟨d, o, de, oe, b, n, rfl⟩

theorem busyAccesses_withInbox (s : State) (rest : List Event) : BusyAccesses s rest (s.withInbox rest) :=
  ⟨_, _, _, _, _, _, rfl⟩

theorem BusyAccesses.after_answer (h : BusyAccesses s rest t) (b : BusOut) : BusyAccesses s rest (t.answer b) := by
  obtain ⟨d, o, de, oe, _, n, rfl⟩ := h
  exact ⟨d, o, de, oe, b, n, rfl⟩

theorem BusyAccesses.after_drew (h : BusyAccesses s rest t) : BusyAccesses s rest t.drew := by
  obtain ⟨d, o, de, oe, b, n, rfl⟩ := h
  exact ⟨d, o, de, oe, b, n + 1, rfl⟩

/-- A read answers, and may use up a free value (R50, R71). -/
theorem BusyAccesses.after_busRead (h : BusyAccesses s rest t) (r : Reg) : BusyAccesses s rest (busRead t r) := by
  unfold busRead
  split_ifs
  · exact (h.after_answer _).after_drew
  · exact (h.after_answer _).after_drew
  · exact h.after_answer _
  · exact h.after_answer _

theorem BusyAccesses.after_readWindow (h : BusyAccesses s rest t) (off : Nat) (lanes : BitVec 4) :
    BusyAccesses s rest (readWindow t off lanes) := by
  unfold readWindow
  split
  · split
    · exact h.after_answer _
    · exact h.after_busRead _
  · exact (h.after_answer _).after_drew

/-- A register write while BUSY writes the interrupt registers or nothing (R67 to R69). -/
theorem BusyAccesses.after_busWrite (h : BusyAccesses s rest t) (hb : t.busy = true) (r : Reg) (v : Word) :
    BusyAccesses s rest (busWrite t r v) := by
  obtain ⟨d, o, de, oe, b, n, rfl⟩ := h
  obtain hw | hw | hw | hw := busWrite_busy _ r v hb <;> rw [hw] <;> exact ⟨_, _, _, _, b, n, rfl⟩

theorem BusyAccesses.after_writeWindow (h : BusyAccesses s rest t) (hb : t.busy = true) (off : Nat) (lanes : BitVec 4)
    (v : Word) : BusyAccesses s rest (writeWindow t off lanes v) := by
  unfold writeWindow
  split
  · split
    · exact h.after_answer _
    · exact (h.after_busWrite hb _ v).after_answer _
  · exact h.after_answer _

/-- R67 to R69: a pending command stays the pending one. -/
theorem BusyAccesses.pending (h : BusyAccesses s rest t) :
    t.busy = s.busy ∧ t.rst = s.rst ∧ t.pendOp = s.pendOp ∧ t.inbox = rest := by
  obtain ⟨_, _, _, _, _, _, rfl⟩ := h
  exact ⟨rfl, rfl, rfl, rfl⟩

theorem BusyAccesses.sameRegs (h : BusyAccesses s rest t) :
    SameRegsBut (fun r => r = .intStatus ∨ r = .intEnable) s t := by
  obtain ⟨_, _, _, _, _, _, rfl⟩ := h
  intro r hr
  obtain ⟨hi, he⟩ := not_or.mp hr
  rw [readReg_withOutside, readReg_withIntEnable _ _ _ _ he, readReg_withIntStatus _ _ _ _ hi]

/-- R61: no command reads INT_STATUS or INT_ENABLE. -/
theorem BusyAccesses.agreeOnReads (h : BusyAccesses s rest t) (i : Instr) : AgreeOnReads i s t := by
  obtain ⟨_, _, _, _, _, _, rfl⟩ := h
  exact agreeOnReads_self i s

/-- A host access while BUSY is taken off the inbox, and writes no more than the interrupt registers (R67 to R69). -/
theorem step_busyAccess {e : Event} (ha : e.isAccess) (hw : e.inWindow) (hb : s.busy = true) (hr : s.rst = false)
    (hi : s.inbox = e :: rest) : ∃ t, step s = .next t ∧ BusyAccesses s rest t := by
  cases e with
  | read off lanes =>
    exact ⟨_, step_read s off lanes rest hi hr hw, (busyAccesses_withInbox s rest).after_readWindow off lanes⟩
  | write off lanes v =>
    exact ⟨_, step_write s off lanes v rest hi hr hw, (busyAccesses_withInbox s rest).after_writeWindow hb off lanes v⟩
  | completion => exact ha.elim
  | resetPin level => exact ha.elim

/-- So do any number of accesses, by induction on their list. -/
theorem steps_busyAccesses {es : List Event} (ha : ∀ e ∈ es, e.isAccess ∧ e.inWindow) (hb : s.busy = true)
    (hr : s.rst = false) (hi : s.inbox = es ++ rest) :
    ∃ t, steps es.length s = .next t ∧ BusyAccesses s rest t := by
  induction es generalizing s with
  | nil =>
    obtain rfl : s.inbox = rest := hi
    exact ⟨s, rfl, busyAccesses_withInbox s _⟩
  | cons e es ih =>
    obtain ⟨⟨hacc, hwin⟩, hes⟩ := List.forall_mem_cons.mp ha
    obtain ⟨t, hstep, ht⟩ := step_busyAccess hacc hwin hb hr hi
    obtain ⟨hbusy, hrst, -, hinbox⟩ := ht.pending
    obtain ⟨u, hsteps, hu⟩ := ih hes (hbusy.trans hb) (hrst.trans hr) hinbox
    exact ⟨u, (steps_succ s t _ hstep).trans hsteps, ht.trans hu⟩

end

/-! ## The completion after them -/

/-- What a command leaves in a register that read the same before is the same, in two states that agree on its operands,
MATCH and PSTATE (R61). -/
theorem readReg_exec_congr {i : Instr} {s s' t t' : State} (h : AgreeOnReads i s s') (hm : s.matched = s'.matched)
    (hp : s.pstate = s'.pstate) (ht : exec i s = .next t) (ht' : exec i s' = .next t') {r : Reg}
    (hi : r ≠ .intStatus) (hr : readReg s' r = readReg s r) : readReg t' r = readReg t r := by
  obtain ⟨u, u', e, hu, hu', hregs, hmatch, hpstate⟩ := exec_sameEnd h
  cases ht.symm.trans hu
  cases ht'.symm.trans hu'
  rw [← hm] at hmatch
  rw [← hp] at hpstate
  by_cases hs : r = .status
  · subst hs
    rw [readReg_completed_status, readReg_completed_status, hmatch.eq, hpstate.eq]
  · have hnew := hregs r hs hi
    rw [hr] at hnew
    rw [readReg_completed _ _ _ hs hi, readReg_completed _ _ _ hs hi, hnew.eq]

/-- R73: after the accesses, the pending word's completion leaves what it would have left before them. -/
theorem BusyAccesses.sameCompletion {s t u v : State} {rest : List Event} (h : BusyAccesses s rest t)
    (hv : runPending s = .next v) (hu : runPending t = .next u) :
    SameRegsBut (fun r => r = .intStatus ∨ r = .intEnable) v u := by
  intro r hr
  have hregs := h.sameRegs r hr
  obtain ⟨-, -, hop, -⟩ := h.pending
  obtain ⟨hi, -⟩ := not_or.mp hr
  by_cases hd : ∃ i, decode s.pendOp = .ok i
  · obtain ⟨i, hd⟩ := hd
    rw [runPending_legal hd] at hv
    rw [runPending_legal (hop ▸ hd)] at hu
    have hag := h.agreeOnReads i
    obtain ⟨_, _, _, _, _, _, rfl⟩ := h
    exact readReg_exec_congr hag rfl rfl hv hu hi hregs
  · rw [runPending_illegal hd] at hv
    rw [runPending_illegal (hop ▸ hd)] at hu
    cases hv
    cases hu
    by_cases hs : r = .status
    · subst hs
      obtain ⟨_, _, _, _, _, _, rfl⟩ := h
      rfl
    · rw [readReg_completed _ _ _ hs hi, readReg_completed _ _ _ hs hi, hregs]

/-- Settles O14: the accesses write the interrupt registers at most, and no command reads those. -/
theorem operandsAreStableWhileBusy : Obligations.OperandsAreStableWhileBusy := by
  intro s es rest hb hr hi ha
  obtain ⟨t, hsteps, ht⟩ := steps_busyAccesses ha hb hr hi
  obtain ⟨hbusy, hrst, hop, hinbox⟩ := ht.pending
  obtain ⟨u, hu, -⟩ := runPending_answers (t.withInbox rest)
  obtain ⟨v, hv, -⟩ := runPending_answers s
  have hstep := step_completion t rest ⟨hbusy.trans hb, hrst.trans hr, .inl hinbox⟩
  exact ⟨t, u, v, hsteps, hbusy.trans hb, hop, hinbox, ht.sameRegs, hstep.trans hu, hv,
    (ht.trans (busyAccesses_withInbox t rest)).sameCompletion hv hu⟩

/-- A pending command whose completion comes next completes (R70). -/
theorem CompletionNext.completes {s : State} {rest : List Event} (h : CompletionNext s rest) :
    ∃ u, step s = .next u ∧ u.busy = false ∧ u.done = true := by
  obtain ⟨u, hu, -⟩ := runPending_answers (s.withInbox rest)
  obtain ⟨hbusy, hdone, -⟩ := runPending_interrupts hu
  exact ⟨u, (step_completion s rest h).trans hu, hbusy, hdone⟩

/-- R74: the accesses before the first completion are handled one by one, and leave the command pending. -/
theorem reaches_completionNext {s : State} (l : List Event) (hi : s.inbox = l) (hb : s.busy = true)
    (hr : s.rst = false) (hs : ∀ e ∈ l, e.inWindow ∧ e.isNoReset) :
    ∃ k t rest, k ≤ l.length ∧ steps k s = .next t ∧ CompletionNext t rest ∧ t.pendOp = s.pendOp := by
  induction l generalizing s with
  | nil => exact ⟨0, s, [], le_rfl, rfl, ⟨hb, hr, .inr ⟨hi, rfl⟩⟩, rfl⟩
  | cons e rest ih =>
    obtain ⟨⟨hwin, hnr⟩, hrest⟩ := List.forall_mem_cons.mp hs
    by_cases hacc : e.isAccess
    · obtain ⟨t, hstep, ht⟩ := step_busyAccess hacc hwin hb hr hi
      obtain ⟨hbusy, hrst, hop, hinbox⟩ := ht.pending
      obtain ⟨k, u, l, hk, hsteps, hnext, hop'⟩ := ih hinbox (hbusy.trans hb) (hrst.trans hr) hrest
      exact ⟨k + 1, u, l, Nat.succ_le_succ hk, (steps_succ s t k hstep).trans hsteps, hnext, hop'.trans hop⟩
    · cases e with
      | completion => exact ⟨0, s, rest, Nat.zero_le _, rfl, ⟨hb, hr, .inl hi⟩, rfl⟩
      | resetPin level => exact hnr.elim
      | read off lanes => exact absurd trivial hacc
      | write off lanes v => exact absurd trivial hacc

/-- Settles O15: by induction on the inbox the completion comes next after its accesses, and then it completes. -/
theorem pendingCommandCompletes : Obligations.PendingCommandCompletes := by
  intro s hb hr hsafe hnr
  obtain ⟨k, t, rest, hk, hsteps, hnext, hop⟩ :=
    reaches_completionNext s.inbox rfl hb hr fun e he => ⟨hsafe e he, hnr e he⟩
  obtain ⟨u, hstep, hbusy, hdone⟩ := hnext.completes
  exact ⟨k, t, rest, u, hk, hsteps, hnext, hop, hstep, hbusy, hdone⟩

end Sys2Proof.Machine
end

section
/-! Truncation and formatting: TRUNC, MODFMT and GEN (R77 to R83). -/

namespace Sys2Proof.Machine

/-! ## Dynamic truncation -/

/-- R77: the value is made of four bytes, and of no other. -/
theorem extract31_congr_four {g g' : Vector Byte 64} {off : Nat}
    (h : ∀ k < 4, byteAt g (off + k) = byteAt g' (off + k)) : extract31 g off = extract31 g' off := by
  have h0 : byteAt g off = byteAt g' off := h 0 (by decide)
  rw [extract31, extract31, h0, h 1 (by decide), h 2 (by decide), h 3 (by decide)]

/-- R77: `dt` reads ALG, the byte that chooses the offset, and the four bytes at the offset. -/
theorem dt_congr_bytes {s s' : State} (ha : s'.alg = s.alg)
    (hl : byteAt s'.digest (digestLen s.alg - 1) = byteAt s.digest (digestLen s.alg - 1))
    (hb : ∀ k < 4, byteAt s'.digest (offsetNat s + k) = byteAt s.digest (offsetNat s + k)) : dt s' = dt s := by
  have hoff : truncOffset s'.alg s'.digest = truncOffset s.alg s.digest := by rw [truncOffset, truncOffset, ha, hl]
  simp only [dt]
  rw [hoff, ha, offsetNat_eq, extract31_congr_four hb]

/-- The offset has four bits, so an offset past an MD5 digest is one of three (R77). -/
theorem pastDigest_iff_offset (s : State) :
    PastDigest s ↔ s.alg = .md5 ∧ (offsetNat s = 13 ∨ offsetNat s = 14 ∨ offsetNat s = 15) := by
  have := offsetNat_lt s
  exact and_congr_right fun _ => by omega

/-- Settles O20: the range check is `PastDigest`, and `dt` reads five bytes at most. -/
theorem truncRangeOnlyForMd5 : Obligations.TruncRangeOnlyForMd5 := by
  intro s
  refine ⟨(pastDigest_iff s).trans (pastDigest_iff_offset s), fun h => ?_, fun h => ?_, fun _ => dt_congr_bytes⟩
  · obtain ⟨-, herr⟩ | ⟨hp, -⟩ := dt_cases s
    · exact herr
    · exact absurd ((pastDigest_iff s).mp h) hp
  · obtain ⟨hp, -⟩ | ⟨-, off, v, hok, hoff, hval⟩ := dt_cases s
    · exact absurd ((pastDigest_iff s).mpr hp) (Nat.not_lt.mpr h)
    · exact ⟨off, v, hok, hoff, hval, Nat.le_of_lt_succ (valueNat_lt s)⟩

/-! ## What the commands leave in the registers -/

/-- TRUNC_OFF and TRUNC_VAL read as their fields: their reserved bits are 0 (R32, R33). -/
theorem truncIs_of (t : State) {off v : Nat} (ho : t.truncOff.toNat = off) (hv : t.truncVal.toNat = v) :
    TruncIs t off v :=
  ⟨(BitVec.toNat_setWidth_of_le (by decide)).trans ho, (BitVec.toNat_setWidth_of_le (by decide)).trans hv⟩

/-- R82: a recomputed code leaves the offset and the value of R77, and its completion keeps them. -/
theorem Recomputed.truncIs {s t : State} (h : Recomputed s t) (e : ErrCode) :
    TruncIs (t.completed e) (offsetNat s) (valueNat s) := by
  obtain ⟨off, v, r, rfl, hoff, hval, -⟩ := h
  exact truncIs_of _ hoff hval

/-- R82: a recomputed code is the code of the value of R77, and its completion keeps it. -/
theorem Recomputed.codeIs {s t : State} (h : Recomputed s t) (e : ErrCode) :
    CodeIs (t.completed e) (valueNat s) (digitsNat s) := by
  obtain ⟨off, v, r, rfl, -, -, hr⟩ := h
  exact codeIs_of _ _ _ hr rfl rfl

theorem Recomputed.keepsMatchPState {s t : State} (h : Recomputed s t) (e : ErrCode) :
    KeepsMatchPState s (t.completed e) := by
  obtain ⟨hm, hp, -⟩ := h.fields
  exact ⟨hm, hp⟩

/-- The frame of a command, over R71's table as the statements write it out. -/
theorem exec_keeps_writeSet {i : Instr} {s t : State} (h : exec i s = .next t) : Keeps (writeSet (some i)) s t :=
  (exec_frame h).2.mono fun r hr => (writeSet_eq _ r).symm.trans hr

/-- R81: with DIGITS legal MODFMT ends without error and leaves the code of TRUNC_VAL. -/
theorem modfmt_codeIs {s t : State} (hd : DigitsLegal s) (h : exec .modfmt s = .next t) :
    Ends t .none ∧ CodeIs t s.truncVal.toNat (digitsNat s) ∧ KeepsMatchPState s t := by
  obtain ⟨hn, -⟩ | ⟨-, r, hx, hr⟩ := execModfmt_cases s
  · exact absurd hd hn
  · cases hx.symm.trans h
    exact ⟨ends_completed _ _, codeIs_of _ _ _ hr rfl rfl, rfl, rfl⟩

/-! ## The three commands -/

/-- Settles O19, by the two ways TRUNC can end. -/
theorem truncWritesOffsetAndValue : Obligations.TruncWritesOffsetAndValue := by
  refine ⟨rfl, fun s => ?_⟩
  obtain ⟨hp, hx⟩ | ⟨hp, off, v, hx, hoff, hval⟩ := execTrunc_cases s
  · exact ⟨fun h => absurd hp h, fun _ => ⟨_, hx, ends_completed _ _, ⟨rfl, rfl⟩, keeps_completed _ _⟩⟩
  · exact ⟨fun _ => ⟨_, hx, ends_completed _ _, truncIs_of _ hoff hval, ⟨rfl, rfl⟩, exec_keeps_writeSet hx⟩,
      fun h => absurd h hp⟩

/-- Settles O21, by whether DIGITS is legal. -/
theorem modfmtFormatsTruncVal : Obligations.ModfmtFormatsTruncVal := by
  refine ⟨rfl, fun s => ⟨fun hd => ?_, fun hd => ?_⟩⟩
  · obtain ⟨t, ht⟩ := exec_answers .modfmt s
    obtain ⟨hend, hcode, hkeep⟩ := modfmt_codeIs hd ht
    exact ⟨t, ht, hend, hcode, hkeep, exec_keeps_writeSet ht⟩
  · obtain ⟨-, hx⟩ | ⟨hl, -⟩ := execModfmt_cases s
    · exact ⟨_, hx, ends_completed _ _, ⟨rfl, rfl⟩, keeps_completed _ _⟩
    · exact absurd hl hd

/-- Settles O23, by the three ways GEN can end. -/
theorem genWritesTheCode : Obligations.GenWritesTheCode := by
  refine ⟨rfl, fun s => ?_⟩
  obtain ⟨hd, hx⟩ | ⟨hd, hp, hx⟩ | ⟨hd, hp, t, ht, hx⟩ := execGen_cases s
  · exact ⟨fun h => absurd h hd, fun _ => ⟨_, hx, ends_completed _ _, ⟨rfl, rfl⟩, keeps_completed _ _⟩,
      fun h => absurd h hd⟩
  · exact ⟨fun _ h => absurd hp h, fun h => absurd hd h,
      fun _ _ => ⟨_, hx, ends_completed _ _, ⟨rfl, rfl⟩, keeps_completed _ _⟩⟩
  · exact ⟨fun _ _ => ⟨_, hx, ends_completed _ _, ht.truncIs _, ht.codeIs _, ht.keepsMatchPState _,
      exec_keeps_writeSet hx⟩, fun h => absurd hd h, fun _ h => absurd h hp⟩

/-! ## The code as a decimal number -/

/-- The number that the first `k` characters of CODE spell in decimal. -/
def decimalPrefix (t : State) (k : Nat) : Nat :=
  (List.range k).foldl (fun acc i => acc * 10 + ((byteAt t.code i).toNat - 0x30)) 0

theorem decimalPrefix_succ (t : State) (k : Nat) :
    decimalPrefix t (k + 1) = decimalPrefix t k * 10 + ((byteAt t.code k).toNat - 0x30) := by
  simp [decimalPrefix, List.range_succ]

/-- R78: the first `k` of `d` characters spell the code value without its last `d - k` digits. -/
theorem CodeIs.decimalPrefix_eq {t : State} {v d : Nat} (h : CodeIs t v d) (hd : d ≤ 16) {k : Nat} (hk : k ≤ d) :
    decimalPrefix t k = v % 10 ^ d / 10 ^ (d - k) := by
  induction k with
  | zero => exact (Nat.div_eq_of_lt (Nat.mod_lt _ (by positivity))).symm
  | succ k ih =>
    have hchar := h.chars k (by omega)
    rw [if_pos (by omega)] at hchar
    have hpow : 10 ^ (d - k) = 10 ^ (d - (k + 1)) * 10 := by rw [← Nat.pow_succ]; congr 1; omega
    rw [decimalPrefix_succ, ih (by omega), hchar, hpow, ← Nat.div_div_eq_div_mul, Nat.add_sub_cancel_left,
      show d - 1 - k = d - (k + 1) by omega]
    exact Nat.div_add_mod' _ 10

/-- Settles O22: all `d` characters spell the whole code value. -/
theorem codeReadsBackAsResult : Obligations.CodeReadsBackAsResult := by
  intro s t hd h
  obtain ⟨-, hcode, -⟩ := modfmt_codeIs hd h
  calc decimalPrefix t (digitsNat s)
    _ = s.truncVal.toNat % 10 ^ digitsNat s / 10 ^ (digitsNat s - digitsNat s) :=
        hcode.decimalPrefix_eq (hd.2.trans (by decide)) le_rfl
    _ = (readReg t .result).toNat := by rw [Nat.sub_self, Nat.pow_zero, Nat.div_one, hcode.result]

/-! ## GEN against TRUNC and MODFMT -/

/-- No register shows that a command word was accepted before a completion: BUSY is 0 again (R66, R70). -/
theorem readReg_accept_completed (s : State) (w : Word) (e : ErrCode) (r : Reg) :
    readReg ((s.accept w).completed e) r = readReg (s.completed e) r := by
  cases r <;> rfl

/-- R80, R81: the pair, with MODFMT's acceptance between, ends as one completion after the writes of both would. -/
theorem execModfmt_after_trunc (s : State) (off : BitVec 4) (v : BitVec 31) (w : Word) :
    (¬ DigitsLegal s ∧ exec .modfmt (((s.withTrunc off v).completed .none).accept w)
      = .next (((s.withTrunc off v).accept w).completed .invalidDigits)) ∨
    (DigitsLegal s ∧ ∃ r, exec .modfmt (((s.withTrunc off v).completed .none).accept w)
        = .next ((((s.withTrunc off v).withCode r s.digits
          (codeBytes (v.toNat % 10 ^ digitsNat s) (digitsNat s))).accept w).completed .none)
      ∧ r.toNat = v.toNat % 10 ^ digitsNat s) :=
  execModfmt_cases (((s.withTrunc off v).completed .none).accept w)

/-- Where TRUNC has written and the same error follows, only TRUNC's two registers can differ (R80). -/
theorem readReg_withTrunc_completed (s : State) (off : BitVec 4) (v : BitVec 31) (e : ErrCode) {r : Reg}
    (ho : r ≠ .truncOff) (hv : r ≠ .truncVal) :
    readReg ((s.withTrunc off v).completed e) r = readReg (s.completed e) r :=
  readReg_withTrunc (s.completed e) r off v ((writeSet_eq (some .trunc) r).symm.trans (by simp [writeSet, ho, hv]))

/-- Settles O24: GEN and the pair compute the same values, which determine the fields; with an illegal DIGITS, TRUNC
alone has written. -/
theorem genEqualsTruncThenModfmt : Obligations.GenEqualsTruncThenModfmt := by
  intro s hp
  obtain ⟨hp', -⟩ | ⟨-, off, v, ht, hoff, hval⟩ := execTrunc_cases s
  · exact absurd hp' hp
  obtain ⟨hd, hg⟩ | ⟨-, hp', -⟩ | ⟨hd, -, g, hrec, hg⟩ := execGen_cases s
  · obtain ⟨-, hu⟩ | ⟨hd', -⟩ := execModfmt_after_trunc s off v (encode .modfmt)
    · exact ⟨fun h => absurd h hd, fun _ => ⟨_, _, _, hg, keeps_completed _ _, rfl, ht, hu, truncIs_of _ hoff hval,
        rfl, fun r ho hv => (readReg_accept_completed _ _ _ r).trans (readReg_withTrunc_completed s off v _ ho hv)⟩⟩
    · exact absurd hd' hd
  · exact absurd hp' hp
  · obtain ⟨hd', -⟩ | ⟨-, r, hu, hr⟩ := execModfmt_after_trunc s off v (encode .modfmt)
    · exact absurd hd hd'
    · obtain ⟨off', v', r', rfl, hoff', hval', hr'⟩ := hrec
      obtain rfl : off' = off := BitVec.eq_of_toNat_eq (hoff'.trans hoff.symm)
      obtain rfl : v' = v := BitVec.eq_of_toNat_eq (hval'.trans hval.symm)
      obtain rfl : r' = r := BitVec.eq_of_toNat_eq (by rw [hr', hr, hval])
      rw [hval] at hu
      exact ⟨fun _ => ⟨_, _, _, hg, ht, hu, readReg_accept_completed _ _ _⟩, fun h => absurd hd h⟩

end Sys2Proof.Machine
end

section
/-! Validation: the comparison of R85, CMP, VALIDATE and what follows of them (R85 to R89). -/

namespace Sys2Proof.Machine

/-! ## The comparison -/

/-- R85: the accumulator takes in the difference at every position, in order. -/
theorem ctAcc_eq_foldl (a b : Vector Byte 16) (n : Nat) :
    ctAcc a b n = (List.range n).foldl (fun acc i => acc ||| (byteAt a i ^^^ byteAt b i)) 0 := by
  induction n with
  | zero => rfl
  | succ n ih => rw [ctAcc_succ, ih, List.range_succ, List.foldl_concat]

/-- Settles O25, by induction on the number of positions. -/
theorem ctEqComparesEveryPosition : Obligations.CtEqComparesEveryPosition :=
  fun a b n => ⟨ctAcc_eq_foldl a b n, ctEq_iff a b n⟩

/-! ## CMP and VALIDATE -/

theorem codeLen_toNat_eq_iff (s : State) : s.codeLen.toNat = digitsNat s ↔ s.codeLen = s.digits := BitVec.toNat_inj

/-- What an error of CMP or VALIDATE leaves: ERR and MATCH 0, and everything else as it was (R72, R87, R88). -/
theorem noMatch_completed (s : State) (e : ErrCode) :
    Ends ((s.withMatch false).completed e) e ∧ ((s.withMatch false).completed e).matched = false
      ∧ ((s.withMatch false).completed e).pstate = s.pstate
      ∧ Keeps (fun _ => false) s ((s.withMatch false).completed e) :=
  ⟨ends_completed _ _, rfl, rfl, (keeps_withMatch s false).completed e⟩

/-- Settles O26, by the four ways CMP can end. -/
theorem cmpComparesWithTheStoredCode : Obligations.CmpComparesWithTheStoredCode := by
  refine ⟨rfl, fun s => ?_⟩
  have hiff := codeLen_toNat_eq_iff s
  obtain ⟨hd, hx⟩ | ⟨hd, hc, hx⟩ | ⟨hd, hc, hl, hx⟩ | ⟨hd, hc, hl, hx⟩ := execCmp_cases s <;>
    refine ⟨_, hx, rfl, (keeps_withMatch s _).completed _, ?_⟩
  · exact ⟨fun _ => ⟨ends_completed _ _, rfl⟩, fun h => absurd h hd, fun h => absurd h hd, fun h => absurd h hd⟩
  · exact ⟨fun h => absurd hd h, fun _ _ => ⟨ends_completed _ _, rfl⟩, fun _ h => absurd h hc, fun _ h => absurd h hc⟩
  · exact ⟨fun h => absurd hd h, fun _ h => absurd hc h, fun _ _ _ => ⟨ends_completed _ _, rfl⟩,
      fun _ _ h => absurd (hiff.mp h) hl⟩
  · exact ⟨fun h => absurd hd h, fun _ h => absurd hc h, fun _ _ h => absurd (hiff.mpr hl) h,
      fun _ _ _ => ⟨ends_completed _ _, ctEq_iff _ _ _⟩⟩

/-- A write of MATCH leaves the code registers (R21, R34 to R36). -/
theorem CodeIs.withMatch {t : State} {e : ErrCode} {v d : Nat} (h : CodeIs (t.completed e) v d) (b : Bool) :
    CodeIs ((t.withMatch b).completed e) v d :=
  ⟨h.result, h.codeLen, h.chars⟩

/-- Settles O27, by the four ways VALIDATE can end. -/
theorem validateRecomputesAndCompares : Obligations.ValidateRecomputesAndCompares := by
  refine ⟨rfl, fun s => ?_⟩
  obtain ⟨hd, hx⟩ | ⟨hd, hc, hx⟩ | ⟨hd, hc, hp, hx⟩ | ⟨hd, hc, hp, t, ht, hx⟩ := execValidate_cases s
  · exact ⟨fun h => absurd h hd, fun _ => ⟨_, hx, noMatch_completed s _⟩, fun h => absurd h hd, fun h => absurd h hd⟩
  · exact ⟨fun _ h => absurd h hc, fun h => absurd hd h, fun _ _ => ⟨_, hx, noMatch_completed s _⟩,
      fun _ h => absurd h hc⟩
  · exact ⟨fun _ _ h => absurd hp h, fun h => absurd hd h, fun _ h => absurd hc h,
      fun _ _ _ => ⟨_, hx, noMatch_completed s _⟩⟩
  · refine ⟨fun _ _ _ => ?_, fun h => absurd hd h, fun _ h => absurd hc h, fun _ _ h => absurd h hp⟩
    obtain ⟨-, hps, -⟩ := ht.fields
    exact ⟨_, hx, ends_completed _ _, ht.truncIs .none, (ht.codeIs .none).withMatch _, ctEq_iff _ _ _, hps,
      exec_keeps_writeSet hx⟩

/-! ## What follows of them (R89) -/

/-- A recomputed code is a function of the digest and DIGITS (R77, R78). -/
theorem Recomputed.code {s t : State} (h : Recomputed s t) :
    t.code = codeBytes (valueNat s % 10 ^ digitsNat s) (digitsNat s) := by
  obtain ⟨off, v, r, rfl, -⟩ := h
  rfl

/-- GEN without error has recomputed the code, with DIGITS legal and the truncation inside the digest (R82). -/
theorem execGen_success {s g : State} (h : exec .gen s = .next g) (he : g.err = .none) :
    DigitsLegal s ∧ ¬ PastDigest s ∧ ∃ t, Recomputed s t ∧ g = t.completed .none := by
  obtain ⟨-, hx⟩ | ⟨-, -, hx⟩ | ⟨hd, hp, t, ht, hx⟩ := execGen_cases s <;> cases hx.symm.trans h
  · cases he
  · cases he
  · exact ⟨hd, hp, t, ht, rfl⟩

/-- VALIDATE matches, without error, a candidate of DIGITS bytes that is the code of the digest (R88). -/
theorem execValidate_match {s : State} (hd : DigitsLegal s) (hc : CandLenIsDigits s) (hp : ¬ PastDigest s)
    (heq : CandEquals s (codeBytes (valueNat s % 10 ^ digitsNat s) (digitsNat s)) (digitsNat s)) :
    ∃ t, exec .validate s = .next t ∧ t.matched = true ∧ t.err = .none := by
  obtain ⟨hd', -⟩ | ⟨-, hc', -⟩ | ⟨-, -, hp', -⟩ | ⟨-, -, -, t, ht, hx⟩ := execValidate_cases s
  · exact absurd hd hd'
  · exact absurd hc hc'
  · exact absurd hp' hp
  · rw [← ht.code] at heq
    exact ⟨_, hx, (ctEq_iff _ _ _).mpr heq, rfl⟩

/-- Settles O28: GEN keeps ALG, DIGEST and DIGITS, so VALIDATE recomputes the code that GEN left. -/
theorem generatedCodeValidates : Obligations.GeneratedCodeValidates := by
  intro s g c n h he hcode hn
  obtain ⟨hd, hp, t, ⟨off, v, r, rfl, -⟩, rfl⟩ := execGen_success h he
  exact execValidate_match hd hn hp hcode

/-- The commands that compare a candidate end in INVALID_INPUT_LENGTH, with MATCH 0, when its length alone is wrong
(R87, R88, R94). -/
theorem exec_wrongLength {i : Instr} {s : State} (hi : i = .cmp ∨ i = .validate ∨ i = .probeStep) (hd : DigitsLegal s)
    (ha : i = .probeStep → s.pstate = .active) (hc : ¬ CandLenIsDigits s) :
    ∃ t, exec i s = .next t ∧ t.matched = false ∧ t.err = .invalidInputLength := by
  obtain rfl | rfl | rfl := hi
  · obtain ⟨hd', -⟩ | ⟨-, -, hx⟩ | ⟨-, hc', -⟩ | ⟨-, hc', -⟩ := execCmp_cases s
    · exact absurd hd hd'
    · exact ⟨_, hx, rfl, rfl⟩
    · exact absurd hc' hc
    · exact absurd hc' hc
  · obtain ⟨hd', -⟩ | ⟨-, -, hx⟩ | ⟨-, hc', -⟩ | ⟨-, hc', -⟩ := execValidate_cases s
    · exact absurd hd hd'
    · exact ⟨_, hx, rfl, rfl⟩
    · exact absurd hc' hc
    · exact absurd hc' hc
  · obtain ⟨ha', -⟩ | ⟨-, hd', -⟩ | ⟨-, -, -, hx⟩ | ⟨-, -, hc', -⟩ | ⟨-, -, hc', -⟩ := execProbeStep_cases s
    · exact absurd (ha rfl) ha'
    · exact absurd hd hd'
    · exact ⟨_, hx, rfl, rfl⟩
    · exact absurd hc' hc
    · exact absurd hc' hc

/-- Settles O29: the length is checked before anything is compared, and MATCH 1 would mean equal bytes (O57). -/
theorem wrongLengthIsNeverAMatch : Obligations.WrongLengthIsNeverAMatch := by
  intro i s hi hd ha
  refine ⟨exec_wrongLength hi hd ha, fun t h _ hne => ?_⟩
  have hi' : i = .cmp ∨ i = .validate ∨ (i = .probeStep ∧ s.pstate = .active) :=
    hi.imp_right (Or.imp_right fun hp => ⟨hp, ha hp⟩)
  by_contra hm
  obtain ⟨-, -, -, heq⟩ := matchMeansExactMatch i s t hi' h (by simpa using hm)
  exact hne heq

end Sys2Proof.Machine
end

section
/-! TOTP: the probe order, TDIV, and the commands of a probe scan (R90 to R98). -/

namespace Sys2Proof.Machine

/-! ## The probe order -/

theorem probeOff_even (k : Nat) : probeOff (2 * k) = -(k : Int) := by
  have h : ¬ 2 * k % 2 = 1 := by omega
  rw [probeOff, if_neg h, Nat.mul_div_cancel_left k (by decide)]

theorem probeOff_odd (k : Nat) : probeOff (2 * k + 1) = (k : Int) + 1 := by
  have h : (2 * k + 1) % 2 = 1 := by omega
  rw [probeOff, if_pos h, show (2 * k + 1 + 1) / 2 = k + 1 by omega, Nat.cast_succ]

/-- The index at which the probe order of R92 visits an offset. -/
def probeIndex (x : Int) : Nat := if 0 < x then 2 * (x.toNat - 1) + 1 else 2 * (-x).toNat

theorem probeOff_probeIndex (x : Int) : probeOff (probeIndex x) = x := by
  unfold probeIndex
  split
  · rw [probeOff_odd]
    omega
  · rw [probeOff_even]
    omega

theorem probeIndex_probeOff (i : Nat) : probeIndex (probeOff i) = i := by
  obtain ⟨k, rfl | rfl⟩ := i.even_or_odd'
  · rw [probeOff_even, probeIndex, if_neg (by omega)]
    omega
  · rw [probeOff_odd, probeIndex, if_pos (by omega)]
    omega

theorem probeIndex_le_iff (s : Nat) (x : Int) : probeIndex x ≤ 2 * s ↔ -(s : Int) ≤ x ∧ x ≤ s := by
  unfold probeIndex
  split <;> omega

/-- R92: indices 0 to 2s visit the offsets from -s to s. -/
theorem probeOff_window (s : Nat) (x : Int) : -(s : Int) ≤ x ∧ x ≤ s ↔ ∃ i ≤ 2 * s, probeOff i = x := by
  rw [← probeIndex_le_iff]
  refine ⟨fun h => ⟨_, h, probeOff_probeIndex x⟩, ?_⟩
  rintro ⟨i, hi, rfl⟩
  rwa [probeIndex_probeOff]

theorem probeCtr_toNat (base : Word64) (i : Nat) :
    ((probeCtr base i).toNat : Int) = (base.toNat + probeOff i) % 2 ^ 64 := by
  rw [probeCtr, BitVec.toNat_add, BitVec.toNat_ofInt]
  omega

@[simp] theorem probeCtr_zero (base : Word64) : probeCtr base 0 = base := BitVec.add_zero base

/-- Settles O31: every offset has one index, and the counter adds the offset modulo 2^64. -/
theorem probeOrderCoversTheWindow : Obligations.ProbeOrderCoversTheWindow := by
  refine ⟨⟨rfl, fun k hk => ⟨?_, probeOff_even k⟩⟩, probeOff_window,
    fun _ _ h => Function.LeftInverse.injective probeIndex_probeOff h, probeCtr_toNat⟩
  rw [show 2 * k - 1 = 2 * (k - 1) + 1 by omega, probeOff_odd]
  omega

/-! ## TDIV -/

/-- R90: the effective period is the period, or 30 seconds for 0. -/
theorem effPeriod_toNat (p : Word) : (effPeriod p).toNat = if p.toNat = 0 then 30 else p.toNat := by
  simp [effPeriod, apply_ite BitVec.toNat, ← BitVec.toNat_inj]

/-- R91: the quotient on 64 bits is the one on natural numbers. -/
theorem tdiv_counter {s t : State} (h : exec .tdiv s = .next t) :
    t.counter.toNat = s.time.toNat / (if s.period.toNat = 0 then 30 else s.period.toNat) := by
  cases (execTdiv_eq s).symm.trans h
  calc (s.time / (effPeriod s.period).setWidth 64).toNat
    _ = s.time.toNat / (effPeriod s.period).toNat := by rw [BitVec.toNat_udiv, BitVec.toNat_setWidth_of_le (by decide)]
    _ = _ := by rw [effPeriod_toNat]

/-- Settles O30: TDIV writes the quotient into COUNTER and completes. -/
theorem tdivDividesTimeByPeriod : Obligations.TdivDividesTimeByPeriod :=
  ⟨rfl, fun s => ⟨_, execTdiv_eq s, ends_completed _ _, tdiv_counter (execTdiv_eq s), ⟨rfl, rfl⟩,
    (keeps_withCounter s _).completed _⟩⟩

/-! ## The window of a scan on time counters -/

/-- Far from the wrap at 2^64, a scan of skew `k` probes the counters at most `k` away from its base. -/
theorem probed_iff {base c : Word64} {k : Nat} (hk : k < 2 ^ 8) (hb : base.toNat < 2 ^ 63) (hc : c.toNat < 2 ^ 63) :
    (∃ i ≤ 2 * k, probeCtr base i = c) ↔ base.toNat ≤ c.toNat + k ∧ c.toNat ≤ base.toNat + k := by
  have hctr : ∀ i ≤ 2 * k, probeCtr base i = c ↔ probeOff i = (c.toNat : Int) - base.toNat := fun i hi => by
    have hoff := (probeOff_window k (probeOff i)).mpr ⟨i, hi, rfl⟩
    rw [← BitVec.toNat_inj, ← Int.natCast_inj, probeCtr_toNat]
    omega
  rw [exists_congr fun i => and_congr_right (hctr i), ← probeOff_window]
  omega

/-- R90, R91: with a period of 30 seconds, COUNTER is the number of whole periods of TIME. -/
theorem tdiv_counter_thirty {s t : State} (hp : s.period = 0 ∨ s.period = 30) (h : exec .tdiv s = .next t) :
    t.counter.toNat = s.time.toNat / 30 := by
  rw [tdiv_counter h]
  obtain hp | hp := hp <;> rw [hp] <;> rfl

/-- Settles O37: times within 29 seconds lie at most one period apart, and times 61 seconds apart at least two. -/
theorem skewOneToleratesOneWindow : Obligations.SkewOneToleratesOneWindow := by
  intro s s' a a' hp hp' ha ha'
  have hc := tdiv_counter_thirty hp ha
  have hc' := tdiv_counter_thirty hp' ha'
  have hprobed := probed_iff (base := a'.counter) (c := a.counter) (k := 1) (by decide) (by omega) (by omega)
  refine ⟨fun h h' => hprobed.mpr (by omega), fun hfar i hi heq => ?_⟩
  have := hprobed.mp ⟨i, hi, heq⟩
  omega

/-! ## PROBE_START and PROBE_CLEAR -/

/-- R93: PROBE_START writes the latches, PSTATE and MATCH; index 0 leaves COUNTER as it is. -/
theorem execProbeStart_latches (s : State) : exec .probeStart s =
    .next ((((s.withProbe s.counter 0 s.skew).withPState .active).withMatch false).completed .none) := by
  rw [execProbeStart_eq, probeCtr_zero]
  rfl

/-- Settles O32, by the frames of the three updates. -/
theorem probeStartLatchesTheWindow : Obligations.ProbeStartLatchesTheWindow :=
  ⟨rfl, fun s => ⟨_, execProbeStart_latches s, ends_completed _ _, rfl, rfl, rfl, rfl, rfl, rfl,
    (((keeps_withProbe s _ _ _).trans (keeps_withPState _ _).of_none).trans (keeps_withMatch _ _).of_none).completed _⟩⟩

/-- Settles O36: PROBE_CLEAR writes the latches and PSTATE, and completes. -/
theorem probeClearReturnsToIdle : Obligations.ProbeClearReturnsToIdle :=
  ⟨rfl, fun s => ⟨_, execProbeClear_eq s, ends_completed _ _, rfl, rfl, rfl, rfl, rfl,
    (exec_frame (execProbeClear_eq s)).2⟩⟩

/-! ## PROBE_STEP -/

/-- The next index fits: ten bits hold twice an eight-bit skew (R31). -/
theorem pidx_succ_toNat {idx : BitVec 10} {skew : BitVec 8} (h : idx.toNat ≤ 2 * skew.toNat) :
    (idx + 1).toNat = idx.toNat + 1 := by
  have := skew.isLt
  rw [BitVec.toNat_add, show (1 : BitVec 10).toNat = 1 from rfl]
  omega

/-- R94: what a PROBE_STEP without error leaves in STATUS, PIDX and COUNTER. -/
inductive ProbeDecision (s t : State) : Prop where
  | hit (heq : CandEquals s t.code (digitsNat s)) (matched : t.matched = true) (pstate : t.pstate = .hit)
      (pidx : t.pidx = s.pidx) (counter : t.counter = s.counter)
  | miss (hne : ¬ CandEquals s t.code (digitsNat s)) (last : s.pidx.toNat = 2 * s.pskew.toNat)
      (matched : t.matched = false) (pstate : t.pstate = .miss) (pidx : t.pidx = s.pidx)
      (counter : t.counter = s.counter)
  | goesOn (hne : ¬ CandEquals s t.code (digitsNat s)) (notLast : s.pidx.toNat ≠ 2 * s.pskew.toNat)
      (matched : t.matched = false) (pstate : t.pstate = s.pstate) (pidx : t.pidx = s.pidx + 1)
      (counter : t.counter = probeCtr s.probeBase (s.pidx.toNat + 1))

theorem probeDecide_latches (s : State) :
    (probeDecide s).probeBase = s.probeBase ∧ (probeDecide s).pskew = s.pskew := by
  obtain ⟨-, h⟩ | ⟨-, -, h⟩ | ⟨-, -, h⟩ := probeDecide_cases s <;> simp [h]

/-- R94: the decision after the recomputation, in terms of the state the command began in. -/
theorem Recomputed.probeDecision {s u : State} (h : Recomputed s u) :
    ProbeDecision s ((probeDecide u).completed .none) := by
  obtain ⟨-, hpst, hcand, hdigits, hidx, hskew, hbase, hctr⟩ := h.fields
  have heq : CandEquals s ((probeDecide u).completed .none).code (digitsNat s)
      ↔ ctEq u.cand u.code u.digits.toNat = true := by
    rw [ctEq_iff, State.completed_code, (probeDecide_code u).1, hcand, hdigits]
    rfl
  obtain ⟨hc, hd⟩ | ⟨hc, hlast, hd⟩ | ⟨hc, hlast, hd⟩ := probeDecide_cases u
  · refine .hit (heq.mpr hc) ?_ ?_ ?_ ?_ <;> simp [hd, hidx, hctr]
  · refine .miss (mt heq.mp (by simp [hc])) (by rw [← hidx, ← hskew, hlast]) ?_ ?_ ?_ ?_ <;> simp [hd, hidx, hctr]
  · refine .goesOn (mt heq.mp (by simp [hc])) (by rwa [← hidx, ← hskew]) ?_ ?_ ?_ ?_ <;> simp [hd, hpst, hidx, hbase]

/-- R94: how a PROBE_STEP of an ACTIVE scan ends: an error aborts the scan, or its code decides. -/
theorem probeStep_active {s t : State} (ha : s.pstate = .active) (h : exec .probeStep s = .next t) :
    t.probeBase = s.probeBase ∧ t.pskew = s.pskew
      ∧ (t.err ≠ .none ∧ t.pstate = .aborted ∧ t.pidx = s.pidx ∨ t.err = .none ∧ ProbeDecision s t) := by
  obtain ⟨ha', -⟩ | ⟨-, -, hx⟩ | ⟨-, -, -, hx⟩ | ⟨-, -, -, -, hx⟩ | ⟨-, -, -, -, u, hu, hx⟩ := execProbeStep_cases s
  · exact absurd ha ha'
  all_goals cases hx.symm.trans h
  · exact ⟨rfl, rfl, .inl ⟨nofun, rfl, rfl⟩⟩
  · exact ⟨rfl, rfl, .inl ⟨nofun, rfl, rfl⟩⟩
  · exact ⟨rfl, rfl, .inl ⟨nofun, rfl, rfl⟩⟩
  · obtain ⟨hbase, hskew⟩ := probeDecide_latches u
    obtain ⟨-, -, -, -, -, hskew', hbase', -⟩ := hu.fields
    exact ⟨hbase.trans hbase', hskew.trans hskew', .inr ⟨rfl, hu.probeDecision⟩⟩

/-- A frame outside TRUNC_OFF and TRUNC_VAL keeps what they hold. -/
theorem TruncIs.of_keeps {s t : State} {w : Reg → Bool} {off v : Nat} (h : TruncIs s off v) (hk : Keeps w s t)
    (ho : w .truncOff = false) (hv : w .truncVal = false) : TruncIs t off v := by
  rwa [TruncIs, hk.regs _ ho nofun nofun, hk.regs _ hv nofun nofun]

/-- A frame outside RESULT and CODE_LEN, with CODE unchanged, keeps the code. -/
theorem CodeIs.of_keeps {s t : State} {w : Reg → Bool} {v d : Nat} (h : CodeIs s v d) (hk : Keeps w s t)
    (hr : w .result = false) (hl : w .codeLen = false) (hc : t.code = s.code) : CodeIs t v d where
  result := by rw [hk.regs _ hr nofun nofun, h.result]
  codeLen := by rw [hk.regs _ hl nofun nofun, h.codeLen]
  chars i hi := by rw [hc, h.chars i hi]

/-- The same completion on both sides keeps a frame. -/
theorem Keeps.completed_completed {s t : State} {w : Reg → Bool} (h : Keeps w s t) (e : ErrCode) :
    Keeps w (s.completed e) (t.completed e) :=
  ⟨fun r hw hs hi => by rw [readReg_completed t r e hs hi, readReg_completed s r e hs hi, h.regs r hw hs hi],
    h.ovr, h.rst, h.inbox, h.busOut, h.draws⟩

/-- What an error that aborts the scan leaves: ERR, MATCH 0 and PSTATE ABORTED, and everything else as it was (R72,
R94). -/
theorem abort_completed (s : State) (e : ErrCode) :
    Ends (((s.withMatch false).withPState .aborted).completed e) e
      ∧ (((s.withMatch false).withPState .aborted).completed e).matched = false
      ∧ (((s.withMatch false).withPState .aborted).completed e).pstate = .aborted
      ∧ Keeps (fun _ => false) s (((s.withMatch false).withPState .aborted).completed e) :=
  ⟨ends_completed _ _, rfl, rfl, ((keeps_withMatch s _).trans (keeps_withPState _ _)).completed e⟩

/-- Settles O33, by the five ways PROBE_STEP can end and the three decisions of the last. -/
theorem probeStepDecidesOneCounter : Obligations.ProbeStepDecidesOneCounter := by
  refine ⟨rfl, fun s => ?_⟩
  obtain ⟨ha, hx⟩ | ⟨ha, hd, hx⟩ | ⟨ha, hd, hc, hx⟩ | ⟨ha, hd, hc, hp, hx⟩ | ⟨ha, hd, hc, hp, u, hu, hx⟩ :=
    execProbeStep_cases s
  · exact ⟨fun _ => ⟨_, hx, ends_completed _ _, ⟨rfl, rfl⟩, keeps_completed _ _⟩, fun h => absurd h ha,
      fun h => absurd h ha, fun h => absurd h ha, fun h => absurd h ha⟩
  · exact ⟨fun h => absurd ha h, fun _ _ => ⟨_, hx, abort_completed s _⟩, fun _ h => absurd h hd,
      fun _ h => absurd h hd, fun _ h => absurd h hd⟩
  · exact ⟨fun h => absurd ha h, fun _ h => absurd hd h, fun _ _ _ => ⟨_, hx, abort_completed s _⟩,
      fun _ _ h => absurd h hc, fun _ _ h => absurd h hc⟩
  · exact ⟨fun h => absurd ha h, fun _ h => absurd hd h, fun _ _ h => absurd hc h,
      fun _ _ _ _ => ⟨_, hx, abort_completed s _⟩, fun _ _ _ h => absurd hp h⟩
  · refine ⟨fun h => absurd ha h, fun _ h => absurd hd h, fun _ _ h => absurd hc h, fun _ _ _ h => absurd h hp,
      fun _ _ _ _ hi => ?_⟩
    obtain ⟨hbase, hskew, -⟩ := probeStep_active ha hx
    have hk := (keeps_probeDecide u).completed_completed .none
    refine ⟨_, hx, ends_completed _ _, (hu.truncIs .none).of_keeps hk rfl rfl,
      (hu.codeIs .none).of_keeps hk rfl rfl (probeDecide_code u).1, hbase, hskew,
      (exec_frame hx).2.mono fun r hr => ?_, ?_⟩
    · rwa [writesReg, ← show _ = isTruncReg r from writeSet_eq (some .trunc) r]
    cases hu.probeDecision with
    | hit heq hm hps hidx hctr =>
      exact ⟨fun _ => ⟨hm, hps, hidx, hctr⟩, fun h => absurd heq h, fun h => absurd heq h⟩
    | miss hne hlast hm hps hidx hctr =>
      exact ⟨fun h => absurd h hne, fun _ _ => ⟨hm, hps, hidx, hctr⟩, fun _ h => absurd hlast h⟩
    | goesOn hne hlast hm hps hidx hctr =>
      refine ⟨fun h => absurd h hne, fun _ h => absurd h hlast, fun _ _ => ⟨hm, hps.trans ha, ?_, ?_⟩⟩
      · rw [hidx, pidx_succ_toNat hi]
      · rw [hctr, probeCtr_toNat]

/-! ## A scan -/

/-- The scan latched from `base` and `skew` stands at index `k`, one of its own (R93, R95). -/
structure ScanAt (base : Word64) (skew : BitVec 8) (k : Nat) (s : State) : Prop where
  probeBase : s.probeBase = base
  pskew : s.pskew = skew
  pidx : s.pidx.toNat = k
  le : k ≤ 2 * skew.toNat

/-- R93: PROBE_START begins a scan at index 0. -/
theorem execProbeStart_scanAt {a s : State} (h : exec .probeStart a = .next s) :
    ScanAt a.counter a.skew 0 s := by
  cases (execProbeStart_eq a).symm.trans h
  exact ⟨rfl, rfl, rfl, Nat.zero_le _⟩

section Scan
variable {base : Word64} {skew : BitVec 8} {k n : Nat} {s t : State} {σ τ : Nat → State}

/-- A state with the same latches stands at the same place of the scan. -/
theorem ScanAt.of_latches (h : ScanAt base skew k s) (hb : t.probeBase = s.probeBase) (hi : t.pidx = s.pidx)
    (hk : t.pskew = s.pskew) : ScanAt base skew k t :=
  ⟨hb.trans h.probeBase, hk.trans h.pskew, by rw [hi, h.pidx], h.le⟩

/-- The index a PROBE_STEP that goes on leaves is the next, and is within the scan (R94, R95). -/
theorem ScanAt.pidx_succ (h : ScanAt base skew k s) (hlast : s.pidx.toNat ≠ 2 * s.pskew.toNat) :
    (s.pidx + 1).toNat = k + 1 ∧ k + 1 ≤ 2 * skew.toNat := by
  have hle := h.le
  rw [h.pidx, h.pskew] at hlast
  rw [pidx_succ_toNat (skew := skew) (h.pidx.trans_le hle), h.pidx]
  omega

/-- R94: a PROBE_STEP that leaves the scan ACTIVE has mismatched without error, moved to the next index and put its
counter into COUNTER. -/
theorem ScanAt.probeStep_goesOn (h : ScanAt base skew k s) (ha : s.pstate = .active)
    (hx : exec .probeStep s = .next t) (ha' : t.pstate = .active) :
    ScanAt base skew (k + 1) t ∧ ¬ CandEquals s t.code (digitsNat s) ∧ t.counter = probeCtr base (k + 1) := by
  obtain ⟨hb, hk, ⟨-, hps, -⟩ | ⟨-, hd⟩⟩ := probeStep_active ha hx
  · cases ha'.symm.trans hps
  · cases hd with
    | hit _ _ hps => cases ha'.symm.trans hps
    | miss _ _ _ hps => cases ha'.symm.trans hps
    | goesOn hne hlast _ _ hidx hctr =>
      obtain ⟨hi, hle⟩ := h.pidx_succ hlast
      rw [h.probeBase, h.pidx] at hctr
      exact ⟨⟨hb.trans h.probeBase, hk.trans h.pskew, by rw [hidx, hi], hle⟩, hne, hctr⟩

/-- R95: a PROBE_STEP ends the scan or increments PIDX, which stays within the scan. -/
theorem ScanAt.probeStep_bounded (h : ScanAt base skew k s) (ha : s.pstate = .active)
    (hx : exec .probeStep s = .next t) :
    t.pidx.toNat ≤ 2 * skew.toNat ∧ (t.pstate = .hit ∨ t.pstate = .miss ∨ t.pstate = .aborted
      ∨ t.pstate = .active ∧ t.pidx.toNat = s.pidx.toNat + 1) := by
  have hle : s.pidx.toNat ≤ 2 * skew.toNat := h.pidx.trans_le h.le
  obtain ⟨-, -, ⟨-, hps, hidx⟩ | ⟨-, hd⟩⟩ := probeStep_active ha hx
  · exact ⟨hidx ▸ hle, .inr (.inr (.inl hps))⟩
  · cases hd with
    | hit _ _ hps hidx => exact ⟨hidx ▸ hle, .inl hps⟩
    | miss _ _ _ hps hidx => exact ⟨hidx ▸ hle, .inr (.inl hps)⟩
    | goesOn _ hlast _ hps hidx =>
      obtain ⟨hi, hle'⟩ := h.pidx_succ hlast
      rw [hidx, hi, h.pidx]
      exact ⟨hle', .inr (.inr (.inr ⟨hps.trans ha, rfl⟩))⟩

/-- A step of a scan that is not its last leaves the scan ACTIVE. -/
theorem ScanSteps.active_after (h : ScanSteps n σ τ) (hk : k + 1 < n) : (τ k).pstate = .active :=
  (h.between k hk).1.symm.trans (h.steps (k + 1) hk).1

/-- R95: step `k` of a scan is made at index `k`, by induction over the steps. -/
theorem ScanSteps.scanAt (h : ScanSteps n σ τ) (h0 : ScanAt base skew 0 (σ 0)) :
    ∀ k < n, ScanAt base skew k (σ k) := by
  intro k
  induction k with
  | zero => exact fun _ => h0
  | succ k ih =>
    intro hk
    obtain ⟨ha, hx⟩ := h.steps k (Nat.lt_of_succ_lt hk)
    obtain ⟨-, hb, hi, hs⟩ := h.between k hk
    obtain ⟨hnext, -⟩ := (ih (Nat.lt_of_succ_lt hk)).probeStep_goesOn ha hx (h.active_after hk)
    exact hnext.of_latches hb hi hs

end Scan

/-- Settles O34: the last step is made at its own index, which is within the scan, so there is no room for more. -/
theorem scanIsBounded : Obligations.ScanIsBounded := by
  intro n a s σ τ hstart hscan hfirst
  have hs := execProbeStart_scanAt hstart
  rw [hs.pskew]
  cases n with
  | zero => exact ⟨Nat.zero_le _, nofun⟩
  | succ n =>
    obtain ⟨-, hb, hi, hk⟩ := hfirst n.succ_pos
    have hat := hscan.scanAt (hs.of_latches hb hi hk)
    refine ⟨Nat.succ_le_succ (hat n n.lt_succ_self).le, fun k hk => ?_⟩
    obtain ⟨ha, hx⟩ := hscan.steps k hk
    exact (hat k hk).probeStep_bounded ha hx

/-- Settles O35: a step before the last has gone on, and the last is decided at its own index. -/
theorem scanFindsTheFirstMatch : Obligations.ScanFindsTheFirstMatch := by
  intro n a s σ τ hstart hscan ⟨_, hb, hi, hk⟩ hnoerr
  have hs := execProbeStart_scanAt hstart
  have hat := hscan.scanAt (hs.of_latches hb hi hk)
  refine ⟨fun k hk => ?_, (hat n n.lt_succ_self).pidx, ?_⟩
  · obtain ⟨ha, hx⟩ := hscan.steps k (by omega)
    exact ((hat k (by omega)).probeStep_goesOn ha hx (hscan.active_after (by omega))).2
  · have hn := hat n n.lt_succ_self
    obtain ⟨ha, hx⟩ := hscan.steps n n.lt_succ_self
    obtain ⟨-, -, ⟨herr, -⟩ | ⟨-, hd⟩⟩ := probeStep_active ha hx
    · exact absurd (hnoerr n le_rfl) herr
    · cases hd with
      | hit heq _ hps => exact ⟨iff_of_true heq hps, fun h => absurd heq h⟩
      | miss hne hlast _ hps =>
        rw [hn.pidx, hn.pskew] at hlast
        exact ⟨iff_of_false hne (by simp [hps]), fun _ => by rw [hps, if_pos hlast]⟩
      | goesOn hne hlast _ hps =>
        rw [hn.pidx, hn.pskew] at hlast
        exact ⟨iff_of_false hne (by simp [hps, ha]), fun _ => by rw [hps, ha, if_neg hlast]⟩

end Sys2Proof.Machine
end

section
/-! Errors (R99 to R102), and the block with nothing to do (R114). -/

namespace Sys2Proof.Machine

/-! ## The order of the checks (R102) -/

/-- R19: a DIGITS that `firstError` reports is one that is not legal. -/
theorem digits_outside_iff (s : State) : digitsNat s = 0 ∨ 10 ≤ digitsNat s ↔ ¬ DigitsLegal s := by
  unfold DigitsLegal
  omega

/-- R102: every command completes in the first of the errors that apply to it: each way it can end is the first check
of the order that fires, with those before it passed, or none of them. -/
theorem exec_firstError (i : Instr) (s : State) : ∃ u : State, exec i s = .next (u.completed (firstError i s)) := by
  have hdigits := digits_outside_iff s
  have hcand : s.candLen.toNat = digitsNat s ↔ CandLenIsDigits s := Iff.rfl
  have hpast : s.alg = .md5 ∧ 13 ≤ offsetNat s ↔ PastDigest s := Iff.rfl
  cases i with
  | trunc =>
    obtain ⟨hp, hx⟩ | ⟨hp, _, _, hx, -⟩ := execTrunc_cases s <;>
      exact ⟨_, by simpa [firstError, hpast, hp] using hx⟩
  | modfmt =>
    obtain ⟨hd, hx⟩ | ⟨hd, _, hx, -⟩ := execModfmt_cases s <;>
      exact ⟨_, by simpa [firstError, hdigits, hd] using hx⟩
  | gen =>
    obtain ⟨hd, hx⟩ | ⟨hd, hp, hx⟩ | ⟨hd, hp, _, -, hx⟩ := execGen_cases s
    · exact ⟨_, by simpa [firstError, hdigits, hd] using hx⟩
    · exact ⟨_, by simpa [firstError, hdigits, hd, hpast, hp] using hx⟩
    · exact ⟨_, by simpa [firstError, hdigits, hd, hpast, hp] using hx⟩
  | cmp =>
    obtain ⟨hd, hx⟩ | ⟨hd, hc, hx⟩ | ⟨hd, hc, hl, hx⟩ | ⟨hd, hc, hl, hx⟩ := execCmp_cases s
    · exact ⟨_, by simpa [firstError, hdigits, hd] using hx⟩
    · exact ⟨_, by simpa [firstError, hdigits, hd, hcand, hc] using hx⟩
    · exact ⟨_, by simpa [firstError, hdigits, hd, hcand, hc, hl] using hx⟩
    · exact ⟨_, by simpa [firstError, hdigits, hd, hcand, hc, hl] using hx⟩
  | validate =>
    obtain ⟨hd, hx⟩ | ⟨hd, hc, hx⟩ | ⟨hd, hc, hp, hx⟩ | ⟨hd, hc, hp, _, -, hx⟩ := execValidate_cases s
    · exact ⟨_, by simpa [firstError, hdigits, hd] using hx⟩
    · exact ⟨_, by simpa [firstError, hdigits, hd, hcand, hc] using hx⟩
    · exact ⟨_, by simpa [firstError, hdigits, hd, hcand, hc, hpast, hp] using hx⟩
    · exact ⟨_, by simpa [firstError, hdigits, hd, hcand, hc, hpast, hp] using hx⟩
  | tdiv => exact ⟨_, execTdiv_eq s⟩
  | probeStart => exact ⟨_, execProbeStart_eq s⟩
  | probeStep =>
    obtain ⟨ha, hx⟩ | ⟨ha, hd, hx⟩ | ⟨ha, hd, hc, hx⟩ | ⟨ha, hd, hc, hp, hx⟩ | ⟨ha, hd, hc, hp, _, -, hx⟩ :=
      execProbeStep_cases s
    · exact ⟨_, by simpa [firstError, ha] using hx⟩
    · exact ⟨_, by simpa [firstError, ha, hdigits, hd] using hx⟩
    · exact ⟨_, by simpa [firstError, ha, hdigits, hd, hcand, hc] using hx⟩
    · exact ⟨_, by simpa [firstError, ha, hdigits, hd, hcand, hc, hpast, hp] using hx⟩
    · exact ⟨_, by simpa [firstError, ha, hdigits, hd, hcand, hc, hpast, hp] using hx⟩
  | probeClear => exact ⟨_, execProbeClear_eq s⟩
  | srst => exact ⟨_, execSrst_eq s⟩

/-- Settles O13: a command completes with its first error, and a word that does not decode with ILLEGAL_CMD. -/
theorem errorPriority : Obligations.ErrorPriority := by
  refine ⟨fun i s => ?_, fun s rest e hc he => ?_⟩
  · obtain ⟨u, hx⟩ := exec_firstError i s
    exact ⟨_, hx, ends_completed _ _⟩
  · have hill : ¬ ∃ i, decode s.pendOp = .ok i := by simp [he]
    exact ⟨_, (step_completion s rest hc).trans (runPending_illegal hill), ends_completed _ _⟩

/-- Settles O16: with an empty inbox a step is the completion step, which an idle block does not take. -/
theorem idleBlockKeepsItsState : Obligations.IdleBlockKeepsItsState :=
  fun s hb hi => (step_nil s hi).trans (completionStep_idle s (.inl hb))

end Sys2Proof.Machine
end

section
/-! Power-on reset: the reset values (R116), and what its assertion and its release do (R115). -/

namespace Sys2Proof.Machine

/-! ## The reset state -/

theorem byteAt_replicate_zero (n i : Nat) : byteAt (Vector.replicate n (0 : Byte)) i = 0 := by
  rw [byteAt, Vector.getElem?_replicate]
  split <;> rfl

theorem bufWord_replicate_zero (n k : Nat) : bufWord (Vector.replicate n (0 : Byte)) k = 0 := by
  simp only [bufWord, byteAt_replicate_zero]
  rfl

/-- Settles O38: every word of a buffer of zeros is 0, and the other registers are single values. -/
theorem resetValues : Obligations.ResetValues := by
  refine ⟨fun r => ?_, rfl, rfl, rfl, rfl⟩
  cases r with
  | code k => exact bufWord_replicate_zero 16 k
  | cand k => exact bufWord_replicate_zero 16 k
  | digest k => exact bufWord_replicate_zero 64 k
  | _ => rfl

/-- Settles O55: CODE is empty, its bytes are 0, and an IDLE block has no scan. -/
theorem resetMeetsTheInvariant : Obligations.ResetMeetsTheInvariant := inv_reset

/-! ## The reset input -/

theorem setResetPin_assert (s : State) :
    setResetPin s Config.resetLevel = s.withOutside s.inbox s.busOut s.draws true := if_pos rfl

theorem setResetPin_release {s : State} (hr : s.rst = true) :
    setResetPin s (!Config.resetLevel) = s.powerOnReset := by
  rw [setResetPin, if_neg (Bool.not_ne_self _), if_pos hr]

/-- R115: while reset is asserted, a host access in the window is only answered, and no completion happens. -/
theorem handle_asserted {s : State} {e : Event} (hr : s.rst = true) (he : e.isNoReset) (hw : e.inWindow) :
    ∃ b, handle e s = .next (s.answer b) := by
  cases e with
  | read off lanes => exact ⟨_, (hostRead_inWindow s lanes hw).trans (by rw [if_pos hr])⟩
  | write off lanes v => exact ⟨_, (hostWrite_inWindow s lanes v hw).trans (by rw [if_pos hr])⟩
  | completion => exact ⟨s.busOut, completionStep_idle s (.inr hr)⟩
  | resetPin level => exact he.elim

/-- Settles O40: an asserted pin is held, an event under it is only answered, and its release is power-on reset. -/
theorem powerOnResetDiscardsThePendingCommand : Obligations.PowerOnResetDiscardsThePendingCommand := by
  refine ⟨fun s rest h => ?_, fun s e rest hr h he hw => ?_, fun s rest hr h => ?_⟩
  · refine ⟨_, step_cons s _ rest h, ?_⟩
    rw [setResetPin_assert]
    exact ⟨rfl, rfl⟩
  · obtain ⟨b, hb⟩ := handle_asserted (s := s.withInbox rest) hr he hw
    exact ⟨_, (step_cons s e rest h).trans hb, sameBlock_withInbox_answer s rest b, rfl⟩
  · refine ⟨_, step_cons s _ rest h, ?_⟩
    rw [setResetPin_release (s := s.withInbox rest) hr]
    exact ⟨rfl, rfl, rfl, rfl, rfl, readReg_powerOnReset _⟩

end Sys2Proof.Machine
end
